-- ==== Sys2Proof/Word.lean ====
section
/-! DEFINITION. The word types of the machine (00_scope.md R8, R10-R12): bytes, 16-bit words, 32-bit longs, the three
operand widths and the 3-bit register number of an opcode field. -/

namespace Sys2Proof

/-- One byte of memory, R70. -/
abbrev Byte := BitVec 8

/-- A 16-bit word: the unit of instructions and the width of SR, R8. -/
abbrev Word := BitVec 16

/-- A 32-bit long: the width of registers, PC and addresses, R8. -/
abbrev Long := BitVec 32

/-- A 3-bit register number, the field `r` or `x` of an opcode word. -/
abbrev Reg := BitVec 3

/-- The operand widths B, W and L, R12. -/
inductive Size where
  | b
  | w
  | l
deriving DecidableEq, Repr

end Sys2Proof
end

