-- ==== Sys2Proof/Config.lean ====
section
/-! DEFINITION. What an implementation or a host fixes: the parameters of 00_scope.md R9, the requests of the host
terminal port (46_trap_stop.md R351) and the free values that stand for the host's answers. -/

namespace Sys2Proof

/-- The services a TRAP #15 task code can name, the rows of the table of 46_trap_stop.md R352. A table may number them
otherwise than the default does; other services than these are not described (DESIGN CHOICE, log 7). -/
inductive TrapService where
  /-- Tasks 0 (`crlf`) and 1: the D1[15:0] bytes at A1. -/
  | outCounted (crlf : Bool)
  /-- Task 3: D1 as signed decimal text. -/
  | outDecimal
  /-- Task 4: a number is read into D1. -/
  | inNumber
  /-- Task 5: a character is read into D1[7:0]. -/
  | inChar
  /-- Task 6: the character D1[7:0]. -/
  | outChar
  /-- Task 7: whether input is pending, into D1[7:0]. -/
  | inPending
  /-- Task 9: termination. -/
  | terminate
  /-- Task 11: cursor position, or clear screen. -/
  | cursor
  /-- Task 12: keyboard echo. -/
  | echo
  /-- Tasks 13 (`crlf`) and 14: the bytes at A1 up to a NUL. -/
  | outTerminated (crlf : Bool)
deriving DecidableEq, Repr

/-- The parameters that stay fixed for a run, R9. They stand in State as plain data, so that a statement about every
state is one about every value of them (DESIGN CHOICE, log 9). -/
structure Params where
  /-- `MEM_SIZE`: memory capacity in bytes, 20_memory.md R70. -/
  memSize : Nat
  /-- `ALIGNMENT_FAULT`, 20_memory.md R78. -/
  alignmentFault : Bool
  /-- `TRAP15_TASKS`: task codes and their services, 46_trap_stop.md R350, R352. -/
  trap15Tasks : List (Byte × TrapService)
  /-- `CPU_MODEL`: the host's model identifier, read by no rule (D31, log 8). -/
  cpuModel : Nat
deriving DecidableEq, Repr

/-- The default `TRAP15_TASKS`, the table of 46_trap_stop.md R352. -/
def Params.defaultTasks : List (Byte × TrapService) :=
  [(0, .outCounted true), (1, .outCounted false), (3, .outDecimal), (4, .inNumber),
   (5, .inChar), (6, .outChar)] ++
  [(7, .inPending), (9, .terminate), (11, .cursor), (12, .echo),
   (13, .outTerminated true), (14, .outTerminated false)]

/-- The parameters of State.reset: the conventions of 95_test_vectors.md part 1 (DESIGN CHOICE, log 4, 6, 7, 8). -/
def Params.default : Params where
  memSize := 0x10000
  alignmentFault := false
  trap15Tasks := Params.defaultTasks
  cpuModel := 0

/-- The legal values of R9: a positive capacity, no task code twice, and task 9 the termination (46_trap_stop.md
R353, "Task 9 is in every TRAP15_TASKS"). -/
abbrev Params.Wf (p : Params) : Prop :=
  0 < p.memSize ∧ (p.trap15Tasks.map (·.1)).Nodup ∧ p.trap15Tasks.lookup 9 = some .terminate

/-- The requests of the host terminal port, one constructor for each row of the table of 46_trap_stop.md R351. -/
inductive HostRequest where
  | out (bytes : List Byte)
  | inNumber
  | inChar
  | pending
  | cursor (col row : Byte)
  | clearScreen
  | echo (on : Bool)
  | notice (task : Byte)
deriving DecidableEq, Repr

/-- FREE VALUE. The host's answer to an InNumber request that is the last of the requests given, or none where the host
never answers (46_trap_stop.md R356, D21; log 10). No body: nothing can be proved about its value. -/
opaque Config.hostNumber : List HostRequest → Option Long

/-- FREE VALUE. The host's answer to an InChar request, as `Config.hostNumber` (log 10). -/
opaque Config.hostChar : List HostRequest → Option Byte

/-- FREE VALUE. The host's answer to a Pending request, as `Config.hostNumber` (log 10). -/
opaque Config.hostPending : List HostRequest → Option Bool

end Sys2Proof
end

