-- ==== Sys2Proof/Syntax.lean ====
section
/-! DEFINITION. The instructions as syntax: the twelve addressing forms (30_encoding.md R104), the branch displacement
(R110), the condition codes (42_alu.md R240) and ONE inductive Instr with a constructor for every row of
spec/opcode_table.json. Operands stand in assembler order, source before destination (R123). -/

namespace Sys2Proof

/-- The fields of a brief index extension word, 30_encoding.md R107: the index register (`isAddr` selects A0-A7), its
size (`isLong`: all 32 bits, otherwise the sign-extended low word) and the signed 8-bit displacement. -/
structure Brief where
  isAddr : Bool
  xreg : Reg
  isLong : Bool
  d8 : Byte
deriving DecidableEq, Repr

/-- The twelve addressing forms of 30_encoding.md R104, each with its register and the value of its extension words. -/
inductive EA where
  /-- Mode 0, `Dn`. -/
  | dn (r : Reg)
  /-- Mode 1, `An`. -/
  | an (r : Reg)
  /-- Mode 2, `(An)`. -/
  | ind (r : Reg)
  /-- Mode 3, `(An)+`. -/
  | postinc (r : Reg)
  /-- Mode 4, `-(An)`. -/
  | predec (r : Reg)
  /-- Mode 5, `d16(An)`. -/
  | disp (r : Reg) (d16 : Word)
  /-- Mode 6, `d8(An,Xi.s)`. -/
  | index (r : Reg) (x : Brief)
  /-- Mode 7/0, `abs.W`. -/
  | absW (addr : Word)
  /-- Mode 7/1, `abs.L`. -/
  | absL (addr : Long)
  /-- Mode 7/2, `d16(PC)`. -/
  | pcDisp (d16 : Word)
  /-- Mode 7/3, `d8(PC,Xi.s)`. -/
  | pcIndex (x : Brief)
  /-- Mode 7/4, `#imm`; the value is at the width of the instruction (R108). -/
  | imm (v : Long)
deriving DecidableEq, Repr

/-- A branch displacement, 30_encoding.md R110: 8 bits inside the opcode word (not 0x00), or a 16-bit extension word. -/
inductive Disp where
  | short (d8 : Byte)
  | word (d16 : Word)
deriving DecidableEq, Repr

/-- The sixteen condition predicates of 42_alu.md R240, in the order of their codes. -/
inductive Cond where
  | t | f | hi | ls | cc | cs | ne | eq | vc | vs | pl | mi | ge | lt | gt | le
deriving DecidableEq, Repr

/-- The instructions, one constructor for each row of spec/opcode_table.json, in the table's order. -/
inductive Instr where
  /-- MOVEA.L <ea>,An, 44_move.md R305. -/
  | moveaL (src : EA) (an : Reg)
  /-- MOVEA.W <ea>,An, R305. -/
  | moveaW (src : EA) (an : Reg)
  /-- MOVE.B <ea>,<ea>, R300. -/
  | moveB (src dst : EA)
  /-- MOVE.L <ea>,<ea>, R300. -/
  | moveL (src dst : EA)
  /-- MOVE.W <ea>,<ea>, R300. -/
  | moveW (src dst : EA)
  /-- ADDI.B #imm,<ea>, 43_arithmetic.md R270. -/
  | addiB (imm : Byte) (dst : EA)
  /-- ADDI.W #imm,<ea>, R270. -/
  | addiW (imm : Word) (dst : EA)
  /-- ADDI.L #imm,<ea>, R270. -/
  | addiL (imm : Long) (dst : EA)
  /-- CLR.B <ea>, R295. -/
  | clrB (dst : EA)
  /-- CLR.W <ea>, R295. -/
  | clrW (dst : EA)
  /-- CLR.L <ea>, R295. -/
  | clrL (dst : EA)
  /-- RTS, 45_control_flow.md R340. -/
  | rts
  /-- STOP #imm, 46_trap_stop.md R360. -/
  | stop (k : Word)
  /-- TRAP #15, R350. -/
  | trap15
  /-- JMP <ea>, 45_control_flow.md R325. -/
  | jmp (ea : EA)
  /-- ADDQ.B #q,<ea>, 43_arithmetic.md R275; `q` is the 3-bit field, 0 means 8 (30_encoding.md R109). -/
  | addqB (q : BitVec 3) (dst : EA)
  /-- ADDQ.W #q,<ea>, R275, R276. -/
  | addqW (q : BitVec 3) (dst : EA)
  /-- ADDQ.L #q,<ea>, R275, R276. -/
  | addqL (q : BitVec 3) (dst : EA)
  /-- BRA, 45_control_flow.md R330. -/
  | bra (d : Disp)
  /-- BSR, R335. -/
  | bsr (d : Disp)
  /-- BHI, R331. -/
  | bhi (d : Disp)
  /-- BLS, R331. -/
  | bls (d : Disp)
  /-- BCC, R331. -/
  | bcc (d : Disp)
  /-- BCS, R331. -/
  | bcs (d : Disp)
  /-- BNE, R331. -/
  | bne (d : Disp)
  /-- BEQ, R331. -/
  | beq (d : Disp)
  /-- BVC, R331. -/
  | bvc (d : Disp)
  /-- BVS, R331. -/
  | bvs (d : Disp)
  /-- BPL, R331. -/
  | bpl (d : Disp)
  /-- BMI, R331. -/
  | bmi (d : Disp)
  /-- BGE, R331. -/
  | bge (d : Disp)
  /-- BLT, R331. -/
  | blt (d : Disp)
  /-- BGT, R331. -/
  | bgt (d : Disp)
  /-- BLE, R331. -/
  | ble (d : Disp)
  /-- CMP.B <ea>,Dn, 43_arithmetic.md R280. -/
  | cmpB (src : EA) (dn : Reg)
  /-- CMP.W <ea>,Dn, R280. -/
  | cmpW (src : EA) (dn : Reg)
  /-- CMP.L <ea>,Dn, R280. -/
  | cmpL (src : EA) (dn : Reg)
  /-- CMPA.W <ea>,An, R290. -/
  | cmpaW (src : EA) (an : Reg)
  /-- CMPA.L <ea>,An, R290. -/
  | cmpaL (src : EA) (an : Reg)
  /-- ADD.B <ea>,Dn, R261. -/
  | addEaDnB (src : EA) (dn : Reg)
  /-- ADD.W <ea>,Dn, R261. -/
  | addEaDnW (src : EA) (dn : Reg)
  /-- ADD.L <ea>,Dn, R261. -/
  | addEaDnL (src : EA) (dn : Reg)
  /-- ADD.B Dn,<ea>, R262. -/
  | addDnEaB (dn : Reg) (dst : EA)
  /-- ADD.W Dn,<ea>, R262. -/
  | addDnEaW (dn : Reg) (dst : EA)
  /-- ADD.L Dn,<ea>, R262. -/
  | addDnEaL (dn : Reg) (dst : EA)
  /-- ADDA.W <ea>,An, R266. -/
  | addaW (src : EA) (an : Reg)
  /-- ADDA.L <ea>,An, R266. -/
  | addaL (src : EA) (an : Reg)
deriving DecidableEq, Repr

end Sys2Proof
end

