-- ==== Sys2Proof/WellFormed.lean ====
section
/-! DEFINITION. Which instruction terms the encoding admits: the addressing-mode sets of 30_encoding.md R118, the width
of an immediate (R108) and the nonzero inline displacement (R110). -/

namespace Sys2Proof

/-- The named sets of addressing forms of 30_encoding.md R118. -/
inductive ModeSet where
  | all
  | data
  | alterable
  | dataAlt
  | memAlt
  | control
deriving DecidableEq, Repr

/-- Membership of a form in a set, the first table of R118. -/
def EA.isIn : EA → ModeSet → Bool
  | .dn _, m => m = .all ∨ m = .data ∨ m = .alterable ∨ m = .dataAlt
  | .an _, m => m = .all ∨ m = .alterable
  | .ind _, _ => true
  | .postinc _, m => m ≠ .control
  | .predec _, m => m ≠ .control
  | .disp _ _, _ => true
  | .index _ _, _ => true
  | .absW _, _ => true
  | .absL _, _ => true
  | .pcDisp _, m => m = .all ∨ m = .data ∨ m = .control
  | .pcIndex _, m => m = .all ∨ m = .data ∨ m = .control
  | .imm _, m => m = .all ∨ m = .data

/-- An immediate fits the width of its instruction, R108; the other forms carry no operand width. -/
def EA.immFits : EA → Size → Bool
  | .imm v, .b => v.toNat < 0x100
  | .imm v, .w => v.toNat < 0x10000
  | .imm _, .l => true
  | _, _ => true

/-- A legal operand of an instruction of width sz: its form is in the set and an immediate fits. -/
def EA.legal (ea : EA) (set : ModeSet) (sz : Size) : Bool :=
  ea.isIn set && ea.immFits sz

/-- The inline displacement is not 0x00, which selects the extension word, R110. -/
def Disp.legal : Disp → Bool
  | .short d8 => d8 != 0
  | .word _ => true

/-- The well-formed instructions: the second table of R118, row by row, and `Disp.legal`. -/
def WellFormed : Instr → Bool
  | .moveaL src _ => src.legal .all .l
  | .moveaW src _ => src.legal .all .w
  | .moveB src dst => src.legal .data .b && dst.legal .dataAlt .b
  | .moveL src dst => src.legal .all .l && dst.legal .dataAlt .l
  | .moveW src dst => src.legal .all .w && dst.legal .dataAlt .w
  | .addiB _ dst => dst.legal .dataAlt .b
  | .addiW _ dst => dst.legal .dataAlt .w
  | .addiL _ dst => dst.legal .dataAlt .l
  | .clrB dst => dst.legal .dataAlt .b
  | .clrW dst => dst.legal .dataAlt .w
  | .clrL dst => dst.legal .dataAlt .l
  | .rts => true
  | .stop _ => true
  | .trap15 => true
  | .jmp ea => ea.legal .control .l
  | .addqB _ dst => dst.legal .dataAlt .b
  | .addqW _ dst => dst.legal .alterable .w
  | .addqL _ dst => dst.legal .alterable .l
  | .bra d => d.legal
  | .bsr d => d.legal
  | .bhi d => d.legal
  | .bls d => d.legal
  | .bcc d => d.legal
  | .bcs d => d.legal
  | .bne d => d.legal
  | .beq d => d.legal
  | .bvc d => d.legal
  | .bvs d => d.legal
  | .bpl d => d.legal
  | .bmi d => d.legal
  | .bge d => d.legal
  | .blt d => d.legal
  | .bgt d => d.legal
  | .ble d => d.legal
  | .cmpB src _ => src.legal .data .b
  | .cmpW src _ => src.legal .all .w
  | .cmpL src _ => src.legal .all .l
  | .cmpaW src _ => src.legal .all .w
  | .cmpaL src _ => src.legal .all .l
  | .addEaDnB src _ => src.legal .data .b
  | .addEaDnW src _ => src.legal .all .w
  | .addEaDnL src _ => src.legal .all .l
  | .addDnEaB _ dst => dst.legal .memAlt .b
  | .addDnEaW _ dst => dst.legal .memAlt .w
  | .addDnEaL _ dst => dst.legal .memAlt .l
  | .addaW src _ => src.legal .all .w
  | .addaL src _ => src.legal .all .l

end Sys2Proof
end

