-- ==== Sys2Proof/Decode.lean ====
section
/-! DEFINITION. The decoder and the encoder (30_encoding.md): the width helpers of 00_scope.md R11-R12, the fields of an
opcode word, the first-match decode table (R116, R117), the extension words (R106-R114), and after them the encoder,
written from the formats of R102. -/

namespace Sys2Proof

/-! ### Widths, 00_scope.md R11, R12 -/

/-- `bytes(sz)`. -/
def Size.bytes : Size → Nat
  | .b => 1
  | .w => 2
  | .l => 4

/-- `n(sz)`. -/
def Size.bits : Size → Nat
  | .b => 8
  | .w => 16
  | .l => 32

/-- `mask(sz)`. -/
def Size.mask : Size → Long
  | .b => 0x000000FF
  | .w => 0x0000FFFF
  | .l => 0xFFFFFFFF

/-- A value "at width sz", R12. -/
def atWidth (sz : Size) (v : Long) : Long := v &&& sz.mask

/-- `msb(v, sz)`, R12. -/
def msbAt (sz : Size) (v : Long) : Bool := v.getLsbD (sz.bits - 1)

/-- `sext_32` of a byte, R11. -/
def sextByte (v : Byte) : Long := v.signExtend 32

/-- `sext_32` of a word, R11. -/
def sextWord (v : Word) : Long := v.signExtend 32

/-- `zext_32` of a byte, R11. -/
def zextByte (v : Byte) : Long := v.setWidth 32

/-- `zext_32` of a word, R11. -/
def zextWord (v : Word) : Long := v.setWidth 32

/-- The words of a byte sequence, each big-endian, 20_memory.md R72. -/
def wordsOfBytes : List Byte → List Word
  | hi :: lo :: rest => (hi ++ lo) :: wordsOfBytes rest
  | _ => []

/-- The bytes of a word sequence, the byte at the lower address first, 20_memory.md R73. -/
def bytesOfWords : List Word → List Byte
  | [] => []
  | w :: rest => w.extractLsb' 8 8 :: w.extractLsb' 0 8 :: bytesOfWords rest

/-! ### The fields of an opcode word, 30_encoding.md R102 -/

/-- `[5:3]`, the EA mode. -/
def eaMode (ir : Word) : BitVec 3 := ir.extractLsb' 3 3

/-- `[2:0]`, the EA register. -/
def eaReg (ir : Word) : Reg := ir.extractLsb' 0 3

/-- `[11:9]`: Dn, An, the quick data, or MOVE's destination register. -/
def highReg (ir : Word) : Reg := ir.extractLsb' 9 3

/-- `[8:6]`, MOVE's destination mode, R105. -/
def moveDstMode (ir : Word) : BitVec 3 := ir.extractLsb' 6 3

/-- `[7:0]`, the inline displacement, R110. -/
def disp8 (ir : Word) : Byte := ir.extractLsb' 0 8

/-! ### The decode table, 30_encoding.md R116, R117 -/

/-- The rows of the decode table, named as the constructors of Instr. -/
inductive Op where
  | moveaL | moveaW | moveB | moveL | moveW
  | addiB | addiW | addiL | clrB | clrW | clrL
  | rts | stop | trap15 | jmp
  | addqB | addqW | addqL
  | bra | bsr | bhi | bls | bcc | bcs | bne | beq | bvc | bvs | bpl | bmi | bge | blt | bgt | ble
  | cmpB | cmpW | cmpL | cmpaW | cmpaL
  | addEaDnB | addEaDnW | addEaDnL | addDnEaB | addDnEaW | addDnEaL | addaW | addaL
deriving DecidableEq, Repr

/-- A row of the decode table: mask, pattern, guard and handler, R116. The one guard of the table is "EA mode is not 0
or 1" (43_arithmetic.md R262). -/
structure Row where
  mask : Word
  pattern : Word
  memGuard : Bool
  op : Op
deriving DecidableEq, Repr

/-- The rows of spec/opcode_table.json in file order: lines 0x0 to 0x4. -/
def rowsLow : List Row :=
  [⟨0xF1C0, 0x2040, false, .moveaL⟩, ⟨0xF1C0, 0x3040, false, .moveaW⟩,
   ⟨0xF000, 0x1000, false, .moveB⟩, ⟨0xF000, 0x2000, false, .moveL⟩, ⟨0xF000, 0x3000, false, .moveW⟩,
   ⟨0xFFC0, 0x0600, false, .addiB⟩, ⟨0xFFC0, 0x0640, false, .addiW⟩, ⟨0xFFC0, 0x0680, false, .addiL⟩,
   ⟨0xFFC0, 0x4200, false, .clrB⟩, ⟨0xFFC0, 0x4240, false, .clrW⟩, ⟨0xFFC0, 0x4280, false, .clrL⟩,
   ⟨0xFFFF, 0x4E75, false, .rts⟩, ⟨0xFFFF, 0x4E72, false, .stop⟩, ⟨0xFFFF, 0x4E4F, false, .trap15⟩,
   ⟨0xFFC0, 0x4EC0, false, .jmp⟩]

/-- The rows of lines 0x5 and 0x6. -/
def rowsMid : List Row :=
  [⟨0xF1C0, 0x5000, false, .addqB⟩, ⟨0xF1C0, 0x5040, false, .addqW⟩, ⟨0xF1C0, 0x5080, false, .addqL⟩,
   ⟨0xFF00, 0x6000, false, .bra⟩, ⟨0xFF00, 0x6100, false, .bsr⟩,
   ⟨0xFF00, 0x6200, false, .bhi⟩, ⟨0xFF00, 0x6300, false, .bls⟩, ⟨0xFF00, 0x6400, false, .bcc⟩,
   ⟨0xFF00, 0x6500, false, .bcs⟩, ⟨0xFF00, 0x6600, false, .bne⟩, ⟨0xFF00, 0x6700, false, .beq⟩,
   ⟨0xFF00, 0x6800, false, .bvc⟩, ⟨0xFF00, 0x6900, false, .bvs⟩, ⟨0xFF00, 0x6A00, false, .bpl⟩,
   ⟨0xFF00, 0x6B00, false, .bmi⟩, ⟨0xFF00, 0x6C00, false, .bge⟩, ⟨0xFF00, 0x6D00, false, .blt⟩,
   ⟨0xFF00, 0x6E00, false, .bgt⟩, ⟨0xFF00, 0x6F00, false, .ble⟩]

/-- The rows of lines 0xB and 0xD. -/
def rowsHigh : List Row :=
  [⟨0xF1C0, 0xB000, false, .cmpB⟩, ⟨0xF1C0, 0xB040, false, .cmpW⟩, ⟨0xF1C0, 0xB080, false, .cmpL⟩,
   ⟨0xF1C0, 0xB0C0, false, .cmpaW⟩, ⟨0xF1C0, 0xB1C0, false, .cmpaL⟩,
   ⟨0xF1C0, 0xD000, false, .addEaDnB⟩, ⟨0xF1C0, 0xD040, false, .addEaDnW⟩, ⟨0xF1C0, 0xD080, false, .addEaDnL⟩,
   ⟨0xF1C0, 0xD100, true, .addDnEaB⟩, ⟨0xF1C0, 0xD140, true, .addDnEaW⟩, ⟨0xF1C0, 0xD180, true, .addDnEaL⟩,
   ⟨0xF1C0, 0xD0C0, false, .addaW⟩, ⟨0xF1C0, 0xD1C0, false, .addaL⟩]

/-- DECODE_TABLE, R117. -/
def decodeTable : List Row := rowsLow ++ rowsMid ++ rowsHigh

/-- `(IR & row.mask) == row.match and row.guard(IR)`, R116. -/
def Row.admits (r : Row) (ir : Word) : Bool :=
  ir &&& r.mask == r.pattern && (!r.memGuard || 2 ≤ (eaMode ir).toNat)

/-- The first row that admits the opcode word, R116. -/
def firstMatch (ir : Word) : Option Op :=
  (decodeTable.find? (·.admits ir)).map (·.op)

/-! ### Operands -/

/-- Why an opcode word is rejected, 30_encoding.md R118-R120. -/
inductive OpcodeError where
  /-- No row matches, R120. -/
  | illegalInstruction
  /-- A row matches and an EA field is outside its legal set, R118, R119. -/
  | illegalAddressingMode
deriving DecidableEq, Repr

/-- Whether a mode/register pair is in a legal set, the first table of R118 on the bits of the field. -/
def modeLegal (set : ModeSet) (mode : BitVec 3) (reg : Reg) : Bool :=
  match mode.toNat, reg.toNat with
  | 0, _ => set = .all ∨ set = .data ∨ set = .alterable ∨ set = .dataAlt
  | 1, _ => set = .all ∨ set = .alterable
  | 2, _ => true
  | 3, _ => set ≠ .control
  | 4, _ => set ≠ .control
  | 5, _ => true
  | 6, _ => true
  | 7, 0 => true
  | 7, 1 => true
  | 7, 2 => set = .all ∨ set = .data ∨ set = .control
  | 7, 3 => set = .all ∨ set = .data ∨ set = .control
  | 7, 4 => set = .all ∨ set = .data
  | _, _ => false

/-- Word k of the extension words; a word that is not there reads as 0 (the execute phase faults on it, log 13). -/
def extWord (ext : List Word) (k : Nat) : Word := ext.getD k 0

/-- The brief index extension word, R107. -/
def decodeBrief (w : Word) : Brief where
  isAddr := w.getLsbD 15
  xreg := w.extractLsb' 12 3
  isLong := w.getLsbD 11
  d8 := w.extractLsb' 0 8

/-- The immediate of mode 7/4 at width sz, R108. -/
def decodeImm (sz : Size) (ext : List Word) : Long :=
  match sz with
  | .b => zextByte ((extWord ext 0).extractLsb' 0 8)
  | .w => zextWord (extWord ext 0)
  | .l => extWord ext 0 ++ extWord ext 1

/-- The extension words a mode/register pair consumes at width sz, the last column of R104. -/
def eaWords (sz : Size) (mode : BitVec 3) (reg : Reg) : Nat :=
  match mode.toNat, reg.toNat with
  | 5, _ => 1
  | 6, _ => 1
  | 7, 0 => 1
  | 7, 1 => 2
  | 7, 2 => 1
  | 7, 3 => 1
  | 7, 4 => if sz = .l then 2 else 1
  | _, _ => 0

/-- The operand of a mode/register pair, R104, checked against its legal set, R118; `ext` begins at its first extension
word. -/
def decodeEA (set : ModeSet) (sz : Size) (mode : BitVec 3) (reg : Reg) (ext : List Word) : Except OpcodeError EA :=
  if modeLegal set mode reg then
    match mode.toNat, reg.toNat with
    | 0, _ => .ok (.dn reg)
    | 1, _ => .ok (.an reg)
    | 2, _ => .ok (.ind reg)
    | 3, _ => .ok (.postinc reg)
    | 4, _ => .ok (.predec reg)
    | 5, _ => .ok (.disp reg (extWord ext 0))
    | 6, _ => .ok (.index reg (decodeBrief (extWord ext 0)))
    | 7, 0 => .ok (.absW (extWord ext 0))
    | 7, 1 => .ok (.absL (extWord ext 0 ++ extWord ext 1))
    | 7, 2 => .ok (.pcDisp (extWord ext 0))
    | 7, 3 => .ok (.pcIndex (decodeBrief (extWord ext 0)))
    | 7, 4 => .ok (.imm (decodeImm sz ext))
    | _, _ => .error .illegalAddressingMode
  else .error .illegalAddressingMode

/-- The displacement of the BRANCH format, R110. -/
def decodeDisp (ir : Word) (ext : List Word) : Disp :=
  if disp8 ir = 0 then .word (extWord ext 0) else .short (disp8 ir)

/-- The instruction with one EA field, in bits [5:0]. -/
def oneEA (set : ModeSet) (sz : Size) (ir : Word) (ext : List Word) (mk : EA → Instr) : Except OpcodeError Instr :=
  match decodeEA set sz (eaMode ir) (eaReg ir) ext with
  | .ok ea => .ok (mk ea)
  | .error e => .error e

/-- MOVE: source in bits [5:0], destination in bits [11:6] (R105), the source's extension words first (R114). -/
def twoEA (srcSet : ModeSet) (sz : Size) (ir : Word) (ext : List Word) (mk : EA → EA → Instr) :
    Except OpcodeError Instr :=
  match decodeEA srcSet sz (eaMode ir) (eaReg ir) ext with
  | .error e => .error e
  | .ok src =>
    match decodeEA .dataAlt sz (moveDstMode ir) (highReg ir) (ext.drop (eaWords sz (eaMode ir) (eaReg ir))) with
    | .error e => .error e
    | .ok dst => .ok (mk src dst)

/-- The operands of a matched row: the legal sets of R118 and the order of extension words of R114. -/
def decodeOperands (op : Op) (ir : Word) (ext : List Word) : Except OpcodeError Instr :=
  match op with
  | .moveaL => oneEA .all .l ir ext fun src => .moveaL src (highReg ir)
  | .moveaW => oneEA .all .w ir ext fun src => .moveaW src (highReg ir)
  | .moveB => twoEA .data .b ir ext .moveB
  | .moveL => twoEA .all .l ir ext .moveL
  | .moveW => twoEA .all .w ir ext .moveW
  | .addiB => oneEA .dataAlt .b ir (ext.drop 1) (.addiB ((extWord ext 0).extractLsb' 0 8))
  | .addiW => oneEA .dataAlt .w ir (ext.drop 1) (.addiW (extWord ext 0))
  | .addiL => oneEA .dataAlt .l ir (ext.drop 2) (.addiL (extWord ext 0 ++ extWord ext 1))
  | .clrB => oneEA .dataAlt .b ir ext .clrB
  | .clrW => oneEA .dataAlt .w ir ext .clrW
  | .clrL => oneEA .dataAlt .l ir ext .clrL
  | .rts => .ok .rts
  | .stop => .ok (.stop (extWord ext 0))
  | .trap15 => .ok .trap15
  | .jmp => oneEA .control .l ir ext .jmp
  | .addqB => oneEA .dataAlt .b ir ext (.addqB (highReg ir))
  | .addqW => oneEA .alterable .w ir ext (.addqW (highReg ir))
  | .addqL => oneEA .alterable .l ir ext (.addqL (highReg ir))
  | .bra => .ok (.bra (decodeDisp ir ext))
  | .bsr => .ok (.bsr (decodeDisp ir ext))
  | .bhi => .ok (.bhi (decodeDisp ir ext))
  | .bls => .ok (.bls (decodeDisp ir ext))
  | .bcc => .ok (.bcc (decodeDisp ir ext))
  | .bcs => .ok (.bcs (decodeDisp ir ext))
  | .bne => .ok (.bne (decodeDisp ir ext))
  | .beq => .ok (.beq (decodeDisp ir ext))
  | .bvc => .ok (.bvc (decodeDisp ir ext))
  | .bvs => .ok (.bvs (decodeDisp ir ext))
  | .bpl => .ok (.bpl (decodeDisp ir ext))
  | .bmi => .ok (.bmi (decodeDisp ir ext))
  | .bge => .ok (.bge (decodeDisp ir ext))
  | .blt => .ok (.blt (decodeDisp ir ext))
  | .bgt => .ok (.bgt (decodeDisp ir ext))
  | .ble => .ok (.ble (decodeDisp ir ext))
  | .cmpB => oneEA .data .b ir ext fun src => .cmpB src (highReg ir)
  | .cmpW => oneEA .all .w ir ext fun src => .cmpW src (highReg ir)
  | .cmpL => oneEA .all .l ir ext fun src => .cmpL src (highReg ir)
  | .cmpaW => oneEA .all .w ir ext fun src => .cmpaW src (highReg ir)
  | .cmpaL => oneEA .all .l ir ext fun src => .cmpaL src (highReg ir)
  | .addEaDnB => oneEA .data .b ir ext fun src => .addEaDnB src (highReg ir)
  | .addEaDnW => oneEA .all .w ir ext fun src => .addEaDnW src (highReg ir)
  | .addEaDnL => oneEA .all .l ir ext fun src => .addEaDnL src (highReg ir)
  | .addDnEaB => oneEA .memAlt .b ir ext (.addDnEaB (highReg ir))
  | .addDnEaW => oneEA .memAlt .w ir ext (.addDnEaW (highReg ir))
  | .addDnEaL => oneEA .memAlt .l ir ext (.addDnEaL (highReg ir))
  | .addaW => oneEA .all .w ir ext fun src => .addaW src (highReg ir)
  | .addaL => oneEA .all .l ir ext fun src => .addaL src (highReg ir)

/-- `decode(IR)`, R116: the first matching row, then its mode checks. The error depends on the opcode word alone; the
extension words only give the operands their values. -/
def decodeInstr (ir : Word) (ext : List Word) : Except OpcodeError Instr :=
  match firstMatch ir with
  | none => .error .illegalInstruction
  | some op => decodeOperands op ir ext

/-- The length in words of a matched instruction, a function of the opcode word alone, R113. -/
def opLength (op : Op) (ir : Word) : Nat :=
  1 + match op with
  | .moveB => eaWords .b (eaMode ir) (eaReg ir) + eaWords .b (moveDstMode ir) (highReg ir)
  | .moveW => eaWords .w (eaMode ir) (eaReg ir) + eaWords .w (moveDstMode ir) (highReg ir)
  | .moveL => eaWords .l (eaMode ir) (eaReg ir) + eaWords .l (moveDstMode ir) (highReg ir)
  | .addiB => 1 + eaWords .b (eaMode ir) (eaReg ir)
  | .addiW => 1 + eaWords .w (eaMode ir) (eaReg ir)
  | .addiL => 2 + eaWords .l (eaMode ir) (eaReg ir)
  | .rts | .trap15 => 0
  | .stop => 1
  | .bra | .bsr | .bhi | .bls | .bcc | .bcs | .bne | .beq | .bvc | .bvs | .bpl | .bmi | .bge | .blt | .bgt
  | .ble => if disp8 ir = 0 then 1 else 0
  | .clrB | .addqB | .cmpB | .addEaDnB | .addDnEaB => eaWords .b (eaMode ir) (eaReg ir)
  | .moveaW | .clrW | .addqW | .cmpW | .cmpaW | .addEaDnW | .addDnEaW | .addaW =>
    eaWords .w (eaMode ir) (eaReg ir)
  | .moveaL | .clrL | .jmp | .addqL | .cmpL | .cmpaL | .addEaDnL | .addDnEaL | .addaL =>
    eaWords .l (eaMode ir) (eaReg ir)

/-- The length in words of the instruction an opcode word begins, `len(IR)` of R113; 1 for a word no row matches. -/
def lengthWords (ir : Word) : Nat :=
  match firstMatch ir with
  | none => 1
  | some op => opLength op ir

/-- Why a byte sequence does not begin with an instruction. -/
inductive DecodeError where
  /-- The opcode word is rejected. -/
  | opcode (e : OpcodeError)
  /-- The bytes end inside the instruction. -/
  | truncated
deriving DecidableEq, Repr

/-- The instruction a byte sequence begins with, and the bytes after it. -/
def decode (bytes : List Byte) : Except DecodeError (Instr × List Byte) :=
  match wordsOfBytes bytes with
  | [] => .error .truncated
  | ir :: ext =>
    match decodeInstr ir ext with
    | .error e => .error (.opcode e)
    | .ok i =>
      if bytes.length < 2 * lengthWords ir then .error .truncated
      else .ok (i, bytes.drop (2 * lengthWords ir))

/-! ### The encoder, 30_encoding.md R102-R114 -/

/-- The mode field of a form, R104. -/
def EA.modeField : EA → BitVec 3
  | .dn _ => 0
  | .an _ => 1
  | .ind _ => 2
  | .postinc _ => 3
  | .predec _ => 4
  | .disp _ _ => 5
  | .index _ _ => 6
  | .absW _ | .absL _ | .pcDisp _ | .pcIndex _ | .imm _ => 7

/-- The register field of a form, R104. -/
def EA.regField : EA → Reg
  | .dn r | .an r | .ind r | .postinc r | .predec r | .disp r _ | .index r _ => r
  | .absW _ => 0
  | .absL _ => 1
  | .pcDisp _ => 2
  | .pcIndex _ => 3
  | .imm _ => 4

/-- A long as two words, the high word first, R106. -/
def wordsOfLong (v : Long) : List Word := [v.extractLsb' 16 16, v.extractLsb' 0 16]

/-- The brief index extension word with its ignored bits 10:8 clear, R107 (log 23). -/
def encodeBrief (x : Brief) : Word :=
  BitVec.ofBool x.isAddr ++ x.xreg ++ BitVec.ofBool x.isLong ++ 0b000#3 ++ x.d8

/-- The extension words of a form in an instruction of width sz, R106; the ignored high byte of a byte immediate is
clear (log 23). -/
def EA.extWords (sz : Size) : EA → List Word
  | .dn _ | .an _ | .ind _ | .postinc _ | .predec _ => []
  | .disp _ d16 => [d16]
  | .index _ x => [encodeBrief x]
  | .absW a => [a]
  | .absL a => wordsOfLong a
  | .pcDisp d16 => [d16]
  | .pcIndex x => [encodeBrief x]
  | .imm v => if sz = .l then wordsOfLong v else [v.extractLsb' 0 16]

/-- The inline displacement field, R110. -/
def Disp.field : Disp → Byte
  | .short d8 => d8
  | .word _ => 0

/-- The extension word of a displacement, R110. -/
def Disp.extWords : Disp → List Word
  | .short _ => []
  | .word d16 => [d16]

/-- The code of a condition, 42_alu.md R240. -/
def Cond.code : Cond → BitVec 4
  | .t => 0
  | .f => 1
  | .hi => 2
  | .ls => 3
  | .cc => 4
  | .cs => 5
  | .ne => 6
  | .eq => 7
  | .vc => 8
  | .vs => 9
  | .pl => 10
  | .mi => 11
  | .ge => 12
  | .lt => 13
  | .gt => 14
  | .le => 15

/-- MOVE format, R102, R105. -/
def fmtMove (size : BitVec 2) (dstReg : Reg) (dstMode : BitVec 3) (src : EA) : Word :=
  0b00#2 ++ size ++ dstReg ++ dstMode ++ src.modeField ++ src.regField

/-- OPMODE format, R102. -/
def fmtOpmode (line : BitVec 4) (r : Reg) (opmode : BitVec 3) (ea : EA) : Word :=
  line ++ r ++ opmode ++ ea.modeField ++ ea.regField

/-- IMM and SINGLE formats, R102: a high byte, a standard size field and an EA. -/
def fmtSized (high : Byte) (size : BitVec 2) (ea : EA) : Word :=
  high ++ size ++ ea.modeField ++ ea.regField

/-- QUICK format, R102. -/
def fmtQuick (q : BitVec 3) (size : BitVec 2) (ea : EA) : Word :=
  0b0101#4 ++ q ++ 0b0#1 ++ size ++ ea.modeField ++ ea.regField

/-- CONTROL format, R102. -/
def fmtControl (ea : EA) : Word := 0b0100111011#10 ++ ea.modeField ++ ea.regField

/-- BRANCH format, R102. -/
def fmtBranch (c : Cond) (d : Disp) : Word := 0b0110#4 ++ c.code ++ d.field

/-- The opcode word of an instruction, R102, R103. -/
def opcodeWord : Instr → Word
  | .moveaL src an => fmtMove 0b10 an 0b001 src
  | .moveaW src an => fmtMove 0b11 an 0b001 src
  | .moveB src dst => fmtMove 0b01 dst.regField dst.modeField src
  | .moveL src dst => fmtMove 0b10 dst.regField dst.modeField src
  | .moveW src dst => fmtMove 0b11 dst.regField dst.modeField src
  | .addiB _ dst => fmtSized 0x06 0b00 dst
  | .addiW _ dst => fmtSized 0x06 0b01 dst
  | .addiL _ dst => fmtSized 0x06 0b10 dst
  | .clrB dst => fmtSized 0x42 0b00 dst
  | .clrW dst => fmtSized 0x42 0b01 dst
  | .clrL dst => fmtSized 0x42 0b10 dst
  | .rts => 0x4E75
  | .stop _ => 0x4E72
  | .trap15 => 0x4E4F
  | .jmp ea => fmtControl ea
  | .addqB q dst => fmtQuick q 0b00 dst
  | .addqW q dst => fmtQuick q 0b01 dst
  | .addqL q dst => fmtQuick q 0b10 dst
  | .bra d => fmtBranch .t d
  | .bsr d => fmtBranch .f d
  | .bhi d => fmtBranch .hi d
  | .bls d => fmtBranch .ls d
  | .bcc d => fmtBranch .cc d
  | .bcs d => fmtBranch .cs d
  | .bne d => fmtBranch .ne d
  | .beq d => fmtBranch .eq d
  | .bvc d => fmtBranch .vc d
  | .bvs d => fmtBranch .vs d
  | .bpl d => fmtBranch .pl d
  | .bmi d => fmtBranch .mi d
  | .bge d => fmtBranch .ge d
  | .blt d => fmtBranch .lt d
  | .bgt d => fmtBranch .gt d
  | .ble d => fmtBranch .le d
  | .cmpB src dn => fmtOpmode 0xB dn 0b000 src
  | .cmpW src dn => fmtOpmode 0xB dn 0b001 src
  | .cmpL src dn => fmtOpmode 0xB dn 0b010 src
  | .cmpaW src an => fmtOpmode 0xB an 0b011 src
  | .cmpaL src an => fmtOpmode 0xB an 0b111 src
  | .addEaDnB src dn => fmtOpmode 0xD dn 0b000 src
  | .addEaDnW src dn => fmtOpmode 0xD dn 0b001 src
  | .addEaDnL src dn => fmtOpmode 0xD dn 0b010 src
  | .addDnEaB dn dst => fmtOpmode 0xD dn 0b100 dst
  | .addDnEaW dn dst => fmtOpmode 0xD dn 0b101 dst
  | .addDnEaL dn dst => fmtOpmode 0xD dn 0b110 dst
  | .addaW src an => fmtOpmode 0xD an 0b011 src
  | .addaL src an => fmtOpmode 0xD an 0b111 src

/-- The extension words of an instruction, in the order of R114. -/
def instrExtWords : Instr → List Word
  | .moveaL src _ => src.extWords .l
  | .moveaW src _ => src.extWords .w
  | .moveB src dst => src.extWords .b ++ dst.extWords .b
  | .moveL src dst => src.extWords .l ++ dst.extWords .l
  | .moveW src dst => src.extWords .w ++ dst.extWords .w
  | .addiB imm dst => imm.setWidth 16 :: dst.extWords .b
  | .addiW imm dst => imm :: dst.extWords .w
  | .addiL imm dst => wordsOfLong imm ++ dst.extWords .l
  | .clrB dst => dst.extWords .b
  | .clrW dst => dst.extWords .w
  | .clrL dst => dst.extWords .l
  | .rts => []
  | .stop k => [k]
  | .trap15 => []
  | .jmp ea => ea.extWords .l
  | .addqB _ dst => dst.extWords .b
  | .addqW _ dst => dst.extWords .w
  | .addqL _ dst => dst.extWords .l
  | .bra d | .bsr d | .bhi d | .bls d | .bcc d | .bcs d | .bne d | .beq d | .bvc d | .bvs d | .bpl d | .bmi d
  | .bge d | .blt d | .bgt d | .ble d => d.extWords
  | .cmpB src _ => src.extWords .b
  | .cmpW src _ => src.extWords .w
  | .cmpL src _ => src.extWords .l
  | .cmpaW src _ => src.extWords .w
  | .cmpaL src _ => src.extWords .l
  | .addEaDnB src _ => src.extWords .b
  | .addEaDnW src _ => src.extWords .w
  | .addEaDnL src _ => src.extWords .l
  | .addDnEaB _ dst => dst.extWords .b
  | .addDnEaW _ dst => dst.extWords .w
  | .addDnEaL _ dst => dst.extWords .l
  | .addaW src _ => src.extWords .w
  | .addaL src _ => src.extWords .l

/-- The words of an instruction: the opcode word and its extension words, R100. -/
def encode (i : Instr) : List Word := opcodeWord i :: instrExtWords i

/-! ### The numbering of spec/opcode_table.json -/

/-- The five words whose bits are `w`, bit 0 the least significant of the first word, cut to `nbits` bits; the words
above them are 0. -/
def tableWords (nbits w : Nat) : List Word :=
  let v := w % 2 ^ nbits
  [BitVec.ofNat 16 v, BitVec.ofNat 16 (v / 2 ^ 16), BitVec.ofNat 16 (v / 2 ^ 32), BitVec.ofNat 16 (v / 2 ^ 48),
   BitVec.ofNat 16 (v / 2 ^ 64)]

/-- The instruction the decoder reads from an instruction whose bits are `w`. -/
def decodeTableWord (nbits w : Nat) : Option Instr :=
  match decode (bytesOfWords (tableWords nbits w)) with
  | .ok (i, _) => some i
  | .error _ => none

end Sys2Proof
end

