-- ==== Sys2Proof/Machine/State.lean ====
section
/-! DEFINITION. The state of the machine (10_state.md): the register file, PC, SR, the run state with its fault record,
memory, the parameters of 00_scope.md R9 and the host terminal port; the reasons a step can stop; the launch state
(10_state.md R52) and State.reset. -/

namespace Sys2Proof.Machine

/-- The kinds of fault with the fields their record carries, 10_state.md R45 and 60_exceptions.md R381, R382. `size` is
the width of the failing access, `size.bytes` in {1, 2, 4}. -/
inductive FaultCause where
  | illegalInstruction
  | illegalAddressingMode
  | privilegeViolation
  | outOfBounds (addr : Long) (size : Size)
  | addressError (addr : Long) (size : Size)
deriving DecidableEq, Repr

/-- FREC, 10_state.md R45: `pc` is the address of the faulting instruction's opcode word, `ir` the opcode word when it
was fetched; `addr` and `size` are arguments of the cause. -/
structure FaultRecord where
  cause : FaultCause
  pc : Long
  ir : Option Word
deriving DecidableEq, Repr

/-- Which event halted the core, 10_state.md R45. -/
inductive HaltCause where
  /-- STOP, 46_trap_stop.md R360. -/
  | stop
  /-- The termination task of TRAP #15, task 9, R353. -/
  | termination
deriving DecidableEq, Repr

/-- RUN and FREC, 10_state.md R44, R45: the fault record exists exactly when RUN = Faulted. -/
inductive RunState where
  | running
  | halted (by_ : HaltCause)
  | faulted (frec : FaultRecord)
deriving DecidableEq, Repr

/-- Memory as (address, byte) pairs, addresses strictly rising, no entry equal to what an unlisted address reads as. -/
abbrev Memory := List Host.Cell

/-- What a byte of memory that nothing has written reads as (DESIGN CHOICE, log 5). -/
def Memory.unlisted : Byte := 0

/-- The canonical form of a memory list. -/
abbrev Memory.wf (m : Memory) : Prop :=
  m.Pairwise (fun x y => x.1 < y.1) ∧ ∀ c ∈ m, c.2 ≠ Memory.unlisted

/-- The host terminal port, 10_state.md R51: the requests made so far, oldest first, and the answers the host is known
to give to the next requests of each kind. The model's own fields (log 10, 19). -/
structure HostPort where
  requests : List HostRequest
  numbers : List Long
  chars : List Byte
  pendings : List Bool
deriving DecidableEq, Repr

/-- The state of the machine. -/
structure State where
  /-- The parameters, 00_scope.md R9; no step changes them. -/
  params : Params
  /-- D0-D7, 10_state.md R30. -/
  d : Vector Long 8
  /-- A0-A7, A7 is the stack pointer, R31. -/
  a : Vector Long 8
  /-- PC, R35. -/
  pc : Long
  /-- SR, R37: C 0, V 1, Z 2, N 3, X 4, I 10:8, S 13, T 15. -/
  sr : Word
  /-- RUN and FREC, R44, R45. -/
  run : RunState
  /-- The byte array, 20_memory.md R70. -/
  mem : Memory
  /-- The host terminal port, R51. -/
  host : HostPort
deriving DecidableEq, Repr

/-- The ways a step has no next state. The faults of 60_exceptions.md R381 are NOT here: they lead to a next state with
RUN = Faulted (log 11). -/
inductive Fault where
  /-- Raised by the input tasks of TRAP #15 (4, 5, 7) when the host never answers the request: the cycle never ends
  (46_trap_stop.md R356, 60_exceptions.md R380). Safe: the hardware does not go on either. -/
  | hostNeverAnswers (request : HostRequest)
  /-- Raised by the NUL-terminated output tasks of TRAP #15 (13, 14) when every one of the 2^32 addresses has been read
  and none holds 0x00, which needs a memory of 2^32 bytes: the scan of 46_trap_stop.md R352 never ends (log 17).
  Safe: the hardware does not go on either. -/
  | stringNeverEnds
deriving DecidableEq, Repr

/-- Why an instruction has no meaning. -/
inductive Refusal where
  /-- Raised by an arm of exec that has no meaning yet; safe. No arm is left so. -/
  | notModelled (mnemonic : String)
deriving DecidableEq, Repr

/-- The implemented bits of SR, 10_state.md R40. -/
def srMask : Word := 0xA71F

/-- The host terminal before the first request, with no answer known beforehand (DESIGN CHOICE, log 10). -/
def HostPort.fresh : HostPort where
  requests := []
  numbers := []
  chars := []
  pendings := []

/-- The launch state of 10_state.md R52 and 70_reset_and_hazards.md R420, of all its parameters: REG_INIT (`d`, `a`),
PC_ENTRY, SR_INIT (its reserved bits cleared), MEM_INIT; RUN is Running and FREC is empty. A register that 00_scope.md R9
calls "unwritten" holds some 32-bit value of `d` or `a` (DESIGN CHOICE, log 25). -/
def State.launch (params : Params) (d a : Vector Long 8) (pcEntry : Long) (srInit : Word) (memInit : Memory)
    (host : HostPort) : State where
  params := params
  d := d
  a := a
  pc := pcEntry
  sr := srInit &&& srMask
  run := .running
  mem := memInit
  host := host

/-- The launch state with the conventions of 95_test_vectors.md part 1: registers 0, PC 0x1000, SR 0x2700, memory 0
(DESIGN CHOICE, log 1, 2, 3, 4, 5). -/
def State.reset : State :=
  State.launch Params.default (Vector.replicate 8 0) (Vector.replicate 8 0) 0x00001000 0x2700 [] HostPort.fresh

end Sys2Proof.Machine
end

