-- ==== Sys2Proof/Machine/Ops.lean ====
section
/-! DEFINITION. The named operations over registers, memory, PC and the host port (00_scope.md R13-R15, 20_memory.md,
40_sequencer.md), taking a fault (R160) and ending a cycle (R154). An operation that can fail answers in
`Except Stop`; it threads the state, so that a failure discards everything the cycle has done. -/

namespace Sys2Proof.Machine

/-- How the execute phase of a cycle ends without success: a fault of the machine, `raise` of 00_scope.md R15, or a
cycle that never ends. -/
inductive Stop where
  | raise (cause : FaultCause)
  | stuck (why : Fault)
deriving DecidableEq, Repr

/-! ### Registers, 10_state.md R30-R34 -/

/-- `D[i]`, R13. -/
def State.dreg (s : State) (i : Reg) : Long := s.d[i.toNat]'i.isLt

/-- `A[i]`, R13. -/
def State.areg (s : State) (i : Reg) : Long := s.a[i.toNat]'i.isLt

/-- The low n(sz) bits of `v` over the rest of `old`: the masking of the register-file write port, R32, R33. -/
def mergeAt (sz : Size) (old v : Long) : Long :=
  match sz with
  | .b => old.extractLsb' 8 24 ++ v.extractLsb' 0 8
  | .w => old.extractLsb' 16 16 ++ v.extractLsb' 0 16
  | .l => v

/-- `WriteD(i, sz, v)`, R32. -/
def State.writeD (s : State) (i : Reg) (sz : Size) (v : Long) : State :=
  { s with d := s.d.set i.toNat (mergeAt sz (s.dreg i) v) i.isLt }

/-- The write port of the address registers, R33. Every instruction uses it at width L, where it is `A[i] <- v`. -/
def State.writeA (s : State) (i : Reg) (sz : Size) (v : Long) : State :=
  { s with a := s.a.set i.toNat (mergeAt sz (s.areg i) v) i.isLt }

/-- The number of the stack pointer, A7, R31. -/
def spNum : Reg := 7

/-! ### The program counter, 40_sequencer.md R154-R158 -/

/-- `PC <- v`. -/
def State.setPc (s : State) (v : Long) : State := { s with pc := v }

/-- `SetTarget(T)`: PC <- T - 2, R158. -/
def State.setTarget (s : State) (t : Long) : State := s.setPc (t - 2)

/-! ### The memory list -/

/-- The byte at an address. -/
def Memory.read : Memory → Nat → Byte
  | [], _ => Memory.unlisted
  | (k, b) :: rest, a => if k = a then b else Memory.read rest a

/-- The memory with the byte at an address replaced, in canonical form. -/
def Memory.write : Memory → Nat → Byte → Memory
  | [], a, v => if v = Memory.unlisted then [] else [(a, v)]
  | (k, b) :: rest, a, v =>
    if a < k then
      if v = Memory.unlisted then (k, b) :: rest else (a, v) :: (k, b) :: rest
    else if a = k then
      if v = Memory.unlisted then rest else (a, v) :: rest
    else (k, b) :: Memory.write rest a v

/-! ### The memory port, 20_memory.md R70-R79, 10_state.md R49 -/

/-- The byte array read at one address. -/
def State.byteAt (s : State) (a : Long) : Byte := s.mem.read a.toNat

/-- The checks of an access of width sz at address a: alignment first when ALIGNMENT_FAULT (R78), then the bounds,
computed as integers (R75). -/
def State.checkAccess (s : State) (a : Long) (sz : Size) : Except Stop Unit :=
  if s.params.alignmentFault = true ∧ sz ≠ .b ∧ a.toNat % 2 = 1 then .error (.raise (.addressError a sz))
  else if s.params.memSize < a.toNat + sz.bytes then .error (.raise (.outOfBounds a sz))
  else .ok ()

/-- The big-endian value of the bytes from a, R72; addresses of the bytes are 32-bit (log 16). -/
def State.load (s : State) (a : Long) (sz : Size) : Long :=
  match sz with
  | .b => zextByte (s.byteAt a)
  | .w => zextWord (s.byteAt a ++ s.byteAt (a + 1))
  | .l => s.byteAt a ++ s.byteAt (a + 1) ++ s.byteAt (a + 2) ++ s.byteAt (a + 3)

/-- `MemRead(addr, n)`, R71, R72, R75. -/
def memRead (s : State) (a : Long) (sz : Size) : Except Stop Long := do
  s.checkAccess a sz
  return s.load a sz

/-- The byte array with one byte replaced. -/
def State.setByte (s : State) (a : Long) (v : Byte) : State := { s with mem := s.mem.write a.toNat v }

/-- The byte array with the low bytes of v stored big-endian from a, R73. -/
def State.store (s : State) (a : Long) (sz : Size) (v : Long) : State :=
  match sz with
  | .b => s.setByte a (v.extractLsb' 0 8)
  | .w => (s.setByte a (v.extractLsb' 8 8)).setByte (a + 1) (v.extractLsb' 0 8)
  | .l =>
    (((s.setByte a (v.extractLsb' 24 8)).setByte (a + 1) (v.extractLsb' 16 8)).setByte (a + 2)
      (v.extractLsb' 8 8)).setByte (a + 3) (v.extractLsb' 0 8)

/-- `MemWrite(addr, n, v)`, R73, R75, R76. -/
def memWrite (s : State) (a : Long) (sz : Size) (v : Long) : Except Stop State := do
  s.checkAccess a sz
  return s.store a sz v

/-! ### Fetch, 40_sequencer.md R151, R155, R156 -/

/-- `Fetch16()`: the opcode word at PC, R151. -/
def fetchOpcode (s : State) : Except Stop Word := do
  let v ← memRead s s.pc .w
  return v.setWidth 16

/-- `NextExt()`, R155: the read of the word at PC + 2 with its checks, and PC moved onto it. The word itself is in the
operand, which the decoder took from the same address (log 13). -/
def nextExt (s : State) : Except Stop State := do
  let _ ← memRead s (s.pc + 2) .w
  return s.setPc (s.pc + 2)

/-- `NextExt32()`, R156. -/
def nextExt32 (s : State) : Except Stop State := do
  nextExt (← nextExt s)

/-- The four words after the opcode word, the longest instruction has no more (30_encoding.md R100); a word that the
port does not give reads as 0, and the execute phase faults where it consumes it (log 13). -/
def extWordsAt (s : State) : List Word :=
  [2, 4, 6, 8].map fun k =>
    match memRead s (s.pc + k) .w with
    | .ok v => v.setWidth 16
    | .error _ => 0

/-! ### Taking a fault and ending a cycle, 40_sequencer.md R154, R160 -/

/-- RUN <- Faulted with FREC = {kind, pc = IA, ir, info}, R160 and 60_exceptions.md R387. `s` is the state at the start
of the cycle, so that every register, SR, memory and PC keep their values. There is no return from it (R162, R388). -/
def takeFault (s : State) (cause : FaultCause) (ir : Option Word) : State :=
  { s with run := .faulted { cause := cause, pc := s.pc, ir := ir } }

/-- The advance phase, R154: PC <- PC + 2, and RUN <- Halted when the instruction requested a halt. -/
def State.advance (s : State) (halt : Option HaltCause) : State :=
  match halt with
  | none => s.setPc (s.pc + 2)
  | some c => { s.setPc (s.pc + 2) with run := .halted c }

/-- The end of a cycle that began in `s` with the opcode word `ir`, from the result of its execute phase. -/
def endCycle (ir : Word) (s : State) (result : Except Stop (State × Option HaltCause)) :
    Host.Outcome State Fault Refusal :=
  match result with
  | .ok (t, halt) => .next (t.advance halt)
  | .error (.raise cause) => .next (takeFault s cause (some ir))
  | .error (.stuck why) => .fault why

/-- A cycle of the instruction `i` that began in `s` and requests no halt; FREC.ir is the opcode word of `i` (log 14). -/
def runCycle (i : Instr) (s : State) (body : State → Except Stop State) : Host.Outcome State Fault Refusal :=
  endCycle (opcodeWord i) s ((body s).map fun t => (t, none))

/-! ### The host terminal port, 46_trap_stop.md R351, R356 -/

/-- A request that is not answered. -/
def HostPort.send (h : HostPort) (r : HostRequest) : HostPort := { h with requests := h.requests ++ [r] }

/-- `InNumber()`: the request and its answer, the next known one or the free value (log 10); none where the host never
answers. -/
def HostPort.askNumber (h : HostPort) : Option (Long × HostPort) :=
  let h' := h.send .inNumber
  match h.numbers with
  | v :: rest => some (v, { h' with numbers := rest })
  | [] => (Config.hostNumber h'.requests).map fun v => (v, h')

/-- `InChar()`, as `askNumber`. -/
def HostPort.askChar (h : HostPort) : Option (Byte × HostPort) :=
  let h' := h.send .inChar
  match h.chars with
  | v :: rest => some (v, { h' with chars := rest })
  | [] => (Config.hostChar h'.requests).map fun v => (v, h')

/-- `Pending()`, as `askNumber`. -/
def HostPort.askPending (h : HostPort) : Option (Bool × HostPort) :=
  let h' := h.send .pending
  match h.pendings with
  | v :: rest => some (v, { h' with pendings := rest })
  | [] => (Config.hostPending h'.requests).map fun v => (v, h')

/-- The state after a request that is not answered. -/
def State.request (s : State) (r : HostRequest) : State := { s with host := s.host.send r }

/-! ### The host control port, 10_state.md R50, 70_reset_and_hazards.md R420 -/

/-- What `step()` reports to the host, R50. -/
inductive StepReport where
  | running
  | halted
  | faulted (code : Nat)
deriving DecidableEq, Repr

/-- The numeric code of a fault kind, 60_exceptions.md R381. -/
def FaultCause.code : FaultCause → Nat
  | .illegalInstruction => 1
  | .illegalAddressingMode => 2
  | .privilegeViolation => 3
  | .outOfBounds _ _ => 4
  | .addressError _ _ => 5

/-- The report of `step()` from the state it leaves, R50. -/
def State.stepReport (s : State) : StepReport :=
  match s.run with
  | .running => .running
  | .halted _ => .halted
  | .faulted f => .faulted f.cause.code

/-- The fault record, empty unless RUN = Faulted, R45. -/
def State.frec (s : State) : Option FaultRecord :=
  match s.run with
  | .faulted f => some f
  | _ => none

/-- The register file, 10_state.md R30, R31, R35, R37: D0-D7, A0-A7, PC and SR. -/
structure RegisterFile where
  d : Vector Long 8
  a : Vector Long 8
  pc : Long
  sr : Word
deriving DecidableEq, Repr

/-- What `status()` returns, R50: RUN, FREC and the register file. -/
structure Status where
  run : RunState
  frec : Option FaultRecord
  registers : RegisterFile
deriving DecidableEq, Repr

/-- `status()`, R50; it changes nothing. -/
def State.status (s : State) : Status where
  run := s.run
  frec := s.frec
  registers := { d := s.d, a := s.a, pc := s.pc, sr := s.sr }

/-- The bytes `v` at the addresses below `n`, written from the top down. -/
def Memory.fill (n : Nat) (v : Byte) : Memory :=
  match n with
  | 0 => []
  | k + 1 => (Memory.fill k v).write k v

/-- `clear(value)`, 20_memory.md R77; the host's operation before launch. -/
def hostClear (s : State) (v : Byte) : State := { s with mem := Memory.fill s.params.memSize v }

/-- `load(image, entry)`, R50 and R420 step 3: the image byte by byte, then PC <- entry. None is a load failure: an image
byte at or above MEM_SIZE. -/
def hostLoad (s : State) (image : List (Nat × Byte)) (entry : Long) : Option State :=
  match image with
  | [] => some (s.setPc entry)
  | (a, v) :: rest =>
    if a < s.params.memSize then hostLoad { s with mem := s.mem.write a v } rest entry else none

end Sys2Proof.Machine
end

