-- ==== Sys2Proof/Machine/Operands.lean ====
section
/-! DEFINITION. The effective-address resolver (41_effective_address.md): the twelve forms, reading and writing a
location, the control address of JMP, and the quick value of ADDQ (30_encoding.md R109). -/

namespace Sys2Proof.Machine

/-- `Loc`, 41_effective_address.md R180. -/
inductive Loc where
  | dreg (i : Reg)
  | areg (i : Reg)
  | mem (addr : Long)
  | imm (v : Long)
deriving DecidableEq, Repr

/-- What an effective address is used for, R180: `jump` for JMP, `data` for every other instruction. -/
inductive Use where
  | data
  | jump
deriving DecidableEq, Repr

/-- `Index(w)`, R189. -/
def indexValue (s : State) (x : Brief) : Long :=
  let xi := if x.isAddr then s.areg x.xreg else s.dreg x.xreg
  if x.isLong then xi else sextWord (xi.extractLsb' 0 16)

/-- `Resolve(mode, reg, sz, use)`, R182-R194: the location, and the state after the extension words are consumed and a
base register is stepped. The step of mode 3 is made here, "at resolution" (R202), and not after the access: no access
reads the register (log 15). After `nextExt` PC is the address of the extension word, the base of modes 7/2 and 7/3. -/
def resolve (ea : EA) (sz : Size) (use : Use) (s : State) : Except Stop (Loc × State) :=
  match ea with
  | .dn r => .ok (.dreg r, s)
  | .an r => .ok (.areg r, s)
  | .ind r => .ok (.mem (s.areg r), s)
  | .postinc r => .ok (.mem (s.areg r), s.writeA r .l (s.areg r + BitVec.ofNat 32 sz.bytes))
  | .predec r =>
    .ok (.mem (s.areg r - BitVec.ofNat 32 sz.bytes), s.writeA r .l (s.areg r - BitVec.ofNat 32 sz.bytes))
  | .disp r d16 => do
    let s ← nextExt s
    return (.mem (s.areg r + sextWord d16), s)
  | .index r x => do
    let s ← nextExt s
    return (.mem (s.areg r + sextByte x.d8 + indexValue s x), s)
  | .absW a => do
    let s ← nextExt s
    return (.mem (if use = .jump then sextWord a else zextWord a), s)
  | .absL a => do
    let s ← nextExt32 s
    return (.mem a, s)
  | .pcDisp d16 => do
    let s ← nextExt s
    return (.mem (s.pc + sextWord d16), s)
  | .pcIndex x => do
    let s ← nextExt s
    return (.mem (s.pc + sextByte x.d8 + indexValue s x), s)
  | .imm v => do
    let s ← if sz = .l then nextExt32 s else nextExt s
    return (.imm v, s)

/-- `ReadOp(loc, sz)`, R197, R34. -/
def readOp (loc : Loc) (sz : Size) (s : State) : Except Stop Long :=
  match loc with
  | .dreg i => .ok (atWidth sz (s.dreg i))
  | .areg i => .ok (atWidth sz (s.areg i))
  | .mem a => memRead s a sz
  | .imm v => .ok (atWidth sz v)

/-- `WriteOp(loc, sz, v)`, R198. No legal set has 7/4 as a destination; the unreachable arm answers with the fault of an
illegal destination (log 21). -/
def writeOp (loc : Loc) (sz : Size) (v : Long) (s : State) : Except Stop State :=
  match loc with
  | .dreg i => .ok (s.writeD i sz v)
  | .areg i => .ok (s.writeA i sz v)
  | .mem a => memWrite s a sz v
  | .imm _ => .error (.raise .illegalAddressingMode)

/-- The source operand of an instruction: resolved once (R196), then read. -/
def fetchOperand (ea : EA) (sz : Size) (s : State) : Except Stop (Long × State) := do
  let (loc, s) ← resolve ea sz .data s
  return (← readOp loc sz s, s)

/-- `ControlAddr(mode, reg)`, R199: the address of a control form. The other forms are outside JMP's legal set (log 21). -/
def controlAddr (ea : EA) (s : State) : Except Stop (Long × State) := do
  match ← resolve ea .l .jump s with
  | (.mem a, s) => return (a, s)
  | _ => throw (.raise .illegalAddressingMode)

/-- The source of a word-width instruction that acts on a whole address register: sign-extended to 32 bits (10_state.md
R33, 43_arithmetic.md R266, R290, 44_move.md R305). -/
def addrSource (sz : Size) (v : Long) : Long :=
  match sz with
  | .l => v
  | _ => sextWord (v.extractLsb' 0 16)

/-- The value of ADDQ's data field, 0 means 8, 30_encoding.md R109. -/
def quickValue (q : BitVec 3) : Long := if q = 0 then 8 else q.setWidth 32

end Sys2Proof.Machine
end

