-- ==== Sys2Proof/Machine/Flags.lean ====
section
/-! DEFINITION. The ALU and the condition-code engine (42_alu.md): the flags of SR, add, compare, clear and move test,
the flag write, and the sixteen predicates. -/

namespace Sys2Proof.Machine

/-! ### The bits of SR, 10_state.md R37, R38 -/

def State.flagC (s : State) : Bool := s.sr.getLsbD 0
def State.flagV (s : State) : Bool := s.sr.getLsbD 1
def State.flagZ (s : State) : Bool := s.sr.getLsbD 2
def State.flagN (s : State) : Bool := s.sr.getLsbD 3
def State.flagX (s : State) : Bool := s.sr.getLsbD 4

/-- The interrupt priority mask SR[10:8]; nothing reads it, R41. -/
def State.intMask (s : State) : BitVec 3 := s.sr.extractLsb' 8 3

/-- The Supervisor bit SR[13], R42. -/
def State.supervisor (s : State) : Bool := s.sr.getLsbD 13

/-- The Trace bit SR[15]; it has no effect, R43. -/
def State.trace (s : State) : Bool := s.sr.getLsbD 15

/-- The flag vector of an ALU operation, 42_alu.md R221: X is a new value or unchanged; the operations of R228-R236 all
give N, Z, V and C new values. -/
structure Flags where
  x : Option Bool
  n : Bool
  z : Bool
  v : Bool
  c : Bool
deriving DecidableEq, Repr

/-- `SetFlags`, R237: only the flags with a new value are written, SR[15:5] is unchanged. -/
def State.setFlags (s : State) (f : Flags) : State :=
  { s with
    sr := s.sr.extractLsb' 5 11 ++ BitVec.ofBool (f.x.getD s.flagX) ++ BitVec.ofBool f.n ++ BitVec.ofBool f.z ++
      BitVec.ofBool f.v ++ BitVec.ofBool f.c }

/-! ### The operations -/

/-- `AddOp(S, D, sz)`, R222-R228. The carry is the source's own rule, R226 (90_conflicts.md C1). -/
def addOp (sz : Size) (src dst : Long) : Long × Flags :=
  let r := atWidth sz (src + dst)
  let sm := msbAt sz src
  let dm := msbAt sz dst
  let rm := msbAt sz r
  let c := dm && !rm
  (r, { x := some c, n := rm, z := r == 0, v := sm == dm && rm != dm, c := c })

/-- `CmpOp(S, D, sz)`, R229-R233: the flags of D - S, X unchanged. -/
def cmpOp (sz : Size) (src dst : Long) : Flags :=
  let r := atWidth sz (dst - src)
  let sm := msbAt sz src
  let dm := msbAt sz dst
  let rm := msbAt sz r
  { x := none, n := rm, z := r == 0, v := sm != dm && rm != dm, c := (sm && !dm) || (rm && !dm) || (sm && rm) }

/-- `AddrAdd(S32, A32)`, R234. -/
def addrAdd (src a : Long) : Long := src + a

/-- `ClearOp(sz)`, R235; the result is 0. -/
def clearFlags : Flags := { x := none, n := false, z := true, v := false, c := false }

/-- `MoveTest(v, sz)`, R236. -/
def moveTest (sz : Size) (v : Long) : Flags :=
  { x := none, n := msbAt sz v, z := atWidth sz v == 0, v := false, c := false }

/-- The predicate unit, R239, R240, over the flags of SR at the start of the instruction. -/
def condHolds (s : State) (cond : Cond) : Bool :=
  match cond with
  | .t => true
  | .f => false
  | .hi => !s.flagC && !s.flagZ
  | .ls => s.flagC || s.flagZ
  | .cc => !s.flagC
  | .cs => s.flagC
  | .ne => !s.flagZ
  | .eq => s.flagZ
  | .vc => !s.flagV
  | .vs => s.flagV
  | .pl => !s.flagN
  | .mi => s.flagN
  | .ge => s.flagN == s.flagV
  | .lt => s.flagN != s.flagV
  | .gt => !s.flagZ && (s.flagN == s.flagV)
  | .le => s.flagZ || (s.flagN != s.flagV)

end Sys2Proof.Machine
end

