-- ==== Sys2Proof/Machine/Add.lean ====
section
/-! DEFINITION. ADD, ADDA, ADDI and ADDQ (43_arithmetic.md R260-R276). -/

namespace Sys2Proof.Machine

/-- ADD.sz <ea>,Dn, R261. -/
def addEaDn (sz : Size) (src : EA) (dn : Reg) (s : State) : Except Stop State := do
  let (v, s) ← fetchOperand src sz s
  let (r, f) := addOp sz v (atWidth sz (s.dreg dn))
  return (s.writeD dn sz r).setFlags f

/-- The read-modify-write of ADD Dn,<ea>, ADDI and ADDQ: the destination resolved once (R196), read, added to, written. -/
def addToOperand (sz : Size) (src : State → Long) (dst : EA) (s : State) : Except Stop State := do
  let (loc, s) ← resolve dst sz .data s
  let d ← readOp loc sz s
  let (r, f) := addOp sz (src s) d
  return (← writeOp loc sz r s).setFlags f

/-- ADD.sz Dn,<ea>, R262. -/
def addDnEa (sz : Size) (dn : Reg) (dst : EA) (s : State) : Except Stop State :=
  addToOperand sz (fun t => atWidth sz (t.dreg dn)) dst s

/-- ADDA.sz <ea>,An, R266: no flag changes (R267). -/
def adda (sz : Size) (src : EA) (an : Reg) (s : State) : Except Stop State := do
  let (v, s) ← fetchOperand src sz s
  return s.writeA an .l (addrAdd (addrSource sz v) (s.areg an))

/-- ADDI.sz #imm,<ea>, R270: the immediate words come first. -/
def addi (sz : Size) (imm : Long) (dst : EA) (s : State) : Except Stop State := do
  let s ← if sz = .l then nextExt32 s else nextExt s
  addToOperand sz (fun _ => imm) dst s

/-- ADDQ.sz #q,<ea>, R275, and #q,An, R276. -/
def addq (sz : Size) (q : BitVec 3) (dst : EA) (s : State) : Except Stop State :=
  match dst with
  | .an r => .ok (s.writeA r .l (addrAdd (quickValue q) (s.areg r)))
  | _ => addToOperand sz (fun _ => quickValue q) dst s

def execAddEaDnB (src : EA) (dn : Reg) (s : State) : Host.Outcome State Fault Refusal :=
  runCycle (.addEaDnB src dn) s (addEaDn .b src dn)
def execAddEaDnW (src : EA) (dn : Reg) (s : State) : Host.Outcome State Fault Refusal :=
  runCycle (.addEaDnW src dn) s (addEaDn .w src dn)
def execAddEaDnL (src : EA) (dn : Reg) (s : State) : Host.Outcome State Fault Refusal :=
  runCycle (.addEaDnL src dn) s (addEaDn .l src dn)
def execAddDnEaB (dn : Reg) (dst : EA) (s : State) : Host.Outcome State Fault Refusal :=
  runCycle (.addDnEaB dn dst) s (addDnEa .b dn dst)
def execAddDnEaW (dn : Reg) (dst : EA) (s : State) : Host.Outcome State Fault Refusal :=
  runCycle (.addDnEaW dn dst) s (addDnEa .w dn dst)
def execAddDnEaL (dn : Reg) (dst : EA) (s : State) : Host.Outcome State Fault Refusal :=
  runCycle (.addDnEaL dn dst) s (addDnEa .l dn dst)
def execAddaW (src : EA) (an : Reg) (s : State) : Host.Outcome State Fault Refusal :=
  runCycle (.addaW src an) s (adda .w src an)
def execAddaL (src : EA) (an : Reg) (s : State) : Host.Outcome State Fault Refusal :=
  runCycle (.addaL src an) s (adda .l src an)
def execAddiB (imm : Byte) (dst : EA) (s : State) : Host.Outcome State Fault Refusal :=
  runCycle (.addiB imm dst) s (addi .b (zextByte imm) dst)
def execAddiW (imm : Word) (dst : EA) (s : State) : Host.Outcome State Fault Refusal :=
  runCycle (.addiW imm dst) s (addi .w (zextWord imm) dst)
def execAddiL (imm : Long) (dst : EA) (s : State) : Host.Outcome State Fault Refusal :=
  runCycle (.addiL imm dst) s (addi .l imm dst)
def execAddqB (q : BitVec 3) (dst : EA) (s : State) : Host.Outcome State Fault Refusal :=
  runCycle (.addqB q dst) s (addq .b q dst)
def execAddqW (q : BitVec 3) (dst : EA) (s : State) : Host.Outcome State Fault Refusal :=
  runCycle (.addqW q dst) s (addq .w q dst)
def execAddqL (q : BitVec 3) (dst : EA) (s : State) : Host.Outcome State Fault Refusal :=
  runCycle (.addqL q dst) s (addq .l q dst)

end Sys2Proof.Machine
end

