-- ==== Sys2Proof/Machine/Compare.lean ====
section
/-! DEFINITION. CMP and CMPA (43_arithmetic.md R280, R290). -/

namespace Sys2Proof.Machine

/-- CMP.sz <ea>,Dn, R280: the flags of Dn - <ea>. -/
def cmp (sz : Size) (src : EA) (dn : Reg) (s : State) : Except Stop State := do
  let (v, s) ← fetchOperand src sz s
  return s.setFlags (cmpOp sz v (atWidth sz (s.dreg dn)))

/-- CMPA.sz <ea>,An, R290: always a 32-bit compare. -/
def cmpa (sz : Size) (src : EA) (an : Reg) (s : State) : Except Stop State := do
  let (v, s) ← fetchOperand src sz s
  return s.setFlags (cmpOp .l (addrSource sz v) (s.areg an))

def execCmpB (src : EA) (dn : Reg) (s : State) : Host.Outcome State Fault Refusal :=
  runCycle (.cmpB src dn) s (cmp .b src dn)
def execCmpW (src : EA) (dn : Reg) (s : State) : Host.Outcome State Fault Refusal :=
  runCycle (.cmpW src dn) s (cmp .w src dn)
def execCmpL (src : EA) (dn : Reg) (s : State) : Host.Outcome State Fault Refusal :=
  runCycle (.cmpL src dn) s (cmp .l src dn)
def execCmpaW (src : EA) (an : Reg) (s : State) : Host.Outcome State Fault Refusal :=
  runCycle (.cmpaW src an) s (cmpa .w src an)
def execCmpaL (src : EA) (an : Reg) (s : State) : Host.Outcome State Fault Refusal :=
  runCycle (.cmpaL src an) s (cmpa .l src an)

end Sys2Proof.Machine
end

