-- ==== Sys2Proof/Machine/Control.lean ====
section
/-! DEFINITION. JMP, BRA, Bcc, BSR and RTS (45_control_flow.md). PC holds the address of the last consumed word of the
instruction; every transfer writes its target minus 2 (40_sequencer.md R158). -/

namespace Sys2Proof.Machine

/-- `BranchTarget()`, 45_control_flow.md R320, with the state after the displacement word is consumed. -/
def branchTarget (d : Disp) (s : State) : Except Stop (Long × State) :=
  match d with
  | .short d8 => .ok (s.pc + 2 + sextByte d8, s)
  | .word d16 => do
    let t ← nextExt s
    return (s.pc + 2 + sextWord d16, t)

/-- JMP <ea>, R325: no memory access at the target. -/
def jump (ea : EA) (s : State) : Except Stop State := do
  let (t, s) ← controlAddr ea s
  return s.setTarget t

/-- BRA, R330, and Bcc, R331: the displacement word is consumed whether or not the branch is taken. -/
def branch (cond : Cond) (d : Disp) (s : State) : Except Stop State := do
  let taken := condHolds s cond
  let (t, s) ← branchTarget d s
  return if taken then s.setTarget t else s

/-- BSR, R335: pushes PC[15:0], the return address minus 2. -/
def branchSub (d : Disp) (s : State) : Except Stop State := do
  let (t, s) ← branchTarget d s
  let p := s.pc
  let sp := s.areg spNum - 2
  let s ← memWrite (s.writeA spNum .l sp) sp .w p
  return s.setTarget t

/-- RTS, R340: the popped word is zero-extended and 2 is added. -/
def returnSub (s : State) : Except Stop State := do
  let w ← memRead s (s.areg spNum) .w
  return (s.writeA spNum .l (s.areg spNum + 2)).setTarget (w + 2)

def execJmp (ea : EA) (s : State) : Host.Outcome State Fault Refusal :=
  runCycle (.jmp ea) s (jump ea)
def execBra (d : Disp) (s : State) : Host.Outcome State Fault Refusal :=
  runCycle (.bra d) s (branch .t d)
def execBsr (d : Disp) (s : State) : Host.Outcome State Fault Refusal :=
  runCycle (.bsr d) s (branchSub d)
def execRts (s : State) : Host.Outcome State Fault Refusal :=
  runCycle .rts s returnSub
def execBhi (d : Disp) (s : State) : Host.Outcome State Fault Refusal :=
  runCycle (.bhi d) s (branch .hi d)
def execBls (d : Disp) (s : State) : Host.Outcome State Fault Refusal :=
  runCycle (.bls d) s (branch .ls d)
def execBcc (d : Disp) (s : State) : Host.Outcome State Fault Refusal :=
  runCycle (.bcc d) s (branch .cc d)
def execBcs (d : Disp) (s : State) : Host.Outcome State Fault Refusal :=
  runCycle (.bcs d) s (branch .cs d)
def execBne (d : Disp) (s : State) : Host.Outcome State Fault Refusal :=
  runCycle (.bne d) s (branch .ne d)
def execBeq (d : Disp) (s : State) : Host.Outcome State Fault Refusal :=
  runCycle (.beq d) s (branch .eq d)
def execBvc (d : Disp) (s : State) : Host.Outcome State Fault Refusal :=
  runCycle (.bvc d) s (branch .vc d)
def execBvs (d : Disp) (s : State) : Host.Outcome State Fault Refusal :=
  runCycle (.bvs d) s (branch .vs d)
def execBpl (d : Disp) (s : State) : Host.Outcome State Fault Refusal :=
  runCycle (.bpl d) s (branch .pl d)
def execBmi (d : Disp) (s : State) : Host.Outcome State Fault Refusal :=
  runCycle (.bmi d) s (branch .mi d)
def execBge (d : Disp) (s : State) : Host.Outcome State Fault Refusal :=
  runCycle (.bge d) s (branch .ge d)
def execBlt (d : Disp) (s : State) : Host.Outcome State Fault Refusal :=
  runCycle (.blt d) s (branch .lt d)
def execBgt (d : Disp) (s : State) : Host.Outcome State Fault Refusal :=
  runCycle (.bgt d) s (branch .gt d)
def execBle (d : Disp) (s : State) : Host.Outcome State Fault Refusal :=
  runCycle (.ble d) s (branch .le d)

end Sys2Proof.Machine
end

