-- ==== Sys2Proof/Machine/Move.lean ====
section
/-! DEFINITION. MOVE and MOVEA (44_move.md R300-R305) and CLR (43_arithmetic.md R295). -/

namespace Sys2Proof.Machine

/-- MOVE.sz <ea>,<ea>, 44_move.md R300: the source is read before any part of the destination is resolved (R301). -/
def move (sz : Size) (src dst : EA) (s : State) : Except Stop State := do
  let (v, s) ← fetchOperand src sz s
  let (loc, s) ← resolve dst sz .data s
  return (← writeOp loc sz v s).setFlags (moveTest sz v)

/-- MOVEA.sz <ea>,An, R305: no flag changes. -/
def movea (sz : Size) (src : EA) (an : Reg) (s : State) : Except Stop State := do
  let (v, s) ← fetchOperand src sz s
  return s.writeA an .l (addrSource sz v)

/-- CLR.sz <ea>, 43_arithmetic.md R295: the old value is not read. -/
def clr (sz : Size) (dst : EA) (s : State) : Except Stop State := do
  let (loc, s) ← resolve dst sz .data s
  return (← writeOp loc sz 0 s).setFlags clearFlags

def execMoveB (src dst : EA) (s : State) : Host.Outcome State Fault Refusal :=
  runCycle (.moveB src dst) s (move .b src dst)
def execMoveW (src dst : EA) (s : State) : Host.Outcome State Fault Refusal :=
  runCycle (.moveW src dst) s (move .w src dst)
def execMoveL (src dst : EA) (s : State) : Host.Outcome State Fault Refusal :=
  runCycle (.moveL src dst) s (move .l src dst)
def execMoveaW (src : EA) (an : Reg) (s : State) : Host.Outcome State Fault Refusal :=
  runCycle (.moveaW src an) s (movea .w src an)
def execMoveaL (src : EA) (an : Reg) (s : State) : Host.Outcome State Fault Refusal :=
  runCycle (.moveaL src an) s (movea .l src an)
def execClrB (dst : EA) (s : State) : Host.Outcome State Fault Refusal :=
  runCycle (.clrB dst) s (clr .b dst)
def execClrW (dst : EA) (s : State) : Host.Outcome State Fault Refusal :=
  runCycle (.clrW dst) s (clr .w dst)
def execClrL (dst : EA) (s : State) : Host.Outcome State Fault Refusal :=
  runCycle (.clrL dst) s (clr .l dst)

end Sys2Proof.Machine
end

