-- ==== Sys2Proof/Machine/System.lean ====
section
/-! DEFINITION. TRAP #15 with its services (46_trap_stop.md R350-R358) and STOP (R360). -/

namespace Sys2Proof.Machine

/-! ### The texts of the output tasks -/

/-- CR LF, R351. -/
def crlfBytes : List Byte := [0x0D, 0x0A]

/-- The bytes at a, a+1, ..., n of them, each its own read (R358). With n = 0 no byte is read, so that the task cannot
fault, even where a > MEM_SIZE meets the letter of R358's condition A1 + L > MEM_SIZE (DEDUCED, log 24). -/
def readCounted (s : State) (a : Long) : Nat → Except Stop (List Byte)
  | 0 => .ok []
  | n + 1 => do
    let v ← memRead s a .b
    let rest ← readCounted s (a + 1) n
    return v.extractLsb' 0 8 :: rest

/-- `Z(a)`, R352: the bytes from a up to the first 0x00. `fuel` bounds the number of reads; with 2^32 of them every
address has been read, so that running out means that the scan never ends (log 17). -/
def readTerminated (s : State) (a : Long) : Nat → Except Stop (List Byte)
  | 0 => .error (.stuck .stringNeverEnds)
  | fuel + 1 => do
    let v ← memRead s a .b
    if v.extractLsb' 0 8 = (0 : Byte) then return []
    let rest ← readTerminated s (a + 1) fuel
    return v.extractLsb' 0 8 :: rest

/-- The ASCII digit of a number below 10. -/
def digitByte (n : Nat) : Byte := BitVec.ofNat 8 (0x30 + n)

/-- The decimal digits of a number below 10^fuel, no leading zeros. -/
def decimalNat : Nat → Nat → List Byte
  | 0, _ => []
  | fuel + 1, n => if n < 10 then [digitByte n] else decimalNat fuel (n / 10) ++ [digitByte (n % 10)]

/-- `Dec(v)`, R352: signed decimal text; a 32-bit integer has at most ten digits. -/
def decimalText (v : Long) : List Byte :=
  if v.toInt < 0 then 0x2D :: decimalNat 10 v.toInt.natAbs else decimalNat 10 v.toInt.natAbs

/-- `++ CR LF` for the formatted tasks, R352. -/
def formatted (crlf : Bool) (text : List Byte) : List Byte := if crlf then text ++ crlfBytes else text

/-! ### The services -/

/-- `Out(bytes)`, after every byte has been read (R355). -/
def outText (s : State) (bytes : List Byte) : State := s.request (.out bytes)

/-- Task 0 or 1: the D1[15:0] bytes at A1. -/
def serviceOutCounted (crlf : Bool) (s : State) : Except Stop State := do
  let text ← readCounted s (s.areg 1) ((s.dreg 1).extractLsb' 0 16).toNat
  return outText s (formatted crlf text)

/-- Task 13 or 14: the bytes at A1 up to a NUL. -/
def serviceOutTerminated (crlf : Bool) (s : State) : Except Stop State := do
  let text ← readTerminated s (s.areg 1) 4294967296
  return outText s (formatted crlf text)

/-- Task 4: D1 <- InNumber(). -/
def serviceInNumber (s : State) : Except Stop State :=
  match s.host.askNumber with
  | some (v, h) => .ok (({ s with host := h } : State).writeD 1 .l v)
  | none => .error (.stuck (.hostNeverAnswers .inNumber))

/-- Task 5: D1[7:0] <- InChar(). -/
def serviceInChar (s : State) : Except Stop State :=
  match s.host.askChar with
  | some (v, h) => .ok (({ s with host := h } : State).writeD 1 .b (zextByte v))
  | none => .error (.stuck (.hostNeverAnswers .inChar))

/-- Task 7: D1[7:0] <- Pending() ? 0x01 : 0x00. -/
def serviceInPending (s : State) : Except Stop State :=
  match s.host.askPending with
  | some (v, h) => .ok (({ s with host := h } : State).writeD 1 .b (if v then 1 else 0))
  | none => .error (.stuck (.hostNeverAnswers .pending))

/-- Task 11: clear screen for D1[15:0] = 0xFF00, else cursor. -/
def serviceCursor (s : State) : State :=
  if (s.dreg 1).extractLsb' 0 16 = 0xFF00#16 then s.request .clearScreen
  else s.request (.cursor ((s.dreg 1).extractLsb' 8 8) ((s.dreg 1).extractLsb' 0 8))

/-- `Service(t)`, R352-R358, with the halt it requests. -/
def service (svc : TrapService) (s : State) : Except Stop (State × Option HaltCause) :=
  match svc with
  | .outCounted crlf => (serviceOutCounted crlf s).map fun t => (t, none)
  | .outDecimal => .ok (outText s (decimalText (s.dreg 1)), none)
  | .inNumber => (serviceInNumber s).map fun t => (t, none)
  | .inChar => (serviceInChar s).map fun t => (t, none)
  | .outChar => .ok (outText s [(s.dreg 1).extractLsb' 0 8], none)
  | .inPending => (serviceInPending s).map fun t => (t, none)
  | .terminate => .ok (s, some .termination)
  | .cursor => .ok (serviceCursor s, none)
  | .echo => .ok (s.request (.echo ((s.dreg 1).extractLsb' 0 8 != 0#8)), none)
  | .outTerminated crlf => (serviceOutTerminated crlf s).map fun t => (t, none)

/-- TRAP #15, R350: the task D0[7:0] of TRAP15_TASKS, or a Notice for an unknown one (R354). -/
def trap15 (s : State) : Except Stop (State × Option HaltCause) :=
  let task := (s.dreg 0).extractLsb' 0 8
  match s.params.trap15Tasks.lookup task with
  | some svc => service svc s
  | none => .ok (s.request (.notice task), none)

/-- STOP #k, R360: the privilege check comes before the extension word is consumed. -/
def stop (k : Word) (s : State) : Except Stop (State × Option HaltCause) :=
  if s.supervisor then do
    let s ← nextExt s
    return ({ s with sr := k &&& srMask }, some .stop)
  else .error (.raise .privilegeViolation)

def execTrap15 (s : State) : Host.Outcome State Fault Refusal :=
  endCycle (opcodeWord .trap15) s (trap15 s)
def execStop (k : Word) (s : State) : Host.Outcome State Fault Refusal :=
  endCycle (opcodeWord (.stop k)) s (stop k s)

end Sys2Proof.Machine
end

