-- ==== Sys2Proof/Machine/Dispatch.lean ====
section
/-! DEFINITION. The execute phase (40_sequencer.md R153): one arm per instruction. -/

namespace Sys2Proof.Machine

/-- The cycle of an instruction from the state at its start, PC = IA. -/
def exec (i : Instr) (s : State) : Host.Outcome State Fault Refusal :=
  match i with
  | .moveaL src an => Sys2Proof.Machine.execMoveaL src an s
  | .moveaW src an => Sys2Proof.Machine.execMoveaW src an s
  | .moveB src dst => Sys2Proof.Machine.execMoveB src dst s
  | .moveL src dst => Sys2Proof.Machine.execMoveL src dst s
  | .moveW src dst => Sys2Proof.Machine.execMoveW src dst s
  | .addiB imm dst => Sys2Proof.Machine.execAddiB imm dst s
  | .addiW imm dst => Sys2Proof.Machine.execAddiW imm dst s
  | .addiL imm dst => Sys2Proof.Machine.execAddiL imm dst s
  | .clrB dst => Sys2Proof.Machine.execClrB dst s
  | .clrW dst => Sys2Proof.Machine.execClrW dst s
  | .clrL dst => Sys2Proof.Machine.execClrL dst s
  | .rts => Sys2Proof.Machine.execRts s
  | .stop k => Sys2Proof.Machine.execStop k s
  | .trap15 => Sys2Proof.Machine.execTrap15 s
  | .jmp ea => Sys2Proof.Machine.execJmp ea s
  | .addqB q dst => Sys2Proof.Machine.execAddqB q dst s
  | .addqW q dst => Sys2Proof.Machine.execAddqW q dst s
  | .addqL q dst => Sys2Proof.Machine.execAddqL q dst s
  | .bra d => Sys2Proof.Machine.execBra d s
  | .bsr d => Sys2Proof.Machine.execBsr d s
  | .bhi d => Sys2Proof.Machine.execBhi d s
  | .bls d => Sys2Proof.Machine.execBls d s
  | .bcc d => Sys2Proof.Machine.execBcc d s
  | .bcs d => Sys2Proof.Machine.execBcs d s
  | .bne d => Sys2Proof.Machine.execBne d s
  | .beq d => Sys2Proof.Machine.execBeq d s
  | .bvc d => Sys2Proof.Machine.execBvc d s
  | .bvs d => Sys2Proof.Machine.execBvs d s
  | .bpl d => Sys2Proof.Machine.execBpl d s
  | .bmi d => Sys2Proof.Machine.execBmi d s
  | .bge d => Sys2Proof.Machine.execBge d s
  | .blt d => Sys2Proof.Machine.execBlt d s
  | .bgt d => Sys2Proof.Machine.execBgt d s
  | .ble d => Sys2Proof.Machine.execBle d s
  | .cmpB src dn => Sys2Proof.Machine.execCmpB src dn s
  | .cmpW src dn => Sys2Proof.Machine.execCmpW src dn s
  | .cmpL src dn => Sys2Proof.Machine.execCmpL src dn s
  | .cmpaW src an => Sys2Proof.Machine.execCmpaW src an s
  | .cmpaL src an => Sys2Proof.Machine.execCmpaL src an s
  | .addEaDnB src dn => Sys2Proof.Machine.execAddEaDnB src dn s
  | .addEaDnW src dn => Sys2Proof.Machine.execAddEaDnW src dn s
  | .addEaDnL src dn => Sys2Proof.Machine.execAddEaDnL src dn s
  | .addDnEaB dn dst => Sys2Proof.Machine.execAddDnEaB dn dst s
  | .addDnEaW dn dst => Sys2Proof.Machine.execAddDnEaW dn dst s
  | .addDnEaL dn dst => Sys2Proof.Machine.execAddDnEaL dn dst s
  | .addaW src an => Sys2Proof.Machine.execAddaW src an s
  | .addaL src an => Sys2Proof.Machine.execAddaL src an s

end Sys2Proof.Machine
end

