-- ==== Sys2Proof/Machine/Sequencer.lean ====
section
/-! DEFINITION. The phases of a cycle of a Running core (40_sequencer.md R151-R153), and the loader's write of an
instruction's bytes. -/

namespace Sys2Proof.Machine

/-- The fault of a rejected opcode word, 30_encoding.md R116-R120. -/
def opcodeFault : OpcodeError → FaultCause
  | .illegalInstruction => .illegalInstruction
  | .illegalAddressingMode => .illegalAddressingMode

/-- The fetch, decode and execute phases, R151-R153; the advance phase is the end of `exec`. -/
def cycle (s : State) : Host.Outcome State Fault Refusal :=
  match fetchOpcode s with
  | .error (.raise cause) => .next (takeFault s cause none)
  | .error (.stuck why) => .fault why
  | .ok ir =>
    match decodeInstr ir (extWordsAt s) with
    | .error e => .next (takeFault s (opcodeFault e) (some ir))
    | .ok i => exec i s

/-- The bytes from an address on replaced, without a bounds check: the loader's write. -/
def placeBytes (m : Memory) (a : Long) : List Byte → Memory
  | [] => m
  | b :: rest => placeBytes (m.write a.toNat b) (a + 1) rest

end Sys2Proof.Machine
end

