-- ==== Sys2Proof/Machine/Step.lean ====
section
/-! DEFINITION. One step of the machine (40_sequencer.md R150), and placing an instruction where it is fetched. -/

namespace Sys2Proof.Machine

/-- `step()`: one cycle when RUN = Running; otherwise nothing changes, R150 (log 12). -/
def step (s : State) : Host.Outcome State Fault Refusal :=
  match s.run with
  | .running => cycle s
  | .halted _ => .next s
  | .faulted _ => .next s

/-- `s`, Running, with the instruction whose bits are `w` (numbered as spec/opcode_table.json numbers them) stored at
PC, where the next step fetches it (log 18). -/
def State.withFetchWord (s : State) (nbits w : Nat) : State :=
  { s with run := .running, mem := placeBytes s.mem s.pc (bytesOfWords (tableWords nbits w)) }

end Sys2Proof.Machine
end

