-- ==== Sys2Proof/Safety.lean ====
section
/-! DEFINITION. The terms claims are stated in: when an access succeeds, where an operand is and what it holds as
functions of the state at the start of a cycle, what a cycle may change, the instructions of a family by width, and the
invariant of a run. Nothing of the machine uses this file. -/

namespace Sys2Proof

/-- The number of extension words of a form, 30_encoding.md R104. -/
def EA.words (ea : EA) (sz : Size) : Nat := (ea.extWords sz).length

/-- The displacement of a branch, 30_encoding.md R110. -/
def Disp.value : Disp → Long
  | .short d8 => sextByte d8
  | .word d16 => sextWord d16

/-- The number of extension words of a branch displacement. -/
def Disp.words (d : Disp) : Nat := d.extWords.length

/-- The register a form steps, 41_effective_address.md R185, R186. -/
def EA.stepped : EA → Option Reg
  | .postinc r | .predec r => some r
  | _ => none

/-- A form that is no register and no immediate. -/
def EA.isMem : EA → Bool
  | .dn _ | .an _ | .imm _ => false
  | _ => true

end Sys2Proof

namespace Sys2Proof.Machine

/-! ### Accesses and operands, read off the state at the start of a cycle -/

/-- An access of width sz at a succeeds, 20_memory.md R75, R78. -/
abbrev Fits (s : State) (a : Long) (sz : Size) : Prop :=
  ¬(s.params.alignmentFault = true ∧ sz ≠ .b ∧ a.toNat % 2 = 1) ∧ a.toNat + sz.bytes ≤ s.params.memSize

/-- The n extension words after the opcode word can be read, 40_sequencer.md R155. -/
abbrev ExtFits (s : State) (n : Nat) : Prop :=
  ∀ k, k < n → Fits s (s.pc + BitVec.ofNat 32 (2 * (k + 1))) .w

/-- The address of a memory form, 41_effective_address.md R184-R193; PC-relative forms have their extension word at
PC + 2, since it is the first of their instruction. None for registers and immediates. -/
def eaAddr (s : State) (sz : Size) (use : Use) : EA → Option Long
  | .dn _ | .an _ | .imm _ => none
  | .ind r => some (s.areg r)
  | .postinc r => some (s.areg r)
  | .predec r => some (s.areg r - BitVec.ofNat 32 sz.bytes)
  | .disp r d16 => some (s.areg r + sextWord d16)
  | .index r x => some (s.areg r + sextByte x.d8 + indexValue s x)
  | .absW a => some (if use = .jump then sextWord a else zextWord a)
  | .absL a => some a
  | .pcDisp d16 => some (s.pc + 2 + sextWord d16)
  | .pcIndex x => some (s.pc + 2 + sextByte x.d8 + indexValue s x)

/-- The address registers after a form's step, R185, R186. -/
def stepEA (s : State) (sz : Size) : EA → State
  | .postinc r => s.writeA r .l (s.areg r + BitVec.ofNat 32 sz.bytes)
  | .predec r => s.writeA r .l (s.areg r - BitVec.ofNat 32 sz.bytes)
  | _ => s

/-- The value of an operand at width sz, R197. -/
def eaValue (s : State) (sz : Size) (ea : EA) : Long :=
  match ea, eaAddr s sz .data ea with
  | .dn r, _ => atWidth sz (s.dreg r)
  | .an r, _ => atWidth sz (s.areg r)
  | .imm v, _ => v
  | _, some a => s.load a sz
  | _, none => 0

/-- The memory a form reads or writes, if it has any, can be accessed. -/
abbrev EaFits (s : State) (sz : Size) (ea : EA) : Prop :=
  ∀ a ∈ eaAddr s sz .data ea, Fits s a sz

/-! ### Faulting accesses -/

/-- The cause of a failing access, 20_memory.md R75, R78: AddressError is checked before the bounds. -/
def accessFault (s : State) (a : Long) (sz : Size) : FaultCause :=
  if s.params.alignmentFault = true ∧ sz ≠ .b ∧ a.toNat % 2 = 1 then .addressError a sz else .outOfBounds a sz

/-- A fetch at the PC of t, which is a, faults there: FREC.pc is a, FREC.ir is absent, nothing else changes. -/
def FetchFaultsAt (t : State) (a : Long) : Prop :=
  t.pc = a ∧ step t = .next { t with run := .faulted { cause := accessFault t a .w, pc := a, ir := none } }

/-- A memory access: its start address and its width. -/
abbrev Access := Long × Size

/-- The first access of a list that fails. -/
def firstFailing (s : State) (l : List Access) : Option Access := l.find? fun x => decide (¬ Fits s x.1 x.2)

/-- The reads of n extension words after the first m, 40_sequencer.md R155. -/
def extAccesses (s : State) (m n : Nat) : List Access :=
  (List.range' m n).map fun k => (s.pc + BitVec.ofNat 32 (2 * (k + 1)), .w)

/-- The access of a form at its address, 41_effective_address.md R197, R198; none for registers and immediates. -/
def eaAccess (s : State) (sz : Size) (ea : EA) : List Access := ((eaAddr s sz .data ea).map fun a => (a, sz)).toList

/-- The accesses of an operand whose words are the first after the opcode word: its words, then the operand. -/
def operandAccesses (s : State) (sz : Size) (ea : EA) : List Access := extAccesses s 0 (ea.words sz) ++ eaAccess s sz ea

/-- The accesses of MOVE, 44_move.md R300: the source's words, the source, the destination's words, the destination. -/
def moveAccesses (s : State) (sz : Size) (src dst : EA) : List Access :=
  operandAccesses s sz src ++ (extAccesses s (src.words sz) (dst.words sz) ++ eaAccess (stepEA s sz src) sz dst)

/-- The accesses of ADDI, 43_arithmetic.md R270: n words of immediate, the destination's words, the destination. -/
def addiAccesses (s : State) (sz : Size) (n : Nat) (dst : EA) : List Access :=
  extAccesses s 0 n ++ (extAccesses s n (dst.words sz) ++ eaAccess s sz dst)

/-- The accesses an instruction makes after its opcode fetch, in order, 60_exceptions.md R386, R397; an operand that is
read and written is at one address, so that its write cannot fail after its read. STOP's is the one it makes with S = 1;
the text reads of TRAP #15 depend on its task and are not listed. -/
def accesses (s : State) : Instr → List Access
  | .moveaL src _ | .cmpL src _ | .cmpaL src _ | .addEaDnL src _ | .addaL src _ => operandAccesses s .l src
  | .moveaW src _ | .cmpW src _ | .cmpaW src _ | .addEaDnW src _ | .addaW src _ => operandAccesses s .w src
  | .cmpB src _ | .addEaDnB src _ => operandAccesses s .b src
  | .clrB dst | .addqB _ dst | .addDnEaB _ dst => operandAccesses s .b dst
  | .clrW dst | .addqW _ dst | .addDnEaW _ dst => operandAccesses s .w dst
  | .clrL dst | .addqL _ dst | .addDnEaL _ dst => operandAccesses s .l dst
  | .moveB src dst => moveAccesses s .b src dst
  | .moveW src dst => moveAccesses s .w src dst
  | .moveL src dst => moveAccesses s .l src dst
  | .addiB _ dst => addiAccesses s .b 1 dst
  | .addiW _ dst => addiAccesses s .w 1 dst
  | .addiL _ dst => addiAccesses s .l 2 dst
  | .jmp ea => extAccesses s 0 (ea.words .l)
  | .bra d | .bhi d | .bls d | .bcc d | .bcs d | .bne d | .beq d | .bvc d | .bvs d | .bpl d | .bmi d | .bge d | .blt d
  | .bgt d | .ble d => extAccesses s 0 d.words
  | .bsr d => extAccesses s 0 d.words ++ [(s.areg spNum - 2, .w)]
  | .rts => [(s.areg spNum, .w)]
  | .stop _ => extAccesses s 0 1
  | .trap15 => []

/-! ### What a cycle may change -/

/-- Every byte reads as before. -/
def MemSame (s t : State) : Prop := ∀ x : Long, t.byteAt x = s.byteAt x

/-- Every byte outside the n bytes from a reads as before. -/
def MemSameOutside (s t : State) (a : Long) (n : Nat) : Prop :=
  ∀ x : Long, (∀ k, k < n → x ≠ a + BitVec.ofNat 32 k) → t.byteAt x = s.byteAt x

/-- The bytes from a hold the low bytes of v, the most significant first, 20_memory.md R73; every other byte is as
before. -/
def Stored (s t : State) (a : Long) (sz : Size) (v : Long) : Prop :=
  (∀ k, k < sz.bytes → t.byteAt (a + BitVec.ofNat 32 k) = v.extractLsb' (8 * (sz.bytes - 1 - k)) 8) ∧
    MemSameOutside s t a sz.bytes

/-- D[r] has the low n(sz) bits of v and keeps the rest, 10_state.md R32; the other data registers are as before. -/
def DWritten (s t : State) (r : Reg) (sz : Size) (v : Long) : Prop :=
  (t.dreg r).setWidth sz.bits = v.setWidth sz.bits ∧
    (∀ j, sz.bits ≤ j → (t.dreg r).getLsbD j = (s.dreg r).getLsbD j) ∧ ∀ q, q ≠ r → t.dreg q = s.dreg q

/-- A[r] is v, all 32 bits; the other address registers are as before. -/
def AWritten (s t : State) (r : Reg) (v : Long) : Prop :=
  t.areg r = v ∧ ∀ q, q ≠ r → t.areg q = s.areg q

/-- v is written at width sz to the destination, whose address is taken in `u`: a data register, or memory at its
address, and nothing else of the data registers and memory. -/
def DestWritten (s u t : State) (sz : Size) (dst : EA) (v : Long) : Prop :=
  match dst with
  | .dn r => DWritten s t r sz v ∧ MemSame s t
  | _ => t.d = s.d ∧ ∀ a ∈ eaAddr u sz .data dst, Stored s t a sz v

/-- The five flags of SR. -/
def FlagsAre (t : State) (x n z v c : Bool) : Prop :=
  t.flagX = x ∧ t.flagN = n ∧ t.flagZ = z ∧ t.flagV = v ∧ t.flagC = c

/-- SR[15:5] is as before. -/
def SrHighSame (s t : State) : Prop := t.sr.extractLsb' 5 11 = s.sr.extractLsb' 5 11

/-- PC is past an instruction of n words, 40_sequencer.md R157. -/
def PcPast (s t : State) (n : Nat) : Prop := t.pc = s.pc + BitVec.ofNat 32 (2 * n)

/-- RUN, the parameters and the host port are as before. -/
def RestSame (s t : State) : Prop := t.run = s.run ∧ t.params = s.params ∧ t.host = s.host

/-- The flags of an addition of n bits, 42_alu.md R222-R227, on the operands at their own width. -/
def AddFlagsAre (t : State) (sz : Size) (src dst : Long) : Prop :=
  let a : BitVec sz.bits := src.setWidth sz.bits
  let b : BitVec sz.bits := dst.setWidth sz.bits
  FlagsAre t (b.msb && !(a + b).msb) (a + b).msb (a + b == 0) (a.msb == b.msb && (a + b).msb != b.msb)
    (b.msb && !(a + b).msb)

/-- The flags of dst - src at n bits, 42_alu.md R229-R233: V is signed overflow and C the borrow of the unsigned
operands; X as in `s`. -/
def CmpFlagsAre (s t : State) (sz : Size) (src dst : Long) : Prop :=
  let a : BitVec sz.bits := src.setWidth sz.bits
  let b : BitVec sz.bits := dst.setWidth sz.bits
  FlagsAre t s.flagX (b - a).msb (b == a) (decide ((b - a).toInt ≠ b.toInt - a.toInt)) (decide (b.toNat < a.toNat))

/-! ### The instructions of a family by width -/

/-- The legal source set of ADD <ea>,Dn, CMP and MOVE, 30_encoding.md R118. -/
def srcSet : Size → ModeSet
  | .b => .data
  | _ => .all

def addEaDnOf : Size → EA → Reg → Instr
  | .b => .addEaDnB
  | .w => .addEaDnW
  | .l => .addEaDnL

def addDnEaOf : Size → Reg → EA → Instr
  | .b => .addDnEaB
  | .w => .addDnEaW
  | .l => .addDnEaL

/-- ADDI with the immediate given as a long, cut to the width. -/
def addiOf : Size → Long → EA → Instr
  | .b => fun v => .addiB (v.setWidth 8)
  | .w => fun v => .addiW (v.setWidth 16)
  | .l => .addiL

def addqOf : Size → BitVec 3 → EA → Instr
  | .b => .addqB
  | .w => .addqW
  | .l => .addqL

def cmpOf : Size → EA → Reg → Instr
  | .b => .cmpB
  | .w => .cmpW
  | .l => .cmpL

def clrOf : Size → EA → Instr
  | .b => .clrB
  | .w => .clrW
  | .l => .clrL

def moveOf : Size → EA → EA → Instr
  | .b => .moveB
  | .w => .moveW
  | .l => .moveL

/-- The word (false) and long (true) forms of an address-register instruction. -/
def addrSize : Bool → Size
  | false => .w
  | true => .l

def addaOf : Bool → EA → Reg → Instr
  | false => .addaW
  | true => .addaL

def cmpaOf : Bool → EA → Reg → Instr
  | false => .cmpaW
  | true => .cmpaL

def moveaOf : Bool → EA → Reg → Instr
  | false => .moveaW
  | true => .moveaL

/-- The branch of a condition code, 30_encoding.md R111: BRA is code 0, BSR code 1. -/
def branchOf : Cond → Disp → Instr
  | .t => .bra
  | .f => .bsr
  | .hi => .bhi
  | .ls => .bls
  | .cc => .bcc
  | .cs => .bcs
  | .ne => .bne
  | .eq => .beq
  | .vc => .bvc
  | .vs => .bvs
  | .pl => .bpl
  | .mi => .bmi
  | .ge => .bge
  | .lt => .blt
  | .gt => .bgt
  | .le => .ble

/-! ### Registers an instruction names -/

/-- The data register an instruction writes; TRAP #15's input tasks write D1. -/
def destD : Instr → Option Reg
  | .moveB _ (.dn r) | .moveW _ (.dn r) | .moveL _ (.dn r) => some r
  | .addiB _ (.dn r) | .addiW _ (.dn r) | .addiL _ (.dn r) => some r
  | .clrB (.dn r) | .clrW (.dn r) | .clrL (.dn r) => some r
  | .addqB _ (.dn r) | .addqW _ (.dn r) | .addqL _ (.dn r) => some r
  | .addEaDnB _ r | .addEaDnW _ r | .addEaDnL _ r => some r
  | .trap15 => some 1
  | _ => none

/-- The operands of an instruction. -/
def operandsOf : Instr → List EA
  | .moveaL src _ | .moveaW src _ => [src]
  | .moveB src dst | .moveL src dst | .moveW src dst => [src, dst]
  | .addiB _ dst | .addiW _ dst | .addiL _ dst => [dst]
  | .clrB dst | .clrW dst | .clrL dst => [dst]
  | .jmp ea => [ea]
  | .addqB _ dst | .addqW _ dst | .addqL _ dst => [dst]
  | .cmpB src _ | .cmpW src _ | .cmpL src _ | .cmpaW src _ | .cmpaL src _ => [src]
  | .addEaDnB src _ | .addEaDnW src _ | .addEaDnL src _ => [src]
  | .addDnEaB _ dst | .addDnEaW _ dst | .addDnEaL _ dst => [dst]
  | .addaW src _ | .addaL src _ => [src]
  | _ => []

/-- The address register an instruction writes itself: An of MOVEA, ADDA and ADDQ, A7 of BSR and RTS. -/
def destA : Instr → Option Reg
  | .moveaL _ an | .moveaW _ an | .addaW _ an | .addaL _ an => some an
  | .addqW _ (.an r) | .addqL _ (.an r) => some r
  | .bsr _ | .rts => some spNum
  | _ => none

/-- The instructions of the rows "-" of 10_state.md R39: no flag is written. -/
def writesNoFlag : Instr → Bool
  | .moveaL _ _ | .moveaW _ _ | .addaW _ _ | .addaL _ _ | .addqW _ (.an _) | .addqL _ (.an _) => true
  | .jmp _ | .rts | .trap15 | .bra _ | .bsr _ => true
  | .bhi _ | .bls _ | .bcc _ | .bcs _ | .bne _ | .beq _ | .bvc _ | .bvs _ | .bpl _ | .bmi _ | .bge _ | .blt _ | .bgt _
  | .ble _ => true
  | _ => false

/-- The instructions that leave X unchanged but write the other flags, 10_state.md R39. -/
def keepsX : Instr → Bool
  | .moveB _ _ | .moveW _ _ | .moveL _ _ | .clrB _ | .clrW _ | .clrL _ => true
  | .cmpB _ _ | .cmpW _ _ | .cmpL _ _ | .cmpaW _ _ | .cmpaL _ _ => true
  | _ => false

/-- The instructions and forms that store nothing, 20_memory.md R80. -/
def storesNothing : Instr → Bool
  | .moveB _ dst | .moveW _ dst | .moveL _ dst => !dst.isMem
  | .addiB _ dst | .addiW _ dst | .addiL _ dst => !dst.isMem
  | .clrB dst | .clrW dst | .clrL dst => !dst.isMem
  | .addqB _ dst | .addqW _ dst | .addqL _ dst => !dst.isMem
  | .addDnEaB _ _ | .addDnEaW _ _ | .addDnEaL _ _ => false
  | .bsr _ => false
  | _ => true

/-! ### Rejected opcode words -/

/-- The words of 30_encoding.md R115 and R120 that no row admits, by line and field. -/
def illegalWord (ir : Word) : Bool :=
  let ss := ir.extractLsb' 6 2
  let opmode := (ir.extractLsb' 6 3).toNat
  match (ir.extractLsb' 12 4).toNat with
  | 0x0 => !(ir.extractLsb' 8 4 == 6#4 && ss != 3#2)
  | 0x1 | 0x2 | 0x3 => false
  | 0x4 =>
    !(ir.extractLsb' 8 4 == 2#4 && ss != 3#2) && ir != 0x4E4F && ir != 0x4E72 && ir != 0x4E75 &&
      ir.extractLsb' 6 10 != 0b0100111011#10
  | 0x5 => ir.getLsbD 8 || ss == 3#2
  | 0x6 => false
  | 0xB => decide (4 ≤ opmode ∧ opmode ≤ 6)
  | 0xD => decide (4 ≤ opmode ∧ opmode ≤ 6 ∧ (eaMode ir).toNat < 2)
  | _ => true

/-- A mode/register pair as the number m, or 70 + r for mode 7 with register r. -/
def eaCode (mode : BitVec 3) (reg : Reg) : Nat := if mode = 7 then 70 + reg.toNat else mode.toNat

/-- The illegal EA forms of the field in bits [5:0], the table of 60_exceptions.md R384. -/
def illegalForms : Op → List Nat
  | .addEaDnB | .cmpB | .moveB => [1, 75, 76, 77]
  | .addEaDnW | .addEaDnL | .cmpW | .cmpL | .cmpaW | .cmpaL | .addaW | .addaL => [75, 76, 77]
  | .moveW | .moveL | .moveaW | .moveaL => [75, 76, 77]
  | .addDnEaB | .addDnEaW | .addDnEaL => [72, 73, 74, 75, 76, 77]
  | .addiB | .addiW | .addiL | .clrB | .clrW | .clrL | .addqB => [1, 72, 73, 74, 75, 76, 77]
  | .addqW | .addqL => [72, 73, 74, 75, 76, 77]
  | .jmp => [0, 1, 3, 4, 74, 75, 76, 77]
  | _ => []

/-- The illegal EA forms of MOVE's destination field, bits [11:6], R384. -/
def illegalDstForms : Op → List Nat
  | .moveB | .moveW | .moveL => [1, 72, 73, 74, 75, 76, 77]
  | _ => []

/-- The instructions that transfer control, 40_sequencer.md R158. -/
def transfers : Instr → Bool
  | .jmp _ | .rts | .bra _ | .bsr _ => true
  | .bhi _ | .bls _ | .bcc _ | .bcs _ | .bne _ | .beq _ | .bvc _ | .bvs _ | .bpl _ | .bmi _ | .bge _ | .blt _ | .bgt _
  | .ble _ => true
  | _ => false

/-! ### The invariant -/

/-- What the fault record of a Faulted core says is true of the machine, 10_state.md R45, 60_exceptions.md R381, R382,
R385, 40_sequencer.md R160: FREC.pc is PC; ir is absent only for a fault of the opcode fetch; the failing access does
fail; AddressError exists only under ALIGNMENT_FAULT; PrivilegeViolation is STOP's, with S clear. -/
def FrecTrue (s : State) (f : FaultRecord) : Prop :=
  f.pc = s.pc ∧
  (f.ir = none → f.cause = .outOfBounds s.pc .w ∨ f.cause = .addressError s.pc .w) ∧
  (∀ a sz, f.cause = .outOfBounds a sz → s.params.memSize < a.toNat + sz.bytes) ∧
  (∀ a sz, f.cause = .addressError a sz → s.params.alignmentFault = true ∧ sz ≠ .b ∧ a.toNat % 2 = 1) ∧
  (f.cause = .privilegeViolation → s.supervisor = false ∧ f.ir = some 0x4E72)

/-- The invariant of a run: legal parameters, memory in canonical form and inside its capacity, the unimplemented bits
of SR zero (10_state.md R40), and a true fault record. -/
def Inv (s : State) : Prop :=
  s.params.Wf ∧ s.mem.wf ∧ (∀ c ∈ s.mem, c.1 < s.params.memSize) ∧ s.sr &&& ~~~srMask = 0 ∧
    ∀ f, s.run = .faulted f → FrecTrue s f

end Sys2Proof.Machine
end

