-- ==== Sys2Proof/Certificates/Slice0/Obligations.lean ====
section
/-! DEFINITION. The statements for the provers. Their terms (`ExtFits`, `EaFits`, `eaValue`, `DestWritten` and the
others) are those of Safety.lean; each docstring names the rule of spec/ or the log entry a statement follows. -/

section
open Sys2Proof Sys2Proof.Machine

/-! ### Encoding -/

/-- Words written out from the examples of 43_arithmetic.md, 44_move.md, 45_control_flow.md and 46_trap_stop.md decode
to the instruction each example names. -/
def Obligations.SampleWordsDecode : Prop :=
  decodeInstr 0xD200 [] = .ok (.addEaDnB (.dn 0) 1) ∧
  decodeInstr 0xD350 [] = .ok (.addDnEaW 1 (.ind 0)) ∧
  decodeInstr 0xD0C0 [] = .ok (.addaW (.dn 0) 0) ∧
  decodeInstr 0x0642 [0x0001] = .ok (.addiW 1 (.dn 2)) ∧
  decodeInstr 0x5049 [] = .ok (.addqW 0 (.an 1)) ∧
  decodeInstr 0xB001 [] = .ok (.cmpB (.dn 1) 0) ∧
  decodeInstr 0xB1C9 [] = .ok (.cmpaL (.an 1) 0) ∧
  decodeInstr 0x4200 [] = .ok (.clrB (.dn 0)) ∧
  decodeInstr 0x203C [0x0000, 0x0005] = .ok (.moveL (.imm 5) (.dn 0)) ∧
  decodeInstr 0x2E7C [0x0000, 0x8000] = .ok (.moveaL (.imm 0x8000) 7) ∧
  decodeInstr 0x4ED0 [] = .ok (.jmp (.ind 0)) ∧
  decodeInstr 0x6006 [] = .ok (.bra (.short 6)) ∧
  decodeInstr 0x66F6 [] = .ok (.bne (.short 0xF6)) ∧
  decodeInstr 0x6100 [0x000A] = .ok (.bsr (.word 0x000A)) ∧
  decodeInstr 0x4E75 [] = .ok .rts ∧
  decodeInstr 0x4E4F [] = .ok .trap15 ∧
  decodeInstr 0x4E72 [0x2000] = .ok (.stop 0x2000) ∧
  decodeInstr 0xA000 [] = .error .illegalInstruction

/-- Decoding the bytes of a well-formed instruction gives it back, and the bytes that follow, whatever they are. -/
def Obligations.DecodeOfEncode : Prop :=
  ∀ (i : Instr) (rest : List Byte), WellFormed i = true →
    decode (bytesOfWords (encode i) ++ rest) = .ok (i, rest)

/-- An accepted opcode word is the opcode word of the instruction it decodes to, whatever the extension words: no bit of
it is ignored (30_encoding.md R122); and the instruction is well formed. -/
def Obligations.AcceptedWordIsItsInstructions : Prop :=
  ∀ (ir : Word) (ext : List Word) (i : Instr), decodeInstr ir ext = .ok i → opcodeWord i = ir ∧ WellFormed i = true

/-- The length of an instruction is the number of words of its encoding, a function of the opcode word alone, and 1 to
5 words; the two instructions 30_encoding.md R100 names have 5. -/
def Obligations.LengthOfEncoding : Prop :=
  (∀ i : Instr, WellFormed i = true →
    (encode i).length = lengthWords (opcodeWord i) ∧ 1 ≤ (encode i).length ∧ (encode i).length ≤ 5) ∧
  ∀ v a : Long, (encode (.moveL (.imm v) (.absL a))).length = 5 ∧ (encode (.addiL v (.absL a))).length = 5

/-- Two rows of the decode table whose mask and pattern admit one word are MOVEA.L with MOVE.L or MOVEA.W with MOVE.W;
every word of a MOVEA row is in the MOVE row, and MOVEA wins. -/
def Obligations.OnlyMoveaRowsOverlap : Prop :=
  (∀ (ir : Word), ∀ p ∈ decodeTable, ∀ q ∈ decodeTable, p ≠ q →
    ir &&& p.mask = p.pattern → ir &&& q.mask = q.pattern →
    (p.op, q.op) ∈ [(Op.moveaL, Op.moveL), (.moveL, .moveaL), (.moveaW, .moveW), (.moveW, .moveaW)]) ∧
  (∀ ir : Word, ir &&& 0xF1C0 = 0x2040 → ir &&& 0xF000 = 0x2000 ∧ firstMatch ir = some .moveaL) ∧
  ∀ ir : Word, ir &&& 0xF1C0 = 0x3040 → ir &&& 0xF000 = 0x3000 ∧ firstMatch ir = some .moveaW

/-- No row matches exactly the words that 30_encoding.md R115 and R120 list; a step that fetches such a word faults with
IllegalInstruction, the word recorded, and nothing else changes. -/
def Obligations.IllegalWordsFault : Prop :=
  (∀ ir : Word, firstMatch ir = none ↔ illegalWord ir = true) ∧
  ∀ s : State, s.run = .running → Fits s s.pc .w → illegalWord (s.byteAt s.pc ++ s.byteAt (s.pc + 1)) = true →
    step s = .next { s with
      run := .faulted { cause := .illegalInstruction, pc := s.pc, ir := some (s.byteAt s.pc ++ s.byteAt (s.pc + 1)) } }

/-- A word that a row matches is rejected exactly when an EA field has a form of the table of 60_exceptions.md R384, and
then with IllegalAddressingMode; a step that fetches such a word faults so, whatever words follow it, the word recorded,
and nothing else changes. -/
def Obligations.IllegalModesAreTheListed : Prop :=
  (∀ (ir : Word) (ext : List Word) (op : Op), firstMatch ir = some op →
    (decodeInstr ir ext = .error .illegalAddressingMode ↔
      eaCode (eaMode ir) (eaReg ir) ∈ illegalForms op ∨ eaCode (moveDstMode ir) (highReg ir) ∈ illegalDstForms op) ∧
    decodeInstr ir ext ≠ .error .illegalInstruction) ∧
  ∀ (s : State) (ir : Word) (op : Op), s.run = .running → Fits s s.pc .w → ir = s.byteAt s.pc ++ s.byteAt (s.pc + 1) →
    firstMatch ir = some op →
    eaCode (eaMode ir) (eaReg ir) ∈ illegalForms op ∨ eaCode (moveDstMode ir) (highReg ir) ∈ illegalDstForms op →
    step s = .next { s with run := .faulted { cause := .illegalAddressingMode, pc := s.pc, ir := some ir } }

/-! ### The cycle -/

/-- When the word at PC decodes to i, with the four words after it, a step is exec of i at the same state. A word after it
that memory does not give is decoded as 0, and exec faults where it consumes it: the model's choice of log 13. -/
def Obligations.StepRunsTheDecodedInstruction : Prop :=
  ∀ (s : State) (i : Instr), s.run = .running → Fits s s.pc .w →
    decodeInstr (s.byteAt s.pc ++ s.byteAt (s.pc + 1)) (extWordsAt s) = .ok i → step s = exec i s

/-- When the bytes from PC on are those of a well-formed instruction, all in memory, a step is exec of it. -/
def Obligations.StepRunsTheEncodedInstruction : Prop :=
  ∀ (s : State) (i : Instr), s.run = .running → WellFormed i = true →
    (∀ k, k < (encode i).length → Fits s (s.pc + BitVec.ofNat 32 (2 * k)) .w) →
    (∀ k (h : k < (bytesOfWords (encode i)).length), s.byteAt (s.pc + BitVec.ofNat 32 k) = (bytesOfWords (encode i))[k]) →
    step s = exec i s

/-- A failing opcode fetch, 40_sequencer.md R151, 20_memory.md R75, R78: AddressError is checked first; FREC.pc is PC,
FREC.ir is absent, nothing else changes. -/
def Obligations.OpcodeFetchFaults : Prop :=
  ∀ s : State, s.run = .running → ¬ Fits s s.pc .w →
    step s = .next { s with
      run := .faulted {
        cause := if s.params.alignmentFault = true ∧ s.pc.toNat % 2 = 1 then .addressError s.pc .w
          else .outOfBounds s.pc .w
        pc := s.pc
        ir := none } }

/-- A step of a core that is not Running changes nothing. -/
def Obligations.StepWhenNotRunningChangesNothing : Prop :=
  ∀ s : State, s.run ≠ .running → step s = .next s

/-- The only steps without a next state are those of TRAP #15 that block forever: an input task with no answer known
beforehand whose answer, the free value of log 10, is none; and (log 17) a NUL-terminated text when no address holds a
NUL. No step is refused. -/
def Obligations.OnlyTrapInputBlocks : Prop :=
  (∀ (s : State) (r : Refusal), step s ≠ .refused r) ∧
  ∀ (s : State) (w : Fault), step s = .fault w →
    s.byteAt s.pc ++ s.byteAt (s.pc + 1) = 0x4E4F#16 ∧
    ((s.params.trap15Tasks.lookup ((s.dreg 0).extractLsb' 0 8) = some .inNumber ∧ w = .hostNeverAnswers .inNumber ∧
        s.host.numbers = [] ∧ Config.hostNumber (s.host.requests ++ [.inNumber]) = none) ∨
     (s.params.trap15Tasks.lookup ((s.dreg 0).extractLsb' 0 8) = some .inChar ∧ w = .hostNeverAnswers .inChar ∧
        s.host.chars = [] ∧ Config.hostChar (s.host.requests ++ [.inChar]) = none) ∨
     (s.params.trap15Tasks.lookup ((s.dreg 0).extractLsb' 0 8) = some .inPending ∧ w = .hostNeverAnswers .pending ∧
        s.host.pendings = [] ∧ Config.hostPending (s.host.requests ++ [.pending]) = none) ∨
     (∃ crlf, s.params.trap15Tasks.lookup ((s.dreg 0).extractLsb' 0 8) = some (.outTerminated crlf) ∧
        w = .stringNeverEnds ∧ ∀ a : Long, s.byteAt a ≠ 0))

/-- A step that faults leaves everything but RUN as it was; FREC.pc is the PC of the cycle, and FREC.ir the opcode word
unless its own fetch failed. -/
def Obligations.FaultsArePrecise : Prop :=
  ∀ (s t : State) (f : FaultRecord), s.run = .running → step s = .next t → t.run = .faulted f →
    t = { s with run := .faulted f } ∧ f.pc = s.pc ∧
      (Fits s s.pc .w → f.ir = some (s.byteAt s.pc ++ s.byteAt (s.pc + 1))) ∧ (¬ Fits s s.pc .w → f.ir = none)

/-- A run halts only by STOP with S = 1 or by the termination task of TRAP #15, and PC is advanced. -/
def Obligations.OnlyStopAndTerminationHalt : Prop :=
  ∀ (s t : State) (c : HaltCause), s.run = .running → step s = .next t → t.run = .halted c →
    (c = .stop ∧ s.byteAt s.pc ++ s.byteAt (s.pc + 1) = 0x4E72#16 ∧ s.supervisor = true ∧ t.pc = s.pc + 4) ∨
    (c = .termination ∧ s.byteAt s.pc ++ s.byteAt (s.pc + 1) = 0x4E4F#16 ∧
      s.params.trap15Tasks.lookup ((s.dreg 0).extractLsb' 0 8) = some .terminate ∧ t.pc = s.pc + 2)

/-- SR[15:5], which holds S, T and the interrupt mask, changes only in a step by which STOP halts the core. -/
def Obligations.SystemByteChangesOnlyByStop : Prop :=
  ∀ s t : State, step s = .next t → t.run ≠ .halted .stop →
    t.sr.extractLsb' 5 11 = s.sr.extractLsb' 5 11 ∧ t.supervisor = s.supervisor ∧ t.trace = s.trace ∧
      t.intMask = s.intMask

/-- The rows of 10_state.md R39 that write no flag leave all of SR, and those that keep X leave X. -/
def Obligations.FlagsKeptByInstruction : Prop :=
  ∀ (i : Instr) (s t : State), exec i s = .next t →
    (writesNoFlag i = true → t.sr = s.sr) ∧ (keepsX i = true → t.flagX = s.flagX)

/-- An instruction that does not transfer control leaves PC past its own words. -/
def Obligations.PcMovesPastTheInstruction : Prop :=
  ∀ (i : Instr) (s t : State), WellFormed i = true → transfers i = false → exec i s = .next t →
    (∀ f, t.run ≠ .faulted f) → t.pc = s.pc + BitVec.ofNat 32 (2 * (encode i).length)

/-- A transfer to a target that cannot be fetched completes, and the next step faults at the target, 45_control_flow.md
R321: BRA and a taken Bcc, JMP, BSR and RTS. -/
def Obligations.TransferOutOfMemoryFaultsAtTheTarget : Prop :=
  ∀ s : State, s.run = .running →
    (∀ (c : Cond) (d : Disp), condHolds s c = true → ExtFits s d.words → ¬ Fits s (s.pc + 2 + d.value) .w →
      ∃ t, exec (branchOf c d) s = .next t ∧ t.run = .running ∧ FetchFaultsAt t (s.pc + 2 + d.value)) ∧
    (∀ (ea : EA) (a : Long), WellFormed (.jmp ea) = true → ExtFits s (ea.words .l) → eaAddr s .l .jump ea = some a →
      ¬ Fits s a .w → ∃ t, exec (.jmp ea) s = .next t ∧ t.run = .running ∧ FetchFaultsAt t a) ∧
    (∀ d : Disp, ExtFits s d.words → Fits s (s.areg 7 - 2) .w → ¬ Fits s (s.pc + 2 + d.value) .w →
      ∃ t, exec (.bsr d) s = .next t ∧ t.run = .running ∧ FetchFaultsAt t (s.pc + 2 + d.value)) ∧
    (Fits s (s.areg 7) .w → ¬ Fits s (s.load (s.areg 7) .w + 2) .w →
      ∃ t, exec .rts s = .next t ∧ t.run = .running ∧ FetchFaultsAt t (s.load (s.areg 7) .w + 2))

/-! ### Launch and the invariant of a run -/

/-- The launch state of 10_state.md R52, of all its parameters. -/
def Obligations.LaunchState : Prop :=
  ∀ (params : Params) (d a : Vector Long 8) (pcEntry : Long) (srInit : Word) (memInit : Memory) (host : HostPort),
    let s := State.launch params d a pcEntry srInit memInit host
    s.d = d ∧ s.a = a ∧ s.pc = pcEntry ∧ s.run = .running ∧ s.frec = none ∧ s.mem = memInit ∧
      s.sr &&& ~~~(0xA71F#16) = 0 ∧ s.sr &&& 0xA71F#16 = srInit &&& 0xA71F#16

/-- The invariant holds in State.reset, whose values are the model's choices (log 1 to 8), and in every launch state with
legal parameters and a memory in canonical form inside its capacity. -/
def Obligations.InvariantAtLaunch : Prop :=
  Inv State.reset ∧
  ∀ (params : Params) (d a : Vector Long 8) (pcEntry : Long) (srInit : Word) (memInit : Memory) (host : HostPort),
    params.Wf → memInit.wf → (∀ c ∈ memInit, c.1 < params.memSize) →
    Inv (State.launch params d a pcEntry srInit memInit host)

/-- Every step keeps the invariant: legal parameters, memory in canonical form and inside MEM_SIZE, the unimplemented SR
bits zero, and a fault record that says what is true of the machine. -/
def Obligations.StepKeepsInvariant : Prop :=
  ∀ s t : State, Inv s → step s = .next t → Inv t

/-- The loader writes the image byte by byte, the last byte of an address staying, and sets PC; an image byte at or above
MEM_SIZE is a load failure; nothing else changes. -/
def Obligations.LoaderFillsMemory : Prop :=
  ∀ (s : State) (image : List (Nat × Byte)) (entry : Long), s.mem.wf →
    ((∃ c ∈ image, s.params.memSize ≤ c.1) → hostLoad s image entry = none) ∧
    ((∀ c ∈ image, c.1 < s.params.memSize) → ∃ t, hostLoad s image entry = some t ∧ t.pc = entry ∧ t.d = s.d ∧
      t.a = s.a ∧ t.sr = s.sr ∧ t.run = s.run ∧ t.params = s.params ∧ t.host = s.host ∧
      ∀ x, t.mem.read x = (image.reverse.lookup x).getD (s.mem.read x))

/-! ### Memory and registers -/

/-- An access of n bytes at a fails with OutOfBounds when a + n > MEM_SIZE as integers, with AddressError before that when
ALIGNMENT_FAULT and a word or long at an odd address, and otherwise succeeds; a failed one has no effect. -/
def Obligations.AccessChecks : Prop :=
  ∀ (s : State) (a v : Long) (sz : Size),
    (s.params.alignmentFault = true ∧ sz ≠ .b ∧ a.toNat % 2 = 1 →
      memRead s a sz = .error (.raise (.addressError a sz)) ∧
      memWrite s a sz v = .error (.raise (.addressError a sz))) ∧
    (¬(s.params.alignmentFault = true ∧ sz ≠ .b ∧ a.toNat % 2 = 1) → s.params.memSize < a.toNat + sz.bytes →
      memRead s a sz = .error (.raise (.outOfBounds a sz)) ∧
      memWrite s a sz v = .error (.raise (.outOfBounds a sz))) ∧
    (Fits s a sz → (∃ r, memRead s a sz = .ok r) ∧ ∃ t, memWrite s a sz v = .ok t)

/-- A read after a write of the same width and address gives the value written, at its width, also where the bytes run
over the top of the address space; narrower reads see the bytes of a long write, the most significant at the lowest
address. -/
def Obligations.ReadAfterWrite : Prop :=
  (∀ (s t : State) (a v : Long) (sz : Size), s.mem.wf → memWrite s a sz v = .ok t →
    memRead t a sz = .ok (atWidth sz v)) ∧
  ∀ (s : State) (a v : Long), s.mem.wf →
    (s.store a .l v).load a .w = (v.extractLsb' 16 16).setWidth 32 ∧
    (s.store a .l v).load (a + 1) .w = (v.extractLsb' 8 16).setWidth 32 ∧
    (s.store a .l v).load (a + 2) .w = (v.extractLsb' 0 16).setWidth 32 ∧
    (s.store a .l v).load a .b = (v.extractLsb' 24 8).setWidth 32 ∧
    (s.store a .l v).load (a + 3) .b = (v.extractLsb' 0 8).setWidth 32

/-- A byte or word write to a data register replaces its low 8 or 16 bits, a long write all 32; the other registers
keep their values. -/
def Obligations.PartialWidthDataWrite : Prop :=
  ∀ (s : State) (r : Reg) (v : Long),
    (∀ j, j < 8 → ((s.writeD r .b v).dreg r).getLsbD j = v.getLsbD j) ∧
    (∀ j, 8 ≤ j → ((s.writeD r .b v).dreg r).getLsbD j = (s.dreg r).getLsbD j) ∧
    (∀ j, j < 16 → ((s.writeD r .w v).dreg r).getLsbD j = v.getLsbD j) ∧
    (∀ j, 16 ≤ j → ((s.writeD r .w v).dreg r).getLsbD j = (s.dreg r).getLsbD j) ∧
    (s.writeD r .l v).dreg r = v ∧
    ∀ sz q, q ≠ r → (s.writeD r sz v).dreg q = s.dreg q

/-! ### Condition codes -/

/-- The carry of an addition, 42_alu.md R226 and 90_conflicts.md C1: set, it is a carry out of the top bit; a carry out
leaves C clear exactly when the source's sign bit is 1 and the destination's and the result's are equal. -/
def Obligations.AddCarryAgainstTheTrueCarry : Prop :=
  ∀ (sz : Size) (src dst : Long),
    ((addOp sz src dst).2.c = true → 2 ^ sz.bits ≤ (atWidth sz src).toNat + (atWidth sz dst).toNat) ∧
    (2 ^ sz.bits ≤ (atWidth sz src).toNat + (atWidth sz dst).toNat ∧ (addOp sz src dst).2.c = false ↔
      msbAt sz src = true ∧ msbAt sz dst = msbAt sz (src + dst))

/-- The predicates after a compare of dst with src are the comparisons of the operands that 42_alu.md R240 names:
unsigned for HI, LS, CC, CS, signed for GE, LT, GT, LE. -/
def Obligations.ConditionsAfterCompare : Prop :=
  ∀ (s t : State) (sz : Size) (src dst : Long), CmpFlagsAre s t sz src dst →
    let a : BitVec sz.bits := src.setWidth sz.bits
    let b : BitVec sz.bits := dst.setWidth sz.bits
    condHolds t .hi = decide (a.toNat < b.toNat) ∧ condHolds t .ls = decide (b.toNat ≤ a.toNat) ∧
    condHolds t .cc = decide (a.toNat ≤ b.toNat) ∧ condHolds t .cs = decide (b.toNat < a.toNat) ∧
    condHolds t .eq = decide (a = b) ∧ condHolds t .ne = decide (a ≠ b) ∧
    condHolds t .ge = decide (a.toInt ≤ b.toInt) ∧ condHolds t .lt = decide (b.toInt < a.toInt) ∧
    condHolds t .gt = decide (a.toInt < b.toInt) ∧ condHolds t .le = decide (b.toInt ≤ a.toInt)

/-- The rows of 42_alu.md R240 over the bits of SR. -/
def Obligations.ConditionTable : Prop :=
  ∀ s : State,
    let c := s.sr.getLsbD 0
    let v := s.sr.getLsbD 1
    let z := s.sr.getLsbD 2
    let n := s.sr.getLsbD 3
    (condHolds s .hi = true ↔ c = false ∧ z = false) ∧ (condHolds s .ls = true ↔ c = true ∨ z = true) ∧
    (condHolds s .cc = true ↔ c = false) ∧ (condHolds s .cs = true ↔ c = true) ∧
    (condHolds s .ne = true ↔ z = false) ∧ (condHolds s .eq = true ↔ z = true) ∧
    (condHolds s .vc = true ↔ v = false) ∧ (condHolds s .vs = true ↔ v = true) ∧
    (condHolds s .pl = true ↔ n = false) ∧ (condHolds s .mi = true ↔ n = true) ∧
    (condHolds s .ge = true ↔ n = v) ∧ (condHolds s .lt = true ↔ n ≠ v) ∧
    (condHolds s .gt = true ↔ z = false ∧ n = v) ∧ (condHolds s .le = true ↔ z = true ∨ n ≠ v) ∧
    condHolds s .t = true ∧ condHolds s .f = false

/-! ### Results: every instruction completes, and with what -/

/-- ADD.sz <ea>,Dn, 43_arithmetic.md R261: Dn gets the sum at width sz, the flags are AddOp's, PC is past the words. -/
def Obligations.AddToDataRegister : Prop :=
  ∀ (sz : Size) (src : EA) (dn : Reg) (s : State), WellFormed (addEaDnOf sz src dn) = true →
    ExtFits s (src.words sz) → EaFits s sz src →
    ∃ t, exec (addEaDnOf sz src dn) s = .next t ∧ DWritten s t dn sz (eaValue s sz src + s.dreg dn) ∧
      AddFlagsAre t sz (eaValue s sz src) (s.dreg dn) ∧ SrHighSame s t ∧ t.a = (stepEA s sz src).a ∧ MemSame s t ∧
      PcPast s t (1 + src.words sz) ∧ RestSame s t

/-- ADD.sz Dn,<ea>, R262: the operand in memory gets the sum, at the address resolved once. -/
def Obligations.AddToMemory : Prop :=
  ∀ (sz : Size) (dn : Reg) (dst : EA) (s : State), WellFormed (addDnEaOf sz dn dst) = true → s.mem.wf →
    ExtFits s (dst.words sz) → EaFits s sz dst →
    ∃ t, exec (addDnEaOf sz dn dst) s = .next t ∧ DestWritten s s t sz dst (s.dreg dn + eaValue s sz dst) ∧
      AddFlagsAre t sz (s.dreg dn) (eaValue s sz dst) ∧ SrHighSame s t ∧ t.a = (stepEA s sz dst).a ∧
      PcPast s t (1 + dst.words sz) ∧ RestSame s t

/-- ADDA, R266: all 32 bits of An, after the source's step, plus the source, sign-extended from a word; SR unchanged. -/
def Obligations.AddToAddressRegister : Prop :=
  ∀ (long : Bool) (src : EA) (an : Reg) (s : State), WellFormed (addaOf long src an) = true →
    ExtFits s (src.words (addrSize long)) → EaFits s (addrSize long) src →
    ∃ t, exec (addaOf long src an) s = .next t ∧
      AWritten (stepEA s (addrSize long) src) t an
        ((if long then eaValue s .l src else ((eaValue s .w src).setWidth 16).signExtend 32) +
          (stepEA s (addrSize long) src).areg an) ∧
      t.sr = s.sr ∧ t.d = s.d ∧ MemSame s t ∧ PcPast s t (1 + src.words (addrSize long)) ∧ RestSame s t

/-- ADDI, R270: the immediate words come first, then the destination's. -/
def Obligations.AddImmediate : Prop :=
  ∀ (sz : Size) (imm : Long) (dst : EA) (s : State), WellFormed (addiOf sz imm dst) = true → s.mem.wf →
    ExtFits s ((if sz = .l then 2 else 1) + dst.words sz) → EaFits s sz dst →
    ∃ t, exec (addiOf sz imm dst) s = .next t ∧ DestWritten s s t sz dst (imm + eaValue s sz dst) ∧
      AddFlagsAre t sz imm (eaValue s sz dst) ∧ SrHighSame s t ∧ t.a = (stepEA s sz dst).a ∧
      PcPast s t (1 + (if sz = .l then 2 else 1) + dst.words sz) ∧ RestSame s t

/-- ADDQ to a data register or memory, R275: the data field 0 adds 8. -/
def Obligations.AddQuick : Prop :=
  ∀ (sz : Size) (q : BitVec 3) (dst : EA) (s : State), WellFormed (addqOf sz q dst) = true → (∀ r, dst ≠ .an r) →
    s.mem.wf → ExtFits s (dst.words sz) → EaFits s sz dst →
    ∃ t, exec (addqOf sz q dst) s = .next t ∧
      DestWritten s s t sz dst ((if q = 0 then 8 else q.setWidth 32) + eaValue s sz dst) ∧
      AddFlagsAre t sz (if q = 0 then 8 else q.setWidth 32) (eaValue s sz dst) ∧ SrHighSame s t ∧
      t.a = (stepEA s sz dst).a ∧ PcPast s t (1 + dst.words sz) ∧ RestSame s t

/-- ADDQ to An, R276: all 32 bits, for W and for L, and SR unchanged; it always completes. -/
def Obligations.AddQuickToAddressRegister : Prop :=
  ∀ (long : Bool) (q : BitVec 3) (r : Reg) (s : State),
    ∃ t, exec (addqOf (addrSize long) q (.an r)) s = .next t ∧
      AWritten s t r (s.areg r + (if q = 0 then 8 else q.setWidth 32)) ∧ t.sr = s.sr ∧ t.d = s.d ∧ MemSame s t ∧
      PcPast s t 1 ∧ RestSame s t

/-- CMP, R280: the flags of Dn - <ea>; no operand is written. -/
def Obligations.CompareSetsFlagsOnly : Prop :=
  ∀ (sz : Size) (src : EA) (dn : Reg) (s : State), WellFormed (cmpOf sz src dn) = true →
    ExtFits s (src.words sz) → EaFits s sz src →
    ∃ t, exec (cmpOf sz src dn) s = .next t ∧ CmpFlagsAre s t sz (eaValue s sz src) (s.dreg dn) ∧ SrHighSame s t ∧
      t.d = s.d ∧ t.a = (stepEA s sz src).a ∧ MemSame s t ∧ PcPast s t (1 + src.words sz) ∧ RestSame s t

/-- CMPA, R290: always a 32-bit compare, of An after the source's step. -/
def Obligations.CompareAddressSetsFlagsOnly : Prop :=
  ∀ (long : Bool) (src : EA) (an : Reg) (s : State), WellFormed (cmpaOf long src an) = true →
    ExtFits s (src.words (addrSize long)) → EaFits s (addrSize long) src →
    ∃ t, exec (cmpaOf long src an) s = .next t ∧
      CmpFlagsAre s t .l (if long then eaValue s .l src else ((eaValue s .w src).setWidth 16).signExtend 32)
        ((stepEA s (addrSize long) src).areg an) ∧
      SrHighSame s t ∧ t.d = s.d ∧ t.a = (stepEA s (addrSize long) src).a ∧ MemSame s t ∧
      PcPast s t (1 + src.words (addrSize long)) ∧ RestSame s t

/-- CLR, R295: 0 at width sz, Z set, N, V and C clear, X kept. -/
def Obligations.ClearWritesZero : Prop :=
  ∀ (sz : Size) (dst : EA) (s : State), WellFormed (clrOf sz dst) = true → s.mem.wf →
    ExtFits s (dst.words sz) → EaFits s sz dst →
    ∃ t, exec (clrOf sz dst) s = .next t ∧ DestWritten s s t sz dst 0 ∧ FlagsAre t s.flagX false true false false ∧
      SrHighSame s t ∧ t.a = (stepEA s sz dst).a ∧ PcPast s t (1 + dst.words sz) ∧ RestSame s t

/-- MOVE, 44_move.md R300: the source's value, read before the destination is resolved, at the destination resolved after
the source's step. -/
def Obligations.MoveCopiesTheSource : Prop :=
  ∀ (sz : Size) (src dst : EA) (s : State), WellFormed (moveOf sz src dst) = true → s.mem.wf →
    ExtFits s (src.words sz + dst.words sz) → EaFits s sz src → EaFits (stepEA s sz src) sz dst →
    ∃ t, exec (moveOf sz src dst) s = .next t ∧
      DestWritten s (stepEA s sz src) t sz dst (eaValue s sz src) ∧
      FlagsAre t s.flagX ((eaValue s sz src).setWidth sz.bits).msb ((eaValue s sz src).setWidth sz.bits == 0) false false ∧
      SrHighSame s t ∧ t.a = (stepEA (stepEA s sz src) sz dst).a ∧
      PcPast s t (1 + src.words sz + dst.words sz) ∧ RestSame s t

/-- MOVEA, R305: all 32 bits of An, a word sign-extended; SR unchanged. -/
def Obligations.MoveToAddressRegister : Prop :=
  ∀ (long : Bool) (src : EA) (an : Reg) (s : State), WellFormed (moveaOf long src an) = true →
    ExtFits s (src.words (addrSize long)) → EaFits s (addrSize long) src →
    ∃ t, exec (moveaOf long src an) s = .next t ∧
      AWritten (stepEA s (addrSize long) src) t an
        (if long then eaValue s .l src else ((eaValue s .w src).setWidth 16).signExtend 32) ∧
      t.sr = s.sr ∧ t.d = s.d ∧ MemSame s t ∧ PcPast s t (1 + src.words (addrSize long)) ∧ RestSame s t

/-- JMP, 45_control_flow.md R325: only PC changes, to the address of the EA, at which no access is made. -/
def Obligations.JumpSetsPc : Prop :=
  ∀ (ea : EA) (s : State), WellFormed (.jmp ea) = true → ExtFits s (ea.words .l) →
    ∃ t, exec (.jmp ea) s = .next t ∧ eaAddr s .l .jump ea = some t.pc ∧ t = { s with pc := t.pc }

/-- BRA and Bcc, R330, R331, R320: only PC changes, to IA + 2 + the displacement for BRA and when the condition holds,
else past the instruction, whose extension word is consumed either way. -/
def Obligations.BranchesSetPc : Prop :=
  ∀ (d : Disp) (s : State), ExtFits s d.words →
    exec (.bra d) s = .next { s with pc := s.pc + 2 + d.value } ∧
    ∀ c : Cond, c ≠ .t → c ≠ .f →
      exec (branchOf c d) s = .next { s with
        pc := if condHolds s c = true then s.pc + 2 + d.value else s.pc + BitVec.ofNat 32 (2 * (1 + d.words)) }

/-- BSR, R335: pushes the low word of the return address minus 2. -/
def Obligations.BranchToSubroutine : Prop :=
  ∀ (d : Disp) (s : State), s.mem.wf → ExtFits s d.words → Fits s (s.areg 7 - 2) .w →
    ∃ t, exec (.bsr d) s = .next t ∧ t.pc = s.pc + 2 + d.value ∧ AWritten s t 7 (s.areg 7 - 2) ∧
      Stored s t (s.areg 7 - 2) .w (s.pc + BitVec.ofNat 32 (2 * d.words)) ∧ t.d = s.d ∧ t.sr = s.sr ∧ RestSame s t

/-- RTS, R340: the popped word, zero-extended, plus 2. -/
def Obligations.ReturnFromSubroutine : Prop :=
  ∀ s : State, Fits s (s.areg 7) .w →
    ∃ t, exec .rts s = .next t ∧
      t.pc = (s.byteAt (s.areg 7) ++ s.byteAt (s.areg 7 + 1)).setWidth 32 + 2 ∧ AWritten s t 7 (s.areg 7 + 2) ∧
      t.d = s.d ∧ t.sr = s.sr ∧ MemSame s t ∧ RestSame s t

/-- STOP with S = 1, 46_trap_stop.md R360. -/
def Obligations.StopInSupervisorModeHalts : Prop :=
  ∀ (k : Word) (s : State), s.sr.getLsbD 13 = true → Fits s (s.pc + 2) .w →
    exec (.stop k) s = .next { s with sr := k &&& 0xA71F, pc := s.pc + 4, run := .halted .stop }

/-- STOP with S = 0, R360, R385: PrivilegeViolation before the extension word is read, and nothing else changes. -/
def Obligations.StopInUserModeFaults : Prop :=
  ∀ (k : Word) (s : State), s.sr.getLsbD 13 = false →
    exec (.stop k) s = .next { s with
      run := .faulted { cause := .privilegeViolation, pc := s.pc, ir := some 0x4E72 } }

/-! ### TRAP #15 -/

/-- A task code outside TRAP15_TASKS: one Notice, and nothing else but PC changes; the instruction succeeds. -/
def Obligations.UnknownTaskSendsNotice : Prop :=
  ∀ s : State, s.params.trap15Tasks.lookup ((s.dreg 0).extractLsb' 0 8) = none →
    exec .trap15 s = .next { s with
      pc := s.pc + 2
      host := { s.host with requests := s.host.requests ++ [.notice ((s.dreg 0).extractLsb' 0 8)] } }

/-- Task 9 of every legal TRAP15_TASKS halts the core, and nothing else but PC changes; D0[31:8] is ignored. -/
def Obligations.TerminationTaskHalts : Prop :=
  ∀ s : State, s.params.Wf → (s.dreg 0).extractLsb' 0 8 = (9 : Byte) →
    exec .trap15 s = .next { s with pc := s.pc + 2, run := .halted .termination }

/-- The tasks of the default table that read no memory and get no answer: 3, 6, 11 and 12. Each sends one request, and
nothing else but PC changes. Task 3 sends D1 as signed decimal text, Lean's own text of the integer. -/
def Obligations.TasksThatOnlySend : Prop :=
  ∀ s : State, s.params.trap15Tasks = Params.defaultTasks →
    let sent (r : HostRequest) : Host.Outcome State Fault Refusal :=
      .next { s with pc := s.pc + 2, host := { s.host with requests := s.host.requests ++ [r] } }
    let d1 := s.dreg 1
    ((s.dreg 0).extractLsb' 0 8 = (3 : Byte) →
      exec .trap15 s = sent (.out ((toString d1.toInt).toList.map fun c => BitVec.ofNat 8 c.toNat))) ∧
    ((s.dreg 0).extractLsb' 0 8 = (6 : Byte) → exec .trap15 s = sent (.out [d1.extractLsb' 0 8])) ∧
    ((s.dreg 0).extractLsb' 0 8 = (11 : Byte) → d1.extractLsb' 0 16 = 0xFF00#16 →
      exec .trap15 s = sent .clearScreen) ∧
    ((s.dreg 0).extractLsb' 0 8 = (11 : Byte) → d1.extractLsb' 0 16 ≠ 0xFF00#16 →
      exec .trap15 s = sent (.cursor (d1.extractLsb' 8 8) (d1.extractLsb' 0 8))) ∧
    ((s.dreg 0).extractLsb' 0 8 = (12 : Byte) →
      exec .trap15 s = sent (.echo (decide (d1.extractLsb' 0 8 ≠ (0 : Byte)))))

/-- Tasks 0 and 1 of the default table: one Out of the D1[15:0] bytes at A1, with CR LF for task 0. With D1[15:0] = 0
nothing is read and the task succeeds for every A1, the model's reading of R352 and R358 (log 24). -/
def Obligations.CountedTextIsSent : Prop :=
  ∀ s : State, s.params.trap15Tasks = Params.defaultTasks →
    (∀ k, k < ((s.dreg 1).extractLsb' 0 16).toNat → Fits s (s.areg 1 + BitVec.ofNat 32 k) .b) →
    let text := (List.range ((s.dreg 1).extractLsb' 0 16).toNat).map fun k => s.byteAt (s.areg 1 + BitVec.ofNat 32 k)
    let sent (bytes : List Byte) : Host.Outcome State Fault Refusal :=
      .next { s with pc := s.pc + 2, host := { s.host with requests := s.host.requests ++ [.out bytes] } }
    ((s.dreg 0).extractLsb' 0 8 = (0 : Byte) → exec .trap15 s = sent (text ++ [0x0D, 0x0A])) ∧
    ((s.dreg 0).extractLsb' 0 8 = (1 : Byte) → exec .trap15 s = sent text)

/-- Tasks 13 and 14 of the default table: one Out of the n bytes at A1 before the first NUL, with CR LF for task 13. -/
def Obligations.TerminatedTextIsSent : Prop :=
  ∀ (s : State) (n : Nat), s.params.trap15Tasks = Params.defaultTasks → n < 2 ^ 32 →
    (∀ k, k ≤ n → Fits s (s.areg 1 + BitVec.ofNat 32 k) .b) →
    (∀ k, k < n → s.byteAt (s.areg 1 + BitVec.ofNat 32 k) ≠ 0) → s.byteAt (s.areg 1 + BitVec.ofNat 32 n) = 0 →
    let text := (List.range n).map fun k => s.byteAt (s.areg 1 + BitVec.ofNat 32 k)
    let sent (bytes : List Byte) : Host.Outcome State Fault Refusal :=
      .next { s with pc := s.pc + 2, host := { s.host with requests := s.host.requests ++ [.out bytes] } }
    ((s.dreg 0).extractLsb' 0 8 = (13 : Byte) → exec .trap15 s = sent (text ++ [0x0D, 0x0A])) ∧
    ((s.dreg 0).extractLsb' 0 8 = (14 : Byte) → exec .trap15 s = sent text)

/-- A text task that reaches an address outside memory faults there with size 1 and sends nothing: tasks 0 and 1 before
their count is done, tasks 13 and 14 before a NUL. -/
def Obligations.TextOutsideMemoryFaults : Prop :=
  ∀ (s : State) (n : Nat), s.params.trap15Tasks = Params.defaultTasks → n < 2 ^ 32 →
    (∀ k, k < n → Fits s (s.areg 1 + BitVec.ofNat 32 k) .b) → ¬ Fits s (s.areg 1 + BitVec.ofNat 32 n) .b →
    ((((s.dreg 0).extractLsb' 0 8 = (0 : Byte) ∨ (s.dreg 0).extractLsb' 0 8 = (1 : Byte)) ∧
        n < ((s.dreg 1).extractLsb' 0 16).toNat) ∨
      (((s.dreg 0).extractLsb' 0 8 = (13 : Byte) ∨ (s.dreg 0).extractLsb' 0 8 = (14 : Byte)) ∧
        ∀ k, k < n → s.byteAt (s.areg 1 + BitVec.ofNat 32 k) ≠ 0)) →
    exec .trap15 s = .next { s with
      run := .faulted {
        cause := .outOfBounds (s.areg 1 + BitVec.ofNat 32 n) .b
        pc := s.pc
        ir := some 0x4E4F } }

/-- The input tasks 4, 5 and 7 of the default table, for every answer v of the host (an answer known beforehand, or the
free value of log 10): one request, D1 or its low byte written, nothing else but PC changed. -/
def Obligations.InputTasksWriteD1 : Prop :=
  ∀ s : State, s.params.trap15Tasks = Params.defaultTasks →
    ((s.dreg 0).extractLsb' 0 8 = (4 : Byte) → ∀ v,
      s.host.numbers.head? = some v ∨
        (s.host.numbers = [] ∧ Config.hostNumber (s.host.requests ++ [.inNumber]) = some v) →
      ∃ t, exec .trap15 s = .next t ∧ DWritten s t 1 .l v ∧
        t.host = { s.host with requests := s.host.requests ++ [.inNumber], numbers := s.host.numbers.tail } ∧
        t.a = s.a ∧ t.sr = s.sr ∧ MemSame s t ∧ PcPast s t 1 ∧ t.run = s.run ∧ t.params = s.params) ∧
    ((s.dreg 0).extractLsb' 0 8 = (5 : Byte) → ∀ v,
      s.host.chars.head? = some v ∨
        (s.host.chars = [] ∧ Config.hostChar (s.host.requests ++ [.inChar]) = some v) →
      ∃ t, exec .trap15 s = .next t ∧ DWritten s t 1 .b (v.setWidth 32) ∧
        t.host = { s.host with requests := s.host.requests ++ [.inChar], chars := s.host.chars.tail } ∧
        t.a = s.a ∧ t.sr = s.sr ∧ MemSame s t ∧ PcPast s t 1 ∧ t.run = s.run ∧ t.params = s.params) ∧
    ((s.dreg 0).extractLsb' 0 8 = (7 : Byte) → ∀ v,
      s.host.pendings.head? = some v ∨
        (s.host.pendings = [] ∧ Config.hostPending (s.host.requests ++ [.pending]) = some v) →
      ∃ t, exec .trap15 s = .next t ∧ DWritten s t 1 .b (if v then 1 else 0) ∧
        t.host = { s.host with requests := s.host.requests ++ [.pending], pendings := s.host.pendings.tail } ∧
        t.a = s.a ∧ t.sr = s.sr ∧ MemSame s t ∧ PcPast s t 1 ∧ t.run = s.run ∧ t.params = s.params)

/-! ### Order and sequences -/

/-- MOVE reads its source before it resolves its destination: a source that cannot be read is the fault recorded, whatever
the destination; with a readable source, it is the destination's access. -/
def Obligations.MoveReportsTheSourceFirst : Prop :=
  ∀ (sz : Size) (src dst : EA) (s : State), WellFormed (moveOf sz src dst) = true → ExtFits s (src.words sz) →
    (∀ a, eaAddr s sz .data src = some a → ¬ Fits s a sz →
      exec (moveOf sz src dst) s = .next { s with
        run := .faulted {
          cause := if s.params.alignmentFault = true ∧ sz ≠ .b ∧ a.toNat % 2 = 1 then .addressError a sz
            else .outOfBounds a sz
          pc := s.pc
          ir := some (opcodeWord (moveOf sz src dst)) } }) ∧
    (EaFits s sz src → ExtFits s (src.words sz + dst.words sz) →
      ∀ a, eaAddr (stepEA s sz src) sz .data dst = some a → ¬ Fits s a sz →
      exec (moveOf sz src dst) s = .next { s with
        run := .faulted {
          cause := if s.params.alignmentFault = true ∧ sz ≠ .b ∧ a.toNat % 2 = 1 then .addressError a sz
            else .outOfBounds a sz
          pc := s.pc
          ir := some (opcodeWord (moveOf sz src dst)) } })

/-- A BSR whose target begins with RTS returns, in two steps, to the instruction after the BSR with A7 unchanged, when
the pushed address lies below 0x10000 and both stack accesses succeed. -/
def Obligations.BsrThenRtsReturns : Prop :=
  ∀ (s t : State) (d : Disp), s.run = .running → s.mem.wf → ExtFits s d.words → Fits s (s.areg 7 - 2) .w →
    (s.pc + BitVec.ofNat 32 (2 * d.words)).toNat < 0x10000 → exec (.bsr d) s = .next t →
    Fits t t.pc .w → t.byteAt t.pc ++ t.byteAt (t.pc + 1) = 0x4E75#16 →
    ∃ u, step t = .next u ∧ u.pc = s.pc + BitVec.ofNat 32 (2 * (1 + d.words)) ∧ u.a = s.a ∧ u.d = s.d ∧ u.sr = s.sr ∧
      MemSame t u ∧ u.run = .running

/-! ### Frames -/

/-- An instruction form that stores nothing leaves every byte of memory. -/
def Obligations.FrameMemoryOfOtherForms : Prop :=
  ∀ (i : Instr) (s t : State), exec i s = .next t → storesNothing i = true → MemSame s t

/-- A storing form leaves every byte but the bytes of its width at the address of its destination: the address resolved
in `s`, for MOVE after the source's step, for BSR A7 - 2. -/
def Obligations.FrameMemoryOfStores : Prop :=
  ∀ (sz : Size) (s t : State) (a : Long),
    (∀ src dst, WellFormed (moveOf sz src dst) = true → eaAddr (stepEA s sz src) sz .data dst = some a →
      exec (moveOf sz src dst) s = .next t → MemSameOutside s t a sz.bytes) ∧
    (∀ imm dst, WellFormed (addiOf sz imm dst) = true → eaAddr s sz .data dst = some a →
      exec (addiOf sz imm dst) s = .next t → MemSameOutside s t a sz.bytes) ∧
    (∀ q dst, WellFormed (addqOf sz q dst) = true → eaAddr s sz .data dst = some a →
      exec (addqOf sz q dst) s = .next t → MemSameOutside s t a sz.bytes) ∧
    (∀ dst, WellFormed (clrOf sz dst) = true → eaAddr s sz .data dst = some a →
      exec (clrOf sz dst) s = .next t → MemSameOutside s t a sz.bytes) ∧
    (∀ dn dst, WellFormed (addDnEaOf sz dn dst) = true → eaAddr s sz .data dst = some a →
      exec (addDnEaOf sz dn dst) s = .next t → MemSameOutside s t a sz.bytes) ∧
    (∀ d, exec (.bsr d) s = .next t → MemSameOutside s t (s.areg 7 - 2) 2)

/-- Every data register keeps its value but the destination register, and D1 for TRAP #15. -/
def Obligations.FrameDataRegisters : Prop :=
  ∀ (i : Instr) (s t : State) (r : Reg), WellFormed i = true → exec i s = .next t → destD i ≠ some r → t.dreg r = s.dreg r

/-- Every address register keeps its value but the destination register (A7 for BSR and RTS) and those that an operand
in mode 3 or 4 steps. -/
def Obligations.FrameAddressRegisters : Prop :=
  ∀ (i : Instr) (s t : State) (r : Reg), WellFormed i = true → exec i s = .next t → destA i ≠ some r →
    (∀ ea ∈ operandsOf i, ea.stepped ≠ some r) → t.areg r = s.areg r

/-- Only TRAP #15 makes host requests or takes answers; the parameters stay, and RUN stays Running unless the
instruction halts or faults. -/
def Obligations.FrameHostPortAndRun : Prop :=
  ∀ (i : Instr) (s t : State), exec i s = .next t →
    (i ≠ .trap15 → t.host = s.host) ∧ t.params = s.params ∧
    (t.run = s.run ∨ (∃ f, t.run = .faulted f) ∨
      (t.run = .halted .termination ∧ i = .trap15) ∨ (t.run = .halted .stop ∧ ∃ k, i = .stop k))

/-! ### Faulting accesses -/

/-- The first access of an instruction that fails, in the order of its pseudocode, is the fault recorded, and nothing else
changes, 60_exceptions.md R386, R397; when none fails the instruction completes. TRAP #15's text reads are left to
`TextOutsideMemoryFaults`, STOP with S = 0 to `StopInUserModeFaults`. -/
def Obligations.FirstFailingAccessIsTheFault : Prop :=
  ∀ (i : Instr) (s : State), WellFormed i = true → s.run = .running → i ≠ .trap15 →
    (∀ k, i = .stop k → s.supervisor = true) →
    (∀ (a : Long) (sz : Size), firstFailing s (accesses s i) = some (a, sz) →
      exec i s = .next { s with
        run := .faulted { cause := accessFault s a sz, pc := s.pc, ir := some (opcodeWord i) } }) ∧
    (firstFailing s (accesses s i) = none → ∃ t, exec i s = .next t ∧ ∀ f, t.run ≠ .faulted f)

end
end

