-- ==== Sys2Proof/Laws/State.lean ====
section
/-! SUPPORT. The fields and accessors of a state after each named update: one lemma per field per update, so that no
proof unfolds a record update. -/

namespace Sys2Proof.Machine

variable (s : State)

/-! ### writeD -/

@[simp] theorem writeD_params (i : Reg) (sz : Size) (v : Long) : (s.writeD i sz v).params = s.params := rfl
@[simp] theorem writeD_a (i : Reg) (sz : Size) (v : Long) : (s.writeD i sz v).a = s.a := rfl
@[simp] theorem writeD_pc (i : Reg) (sz : Size) (v : Long) : (s.writeD i sz v).pc = s.pc := rfl
@[simp] theorem writeD_sr (i : Reg) (sz : Size) (v : Long) : (s.writeD i sz v).sr = s.sr := rfl
@[simp] theorem writeD_run (i : Reg) (sz : Size) (v : Long) : (s.writeD i sz v).run = s.run := rfl
@[simp] theorem writeD_mem (i : Reg) (sz : Size) (v : Long) : (s.writeD i sz v).mem = s.mem := rfl
@[simp] theorem writeD_host (i : Reg) (sz : Size) (v : Long) : (s.writeD i sz v).host = s.host := rfl
@[simp] theorem writeD_areg (i : Reg) (sz : Size) (v : Long) (q : Reg) : (s.writeD i sz v).areg q = s.areg q := rfl
@[simp] theorem writeD_byteAt (i : Reg) (sz : Size) (v : Long) (y : Long) : (s.writeD i sz v).byteAt y = s.byteAt y := rfl
@[simp] theorem writeD_load (i : Reg) (sz : Size) (v : Long) (y : Long) (n : Size) : (s.writeD i sz v).load y n = s.load y n := rfl
@[simp] theorem writeD_flagX (i : Reg) (sz : Size) (v : Long) : (s.writeD i sz v).flagX = s.flagX := rfl
@[simp] theorem writeD_flagN (i : Reg) (sz : Size) (v : Long) : (s.writeD i sz v).flagN = s.flagN := rfl
@[simp] theorem writeD_flagZ (i : Reg) (sz : Size) (v : Long) : (s.writeD i sz v).flagZ = s.flagZ := rfl
@[simp] theorem writeD_flagV (i : Reg) (sz : Size) (v : Long) : (s.writeD i sz v).flagV = s.flagV := rfl
@[simp] theorem writeD_flagC (i : Reg) (sz : Size) (v : Long) : (s.writeD i sz v).flagC = s.flagC := rfl
@[simp] theorem writeD_supervisor (i : Reg) (sz : Size) (v : Long) : (s.writeD i sz v).supervisor = s.supervisor := rfl

/-! ### writeA -/

@[simp] theorem writeA_params (i : Reg) (sz : Size) (v : Long) : (s.writeA i sz v).params = s.params := rfl
@[simp] theorem writeA_d (i : Reg) (sz : Size) (v : Long) : (s.writeA i sz v).d = s.d := rfl
@[simp] theorem writeA_pc (i : Reg) (sz : Size) (v : Long) : (s.writeA i sz v).pc = s.pc := rfl
@[simp] theorem writeA_sr (i : Reg) (sz : Size) (v : Long) : (s.writeA i sz v).sr = s.sr := rfl
@[simp] theorem writeA_run (i : Reg) (sz : Size) (v : Long) : (s.writeA i sz v).run = s.run := rfl
@[simp] theorem writeA_mem (i : Reg) (sz : Size) (v : Long) : (s.writeA i sz v).mem = s.mem := rfl
@[simp] theorem writeA_host (i : Reg) (sz : Size) (v : Long) : (s.writeA i sz v).host = s.host := rfl
@[simp] theorem writeA_dreg (i : Reg) (sz : Size) (v : Long) (q : Reg) : (s.writeA i sz v).dreg q = s.dreg q := rfl
@[simp] theorem writeA_byteAt (i : Reg) (sz : Size) (v : Long) (y : Long) : (s.writeA i sz v).byteAt y = s.byteAt y := rfl
@[simp] theorem writeA_load (i : Reg) (sz : Size) (v : Long) (y : Long) (n : Size) : (s.writeA i sz v).load y n = s.load y n := rfl
@[simp] theorem writeA_flagX (i : Reg) (sz : Size) (v : Long) : (s.writeA i sz v).flagX = s.flagX := rfl
@[simp] theorem writeA_flagN (i : Reg) (sz : Size) (v : Long) : (s.writeA i sz v).flagN = s.flagN := rfl
@[simp] theorem writeA_flagZ (i : Reg) (sz : Size) (v : Long) : (s.writeA i sz v).flagZ = s.flagZ := rfl
@[simp] theorem writeA_flagV (i : Reg) (sz : Size) (v : Long) : (s.writeA i sz v).flagV = s.flagV := rfl
@[simp] theorem writeA_flagC (i : Reg) (sz : Size) (v : Long) : (s.writeA i sz v).flagC = s.flagC := rfl
@[simp] theorem writeA_supervisor (i : Reg) (sz : Size) (v : Long) : (s.writeA i sz v).supervisor = s.supervisor := rfl

/-! ### setPc -/

@[simp] theorem setPc_params (v : Long) : (s.setPc v).params = s.params := rfl
@[simp] theorem setPc_d (v : Long) : (s.setPc v).d = s.d := rfl
@[simp] theorem setPc_a (v : Long) : (s.setPc v).a = s.a := rfl
@[simp] theorem setPc_sr (v : Long) : (s.setPc v).sr = s.sr := rfl
@[simp] theorem setPc_run (v : Long) : (s.setPc v).run = s.run := rfl
@[simp] theorem setPc_mem (v : Long) : (s.setPc v).mem = s.mem := rfl
@[simp] theorem setPc_host (v : Long) : (s.setPc v).host = s.host := rfl
@[simp] theorem setPc_pc (v : Long) : (s.setPc v).pc = v := rfl
@[simp] theorem setPc_dreg (v : Long) (q : Reg) : (s.setPc v).dreg q = s.dreg q := rfl
@[simp] theorem setPc_areg (v : Long) (q : Reg) : (s.setPc v).areg q = s.areg q := rfl
@[simp] theorem setPc_byteAt (v : Long) (y : Long) : (s.setPc v).byteAt y = s.byteAt y := rfl
@[simp] theorem setPc_load (v : Long) (y : Long) (n : Size) : (s.setPc v).load y n = s.load y n := rfl
@[simp] theorem setPc_flagX (v : Long) : (s.setPc v).flagX = s.flagX := rfl
@[simp] theorem setPc_flagN (v : Long) : (s.setPc v).flagN = s.flagN := rfl
@[simp] theorem setPc_flagZ (v : Long) : (s.setPc v).flagZ = s.flagZ := rfl
@[simp] theorem setPc_flagV (v : Long) : (s.setPc v).flagV = s.flagV := rfl
@[simp] theorem setPc_flagC (v : Long) : (s.setPc v).flagC = s.flagC := rfl
@[simp] theorem setPc_supervisor (v : Long) : (s.setPc v).supervisor = s.supervisor := rfl

/-! ### setTarget -/

@[simp] theorem setTarget_params (t : Long) : (s.setTarget t).params = s.params := rfl
@[simp] theorem setTarget_d (t : Long) : (s.setTarget t).d = s.d := rfl
@[simp] theorem setTarget_a (t : Long) : (s.setTarget t).a = s.a := rfl
@[simp] theorem setTarget_sr (t : Long) : (s.setTarget t).sr = s.sr := rfl
@[simp] theorem setTarget_run (t : Long) : (s.setTarget t).run = s.run := rfl
@[simp] theorem setTarget_mem (t : Long) : (s.setTarget t).mem = s.mem := rfl
@[simp] theorem setTarget_host (t : Long) : (s.setTarget t).host = s.host := rfl
@[simp] theorem setTarget_pc (t : Long) : (s.setTarget t).pc = t - 2 := rfl
@[simp] theorem setTarget_dreg (t : Long) (q : Reg) : (s.setTarget t).dreg q = s.dreg q := rfl
@[simp] theorem setTarget_areg (t : Long) (q : Reg) : (s.setTarget t).areg q = s.areg q := rfl
@[simp] theorem setTarget_byteAt (t : Long) (y : Long) : (s.setTarget t).byteAt y = s.byteAt y := rfl
@[simp] theorem setTarget_load (t : Long) (y : Long) (n : Size) : (s.setTarget t).load y n = s.load y n := rfl
@[simp] theorem setTarget_flagX (t : Long) : (s.setTarget t).flagX = s.flagX := rfl
@[simp] theorem setTarget_flagN (t : Long) : (s.setTarget t).flagN = s.flagN := rfl
@[simp] theorem setTarget_flagZ (t : Long) : (s.setTarget t).flagZ = s.flagZ := rfl
@[simp] theorem setTarget_flagV (t : Long) : (s.setTarget t).flagV = s.flagV := rfl
@[simp] theorem setTarget_flagC (t : Long) : (s.setTarget t).flagC = s.flagC := rfl
@[simp] theorem setTarget_supervisor (t : Long) : (s.setTarget t).supervisor = s.supervisor := rfl

/-! ### setByte -/

@[simp] theorem setByte_params (x : Long) (v : Byte) : (s.setByte x v).params = s.params := rfl
@[simp] theorem setByte_d (x : Long) (v : Byte) : (s.setByte x v).d = s.d := rfl
@[simp] theorem setByte_a (x : Long) (v : Byte) : (s.setByte x v).a = s.a := rfl
@[simp] theorem setByte_pc (x : Long) (v : Byte) : (s.setByte x v).pc = s.pc := rfl
@[simp] theorem setByte_sr (x : Long) (v : Byte) : (s.setByte x v).sr = s.sr := rfl
@[simp] theorem setByte_run (x : Long) (v : Byte) : (s.setByte x v).run = s.run := rfl
@[simp] theorem setByte_host (x : Long) (v : Byte) : (s.setByte x v).host = s.host := rfl
@[simp] theorem setByte_mem (x : Long) (v : Byte) : (s.setByte x v).mem = s.mem.write x.toNat v := rfl
@[simp] theorem setByte_dreg (x : Long) (v : Byte) (q : Reg) : (s.setByte x v).dreg q = s.dreg q := rfl
@[simp] theorem setByte_areg (x : Long) (v : Byte) (q : Reg) : (s.setByte x v).areg q = s.areg q := rfl
@[simp] theorem setByte_flagX (x : Long) (v : Byte) : (s.setByte x v).flagX = s.flagX := rfl
@[simp] theorem setByte_flagN (x : Long) (v : Byte) : (s.setByte x v).flagN = s.flagN := rfl
@[simp] theorem setByte_flagZ (x : Long) (v : Byte) : (s.setByte x v).flagZ = s.flagZ := rfl
@[simp] theorem setByte_flagV (x : Long) (v : Byte) : (s.setByte x v).flagV = s.flagV := rfl
@[simp] theorem setByte_flagC (x : Long) (v : Byte) : (s.setByte x v).flagC = s.flagC := rfl
@[simp] theorem setByte_supervisor (x : Long) (v : Byte) : (s.setByte x v).supervisor = s.supervisor := rfl

/-! ### setFlags -/

@[simp] theorem setFlags_params (f : Flags) : (s.setFlags f).params = s.params := rfl
@[simp] theorem setFlags_d (f : Flags) : (s.setFlags f).d = s.d := rfl
@[simp] theorem setFlags_a (f : Flags) : (s.setFlags f).a = s.a := rfl
@[simp] theorem setFlags_pc (f : Flags) : (s.setFlags f).pc = s.pc := rfl
@[simp] theorem setFlags_run (f : Flags) : (s.setFlags f).run = s.run := rfl
@[simp] theorem setFlags_mem (f : Flags) : (s.setFlags f).mem = s.mem := rfl
@[simp] theorem setFlags_host (f : Flags) : (s.setFlags f).host = s.host := rfl
@[simp] theorem setFlags_dreg (f : Flags) (q : Reg) : (s.setFlags f).dreg q = s.dreg q := rfl
@[simp] theorem setFlags_areg (f : Flags) (q : Reg) : (s.setFlags f).areg q = s.areg q := rfl
@[simp] theorem setFlags_byteAt (f : Flags) (y : Long) : (s.setFlags f).byteAt y = s.byteAt y := rfl
@[simp] theorem setFlags_load (f : Flags) (y : Long) (n : Size) : (s.setFlags f).load y n = s.load y n := rfl

/-! ### request -/

@[simp] theorem request_params (r : HostRequest) : (s.request r).params = s.params := rfl
@[simp] theorem request_d (r : HostRequest) : (s.request r).d = s.d := rfl
@[simp] theorem request_a (r : HostRequest) : (s.request r).a = s.a := rfl
@[simp] theorem request_pc (r : HostRequest) : (s.request r).pc = s.pc := rfl
@[simp] theorem request_sr (r : HostRequest) : (s.request r).sr = s.sr := rfl
@[simp] theorem request_run (r : HostRequest) : (s.request r).run = s.run := rfl
@[simp] theorem request_mem (r : HostRequest) : (s.request r).mem = s.mem := rfl
@[simp] theorem request_host (r : HostRequest) : (s.request r).host = s.host.send r := rfl
@[simp] theorem request_dreg (r : HostRequest) (q : Reg) : (s.request r).dreg q = s.dreg q := rfl
@[simp] theorem request_areg (r : HostRequest) (q : Reg) : (s.request r).areg q = s.areg q := rfl
@[simp] theorem request_byteAt (r : HostRequest) (y : Long) : (s.request r).byteAt y = s.byteAt y := rfl
@[simp] theorem request_load (r : HostRequest) (y : Long) (n : Size) : (s.request r).load y n = s.load y n := rfl
@[simp] theorem request_flagX (r : HostRequest) : (s.request r).flagX = s.flagX := rfl
@[simp] theorem request_flagN (r : HostRequest) : (s.request r).flagN = s.flagN := rfl
@[simp] theorem request_flagZ (r : HostRequest) : (s.request r).flagZ = s.flagZ := rfl
@[simp] theorem request_flagV (r : HostRequest) : (s.request r).flagV = s.flagV := rfl
@[simp] theorem request_flagC (r : HostRequest) : (s.request r).flagC = s.flagC := rfl
@[simp] theorem request_supervisor (r : HostRequest) : (s.request r).supervisor = s.supervisor := rfl

/-! ### store -/

@[simp] theorem store_params (x : Long) (sz : Size) (v : Long) : (s.store x sz v).params = s.params := by cases sz <;> rfl
@[simp] theorem store_d (x : Long) (sz : Size) (v : Long) : (s.store x sz v).d = s.d := by cases sz <;> rfl
@[simp] theorem store_a (x : Long) (sz : Size) (v : Long) : (s.store x sz v).a = s.a := by cases sz <;> rfl
@[simp] theorem store_pc (x : Long) (sz : Size) (v : Long) : (s.store x sz v).pc = s.pc := by cases sz <;> rfl
@[simp] theorem store_sr (x : Long) (sz : Size) (v : Long) : (s.store x sz v).sr = s.sr := by cases sz <;> rfl
@[simp] theorem store_run (x : Long) (sz : Size) (v : Long) : (s.store x sz v).run = s.run := by cases sz <;> rfl
@[simp] theorem store_host (x : Long) (sz : Size) (v : Long) : (s.store x sz v).host = s.host := by cases sz <;> rfl
@[simp] theorem store_dreg (x : Long) (sz : Size) (v : Long) (q : Reg) : (s.store x sz v).dreg q = s.dreg q := by
  cases sz <;> rfl
@[simp] theorem store_areg (x : Long) (sz : Size) (v : Long) (q : Reg) : (s.store x sz v).areg q = s.areg q := by
  cases sz <;> rfl
@[simp] theorem store_flagX (x : Long) (sz : Size) (v : Long) : (s.store x sz v).flagX = s.flagX := by cases sz <;> rfl
@[simp] theorem store_flagN (x : Long) (sz : Size) (v : Long) : (s.store x sz v).flagN = s.flagN := by cases sz <;> rfl
@[simp] theorem store_flagZ (x : Long) (sz : Size) (v : Long) : (s.store x sz v).flagZ = s.flagZ := by cases sz <;> rfl
@[simp] theorem store_flagV (x : Long) (sz : Size) (v : Long) : (s.store x sz v).flagV = s.flagV := by cases sz <;> rfl
@[simp] theorem store_flagC (x : Long) (sz : Size) (v : Long) : (s.store x sz v).flagC = s.flagC := by cases sz <;> rfl
@[simp] theorem store_supervisor (x : Long) (sz : Size) (v : Long) : (s.store x sz v).supervisor = s.supervisor := by cases sz <;> rfl

/-! ### advance -/

@[simp] theorem advance_params (h : Option HaltCause) : (s.advance h).params = s.params := by cases h <;> rfl
@[simp] theorem advance_d (h : Option HaltCause) : (s.advance h).d = s.d := by cases h <;> rfl
@[simp] theorem advance_a (h : Option HaltCause) : (s.advance h).a = s.a := by cases h <;> rfl
@[simp] theorem advance_sr (h : Option HaltCause) : (s.advance h).sr = s.sr := by cases h <;> rfl
@[simp] theorem advance_mem (h : Option HaltCause) : (s.advance h).mem = s.mem := by cases h <;> rfl
@[simp] theorem advance_host (h : Option HaltCause) : (s.advance h).host = s.host := by cases h <;> rfl
@[simp] theorem advance_pc (h : Option HaltCause) : (s.advance h).pc = s.pc + 2 := by cases h <;> rfl
@[simp] theorem advance_run_none : (s.advance none).run = s.run := rfl
@[simp] theorem advance_run_some (c : HaltCause) : (s.advance (some c)).run = .halted c := rfl
@[simp] theorem advance_dreg (h : Option HaltCause) (q : Reg) : (s.advance h).dreg q = s.dreg q := by cases h <;> rfl
@[simp] theorem advance_areg (h : Option HaltCause) (q : Reg) : (s.advance h).areg q = s.areg q := by cases h <;> rfl
@[simp] theorem advance_byteAt (h : Option HaltCause) (y : Long) : (s.advance h).byteAt y = s.byteAt y := by cases h <;> rfl
@[simp] theorem advance_flagX (h : Option HaltCause) : (s.advance h).flagX = s.flagX := by cases h <;> rfl
@[simp] theorem advance_flagN (h : Option HaltCause) : (s.advance h).flagN = s.flagN := by cases h <;> rfl
@[simp] theorem advance_flagZ (h : Option HaltCause) : (s.advance h).flagZ = s.flagZ := by cases h <;> rfl
@[simp] theorem advance_flagV (h : Option HaltCause) : (s.advance h).flagV = s.flagV := by cases h <;> rfl
@[simp] theorem advance_flagC (h : Option HaltCause) : (s.advance h).flagC = s.flagC := by cases h <;> rfl
@[simp] theorem advance_supervisor (h : Option HaltCause) : (s.advance h).supervisor = s.supervisor := by cases h <;> rfl

/-! ### takeFault -/

@[simp] theorem takeFault_params (c : FaultCause) (ir : Option Word) : (takeFault s c ir).params = s.params := rfl
@[simp] theorem takeFault_d (c : FaultCause) (ir : Option Word) : (takeFault s c ir).d = s.d := rfl
@[simp] theorem takeFault_a (c : FaultCause) (ir : Option Word) : (takeFault s c ir).a = s.a := rfl
@[simp] theorem takeFault_pc (c : FaultCause) (ir : Option Word) : (takeFault s c ir).pc = s.pc := rfl
@[simp] theorem takeFault_sr (c : FaultCause) (ir : Option Word) : (takeFault s c ir).sr = s.sr := rfl
@[simp] theorem takeFault_mem (c : FaultCause) (ir : Option Word) : (takeFault s c ir).mem = s.mem := rfl
@[simp] theorem takeFault_host (c : FaultCause) (ir : Option Word) : (takeFault s c ir).host = s.host := rfl
@[simp] theorem takeFault_run (c : FaultCause) (ir : Option Word) :
    (takeFault s c ir).run = .faulted { cause := c, pc := s.pc, ir := ir } := rfl

/-! ### Register reads after register writes -/

/-- A data register after a write: the merged value in the register written, 10_state.md R32. -/
theorem writeD_dreg (i : Reg) (sz : Size) (v : Long) (q : Reg) :
    (s.writeD i sz v).dreg q = if q = i then mergeAt sz (s.dreg i) v else s.dreg q := by
  simp only [State.dreg, State.writeD, Vector.getElem_set, ← BitVec.toNat_inj]
  split <;> split <;> simp_all

/-- An address register after a write, R33. -/
theorem writeA_areg (i : Reg) (sz : Size) (v : Long) (q : Reg) :
    (s.writeA i sz v).areg q = if q = i then mergeAt sz (s.areg i) v else s.areg q := by
  simp only [State.areg, State.writeA, Vector.getElem_set, ← BitVec.toNat_inj]
  split <;> split <;> simp_all

@[simp] theorem writeD_dreg_self (i : Reg) (sz : Size) (v : Long) :
    (s.writeD i sz v).dreg i = mergeAt sz (s.dreg i) v := by simp [writeD_dreg]

@[simp] theorem writeD_dreg_ne {i q : Reg} (h : q ≠ i) (sz : Size) (v : Long) :
    (s.writeD i sz v).dreg q = s.dreg q := by simp [writeD_dreg, h]

@[simp] theorem writeA_areg_self (i : Reg) (sz : Size) (v : Long) :
    (s.writeA i sz v).areg i = mergeAt sz (s.areg i) v := by simp [writeA_areg]

@[simp] theorem writeA_areg_ne {i q : Reg} (h : q ≠ i) (sz : Size) (v : Long) :
    (s.writeA i sz v).areg q = s.areg q := by simp [writeA_areg, h]

/-- A long write replaces the register, R32. -/
@[simp] theorem mergeAt_long (old v : Long) : mergeAt .l old v = v := rfl

/-- The register files are equal when their registers are. -/
theorem areg_ext {s t : State} (h : ∀ r, t.areg r = s.areg r) : t.a = s.a := by
  apply Vector.ext
  intro i hi
  have := h (BitVec.ofNat 3 i)
  have hm : i % 8 = i := Nat.mod_eq_of_lt hi
  simpa [State.areg, hm] using this

/-- As `areg_ext`, for the data registers. -/
theorem dreg_ext {s t : State} (h : ∀ r, t.dreg r = s.dreg r) : t.d = s.d := by
  apply Vector.ext
  intro i hi
  have := h (BitVec.ofNat 3 i)
  have hm : i % 8 = i := Nat.mod_eq_of_lt hi
  simpa [State.dreg, hm] using this

end Sys2Proof.Machine
end

