-- ==== Sys2Proof/Laws/Memory.lean ====
section
/-! SUPPORT. The memory list: reading after writing, the canonical form, and its extensionality; then the big-endian
store and load of 20_memory.md R72, R73. -/

namespace Sys2Proof.Machine

/-! ### The list -/

/-- An address below every listed one is unlisted. -/
theorem Memory.read_of_lt {m : Memory} {a : Nat} (h : ∀ c ∈ m, a < c.1) : m.read a = Memory.unlisted := by
  induction m with
  | nil => rfl
  | cons c rest ih =>
    obtain ⟨k, b⟩ := c
    have hk : a < k := h (k, b) (by simp)
    simp only [Memory.read, if_neg (Nat.ne_of_gt hk)]
    exact ih fun c hc => h c (by simp [hc])

/-- A write changes no other address, in any list. -/
theorem Memory.read_write_ne (m : Memory) {a x : Nat} (h : x ≠ a) (v : Byte) : (m.write a v).read x = m.read x := by
  induction m with
  | nil => simp only [Memory.write]; split <;> simp [Memory.read, h.symm]
  | cons c rest ih =>
    obtain ⟨k, b⟩ := c
    simp only [Memory.write]
    split
    · split <;> simp [Memory.read, h.symm]
    · split
      · rename_i hk
        subst hk
        split <;> simp [Memory.read, h.symm]
      · simp [Memory.read, ih]

/-- A write is read back from a sorted list. -/
theorem Memory.read_write_self {m : Memory} (hm : m.Pairwise fun x y => x.1 < y.1) (a : Nat) (v : Byte) :
    (m.write a v).read a = v := by
  induction m with
  | nil => simp only [Memory.write]; split <;> simp_all [Memory.read]
  | cons c rest ih =>
    obtain ⟨k, b⟩ := c
    obtain ⟨hk, hrest⟩ := List.pairwise_cons.1 hm
    simp only [Memory.write]
    split
    · rename_i hlt
      split
      · rename_i hv
        rw [hv]
        refine Memory.read_of_lt fun c hc => ?_
        rcases List.mem_cons.1 hc with rfl | hc
        · exact hlt
        · exact Nat.lt_trans hlt (hk c hc)
      · simp [Memory.read]
    · split
      · rename_i hak
        subst hak
        split
        · rename_i hv
          rw [hv]
          exact Memory.read_of_lt hk
        · simp [Memory.read]
      · rename_i hne
        simp [Memory.read, Ne.symm hne, ih hrest]

/-- The keys of a written list. -/
theorem Memory.mem_write {m : Memory} {a : Nat} {v : Byte} {c : Host.Cell} (h : c ∈ m.write a v) :
    c ∈ m ∨ c = (a, v) := by
  induction m with
  | nil => simp only [Memory.write] at h; split at h <;> simp_all
  | cons d rest ih =>
    obtain ⟨k, b⟩ := d
    simp only [Memory.write] at h
    split at h
    · split at h <;> simp_all; tauto
    · split at h
      · split at h <;> simp_all; tauto
      · rcases List.mem_cons.1 h with rfl | h
        · simp
        · rcases ih h with h | h
          · exact .inl (List.mem_cons_of_mem _ h)
          · exact .inr h

/-- A write keeps the addresses strictly rising. -/
theorem Memory.write_sorted {m : Memory} (hm : m.Pairwise fun x y => x.1 < y.1) (a : Nat) (v : Byte) :
    (m.write a v).Pairwise fun x y => x.1 < y.1 := by
  induction m with
  | nil => simp only [Memory.write]; split <;> simp
  | cons c rest ih =>
    obtain ⟨k, b⟩ := c
    obtain ⟨hk, hrest⟩ := List.pairwise_cons.1 hm
    simp only [Memory.write]
    split
    · rename_i hlt
      split
      · exact hm
      · refine List.pairwise_cons.2 ⟨fun c hc => ?_, hm⟩
        rcases List.mem_cons.1 hc with rfl | hc
        · exact hlt
        · exact Nat.lt_trans hlt (hk c hc)
    · rename_i hge
      split
      · rename_i hak
        subst hak
        split
        · exact hrest
        · exact List.pairwise_cons.2 ⟨hk, hrest⟩
      · rename_i hne
        refine List.pairwise_cons.2 ⟨fun c hc => ?_, ih hrest⟩
        rcases Memory.mem_write hc with hc | rfl
        · exact hk c hc
        · exact Nat.lt_of_le_of_ne (Nat.le_of_not_lt hge) (Ne.symm hne)

/-- A write lists no unlisted value. -/
theorem Memory.write_listed {m : Memory} (hm : ∀ c ∈ m, c.2 ≠ Memory.unlisted) (a : Nat) (v : Byte) :
    ∀ c ∈ m.write a v, c.2 ≠ Memory.unlisted := by
  induction m with
  | nil => intro c hc; simp only [Memory.write] at hc; split at hc <;> simp_all
  | cons d rest ih =>
    obtain ⟨k, b⟩ := d
    have hb : b ≠ Memory.unlisted := hm (k, b) (by simp)
    have hrest : ∀ c ∈ rest, c.2 ≠ Memory.unlisted := fun c hc => hm c (by simp [hc])
    intro c hc
    simp only [Memory.write] at hc
    split at hc
    · split at hc
      · exact hm c hc
      · rcases List.mem_cons.1 hc with rfl | hc
        · assumption
        · exact hm c hc
    · split at hc
      · split at hc
        · exact hrest c hc
        · rcases List.mem_cons.1 hc with rfl | hc
          · assumption
          · exact hrest c hc
      · rcases List.mem_cons.1 hc with rfl | hc
        · exact hb
        · exact ih hrest c hc

/-- Every memory operation keeps the canonical form: the one writing operation does. -/
theorem Memory.write_wf {m : Memory} (hm : m.wf) (a : Nat) (v : Byte) : (m.write a v).wf :=
  ⟨Memory.write_sorted hm.1 a v, Memory.write_listed hm.2 a v⟩

/-- Reading after a write. -/
theorem Memory.read_write {m : Memory} (hm : m.wf) (a : Nat) (v : Byte) (x : Nat) :
    (m.write a v).read x = if x = a then v else m.read x := by
  split
  · rename_i h
    rw [h]
    exact Memory.read_write_self hm.1 a v
  · rename_i h
    exact Memory.read_write_ne m h v

/-- A canonical list is determined by what it reads as: equal memories are equal data. -/
theorem Memory.ext {m n : Memory} (hm : m.wf) (hn : n.wf) (h : ∀ a, m.read a = n.read a) : m = n := by
  induction m generalizing n with
  | nil =>
    cases n with
    | nil => rfl
    | cons d rest =>
      obtain ⟨k, b⟩ := d
      exact absurd (by simpa [Memory.read] using (h k).symm) (hn.2 (k, b) (by simp))
  | cons c rest ih =>
    obtain ⟨k, b⟩ := c
    cases n with
    | nil => exact absurd (by simpa [Memory.read] using h k) (hm.2 (k, b) (by simp))
    | cons d rest' =>
      obtain ⟨k', b'⟩ := d
      obtain ⟨hk, hs⟩ := List.pairwise_cons.1 hm.1
      obtain ⟨hk', hs'⟩ := List.pairwise_cons.1 hn.1
      have hb : b ≠ Memory.unlisted := hm.2 (k, b) (by simp)
      have hb' : b' ≠ Memory.unlisted := hn.2 (k', b') (by simp)
      have hkk : k = k' := by
        rcases Nat.lt_trichotomy k k' with hlt | heq | hgt
        · have := h k
          rw [Memory.read_of_lt (m := (k', b') :: rest') fun c hc => by
            rcases List.mem_cons.1 hc with rfl | hc
            · exact hlt
            · exact Nat.lt_trans hlt (hk' c hc)] at this
          exact absurd (by simpa [Memory.read] using this) hb
        · exact heq
        · have := (h k').symm
          rw [Memory.read_of_lt (m := (k, b) :: rest) fun c hc => by
            rcases List.mem_cons.1 hc with rfl | hc
            · exact hgt
            · exact Nat.lt_trans hgt (hk c hc)] at this
          exact absurd (by simpa [Memory.read] using this) hb'
      subst hkk
      have hbb : b = b' := by simpa [Memory.read] using h k
      subst hbb
      have : rest = rest' := by
        refine ih ⟨hs, fun c hc => hm.2 c (by simp [hc])⟩ ⟨hs', fun c hc => hn.2 c (by simp [hc])⟩ fun a => ?_
        rcases eq_or_ne k a with rfl | hne
        · rw [Memory.read_of_lt hk, Memory.read_of_lt hk']
        · simpa [Memory.read, hne] using h a
      rw [this]

/-- The host's fill is canonical, 20_memory.md R77. -/
theorem Memory.fill_wf (n : Nat) (v : Byte) : (Memory.fill n v).wf := by
  induction n with
  | zero => exact ⟨List.Pairwise.nil, by simp [Memory.fill]⟩
  | succ k ih => exact Memory.write_wf ih k v

/-- The host's fill sets every byte below its size, 20_memory.md R77. -/
theorem Memory.read_fill (n : Nat) (v : Byte) (x : Nat) :
    (Memory.fill n v).read x = if x < n then v else Memory.unlisted := by
  induction n with
  | zero => rfl
  | succ k ih =>
    rw [Memory.fill, Memory.read_write (Memory.fill_wf k v), ih]
    split <;> split <;> first | rfl | (split <;> first | rfl | omega) | omega

/-! ### The byte array -/

theorem setByte_byteAt_ne (s : State) {x y : Long} (h : y ≠ x) (v : Byte) : (s.setByte x v).byteAt y = s.byteAt y :=
  Memory.read_write_ne _ (fun e => h (BitVec.eq_of_toNat_eq e)) v

theorem setByte_byteAt_self {s : State} (hm : s.mem.wf) (x : Long) (v : Byte) : (s.setByte x v).byteAt x = v :=
  Memory.read_write_self hm.1 _ v

theorem setByte_wf {s : State} (hm : s.mem.wf) (x : Long) (v : Byte) : (s.setByte x v).mem.wf :=
  Memory.write_wf hm _ v

/-- A store keeps the canonical form. -/
theorem store_wf {s : State} (hm : s.mem.wf) (a : Long) (sz : Size) (v : Long) : (s.store a sz v).mem.wf := by
  cases sz
  · exact setByte_wf hm _ _
  · exact setByte_wf (setByte_wf hm _ _) _ _
  · exact setByte_wf (setByte_wf (setByte_wf (setByte_wf hm _ _) _ _) _ _) _ _

end Sys2Proof.Machine
end

