-- ==== Sys2Proof/Laws/Port.lean ====
section
/-! SUPPORT. The memory port and the fetch operations: what a store leaves, when an access answers and with what, and
what consuming extension words does. -/

namespace Sys2Proof.Machine

/-! ### The result type -/

/-- A sequence of two operations answers when both do. -/
theorem bind_eq_ok {ε α β : Type} {x : Except ε α} {f : α → Except ε β} {b : β} :
    x >>= f = .ok b ↔ ∃ a, x = .ok a ∧ f a = .ok b := by
  cases x <;> simp [bind, Except.bind]

/-- A sequence of two operations fails when the first does, or the second after the first. -/
theorem bind_eq_error {ε α β : Type} {x : Except ε α} {f : α → Except ε β} {e : ε} :
    x >>= f = .error e ↔ x = .error e ∨ ∃ a, x = .ok a ∧ f a = .error e := by
  cases x <;> simp [bind, Except.bind]

@[simp] theorem ok_bind {ε α β : Type} (a : α) (f : α → Except ε β) : (Except.ok a >>= f) = f a := rfl

@[simp] theorem error_bind {ε α β : Type} (e : ε) (f : α → Except ε β) : (Except.error e >>= f) = .error e := rfl

/-! ### Store and load -/

/-- A store of width sz leaves its bytes, the most significant first, and every other byte, 20_memory.md R73. -/
theorem store_stored {s : State} (hm : s.mem.wf) (a : Long) (sz : Size) (v : Long) : Stored s (s.store a sz v) a sz v := by
  have h10 : ∀ b : Long, b + 1#32 ≠ b := fun b => by bv_omega
  have h20 : ∀ b : Long, b + 2#32 ≠ b := fun b => by bv_omega
  have h30 : ∀ b : Long, b + 3#32 ≠ b := fun b => by bv_omega
  have h21 : ∀ b : Long, b + 2#32 ≠ b + 1#32 := fun b => by bv_omega
  have h31 : ∀ b : Long, b + 3#32 ≠ b + 1#32 := fun b => by bv_omega
  have h32 : ∀ b : Long, b + 3#32 ≠ b + 2#32 := fun b => by bv_omega
  cases sz
  · refine ⟨fun k hk => ?_, fun x hx => ?_⟩
    · obtain rfl : k = 0 := by simpa [Size.bytes] using hk
      simp [State.store, Size.bytes, setByte_byteAt_self hm]
    · have h0 : x ≠ a := by simpa using hx 0 (by simp [Size.bytes])
      simp [State.store, setByte_byteAt_ne _ h0]
  · refine ⟨fun k hk => ?_, fun x hx => ?_⟩
    · have hm1 := setByte_wf hm a (v.extractLsb' 8 8)
      obtain rfl | rfl : k = 0 ∨ k = 1 := by simp only [Size.bytes] at hk; omega
      · simp [State.store, Size.bytes, setByte_byteAt_ne _ (h10 a).symm, setByte_byteAt_self hm]
      · simp [State.store, Size.bytes, setByte_byteAt_self hm1]
    · have h0 : x ≠ a := by simpa using hx 0 (by simp [Size.bytes])
      have h1 : x ≠ a + 1#32 := by simpa using hx 1 (by simp [Size.bytes])
      simp [State.store, setByte_byteAt_ne _ h0, setByte_byteAt_ne _ h1]
  · refine ⟨fun k hk => ?_, fun x hx => ?_⟩
    · have hm1 := setByte_wf hm a (v.extractLsb' 24 8)
      have hm2 := setByte_wf hm1 (a + 1#32) (v.extractLsb' 16 8)
      have hm3 := setByte_wf hm2 (a + 2#32) (v.extractLsb' 8 8)
      obtain rfl | rfl | rfl | rfl : k = 0 ∨ k = 1 ∨ k = 2 ∨ k = 3 := by simp only [Size.bytes] at hk; omega
      · simp [State.store, Size.bytes, setByte_byteAt_ne _ (h10 a).symm, setByte_byteAt_ne _ (h20 a).symm,
          setByte_byteAt_ne _ (h30 a).symm, setByte_byteAt_self hm]
      · simp [State.store, Size.bytes, setByte_byteAt_ne _ (h21 a).symm, setByte_byteAt_ne _ (h31 a).symm,
          setByte_byteAt_self hm1]
      · simp [State.store, Size.bytes, setByte_byteAt_ne _ (h32 a).symm, setByte_byteAt_self hm2]
      · simp [State.store, Size.bytes, setByte_byteAt_self hm3]
    · have h0 : x ≠ a := by simpa using hx 0 (by simp [Size.bytes])
      have h1 : x ≠ a + 1#32 := by simpa using hx 1 (by simp [Size.bytes])
      have h2 : x ≠ a + 2#32 := by simpa using hx 2 (by simp [Size.bytes])
      have h3 : x ≠ a + 3#32 := by simpa using hx 3 (by simp [Size.bytes])
      simp [State.store, setByte_byteAt_ne _ h0, setByte_byteAt_ne _ h1, setByte_byteAt_ne _ h2, setByte_byteAt_ne _ h3]

/-- A store leaves every byte outside its own, in any memory list. -/
theorem store_outside (s : State) (a : Long) (sz : Size) (v : Long) : MemSameOutside s (s.store a sz v) a sz.bytes := by
  intro x hx
  cases sz
  · have h0 : x ≠ a := by simpa using hx 0 (by simp [Size.bytes])
    simp [State.store, setByte_byteAt_ne _ h0]
  · have h0 : x ≠ a := by simpa using hx 0 (by simp [Size.bytes])
    have h1 : x ≠ a + 1#32 := by simpa using hx 1 (by simp [Size.bytes])
    simp [State.store, setByte_byteAt_ne _ h0, setByte_byteAt_ne _ h1]
  · have h0 : x ≠ a := by simpa using hx 0 (by simp [Size.bytes])
    have h1 : x ≠ a + 1#32 := by simpa using hx 1 (by simp [Size.bytes])
    have h2 : x ≠ a + 2#32 := by simpa using hx 2 (by simp [Size.bytes])
    have h3 : x ≠ a + 3#32 := by simpa using hx 3 (by simp [Size.bytes])
    simp [State.store, setByte_byteAt_ne _ h0, setByte_byteAt_ne _ h1, setByte_byteAt_ne _ h2, setByte_byteAt_ne _ h3]

/-- A load reads the same where the bytes read the same. -/
theorem load_congr {s t : State} (h : ∀ x, t.byteAt x = s.byteAt x) (a : Long) (sz : Size) : t.load a sz = s.load a sz := by
  cases sz <;> simp [State.load, h]

/-- A loaded value is at its width. -/
theorem atWidth_load (s : State) (a : Long) (sz : Size) : atWidth sz (s.load a sz) = s.load a sz := by
  cases sz
  · simp only [atWidth, Size.mask, State.load, zextByte]; ext i hi; simp; intro h; interval_cases i <;> simp_all
  · simp only [atWidth, Size.mask, State.load, zextWord]; ext i hi; simp; intro h; interval_cases i <;> simp_all
  · simp only [atWidth, Size.mask]; exact BitVec.and_allOnes

/-! ### Accesses -/

/-- When an access answers, 20_memory.md R75, R78. -/
theorem checkAccess_ok (s : State) (a : Long) (sz : Size) : s.checkAccess a sz = .ok () ↔ Fits s a sz := by
  simp only [State.checkAccess]
  split
  · rename_i h; simp [h]
  · split
    · rename_i h1 h2; simp; intro _; omega
    · rename_i h1 h2; simp only [true_iff]; exact ⟨h1, by omega⟩

theorem checkAccess_of_fits {s : State} {a : Long} {sz : Size} (h : Fits s a sz) : s.checkAccess a sz = .ok () :=
  (checkAccess_ok s a sz).2 h

/-- How an access fails. -/
theorem checkAccess_error {s : State} {a : Long} {sz : Size} {e : Stop} (h : s.checkAccess a sz = .error e) :
    (e = .raise (.addressError a sz) ∧ s.params.alignmentFault = true ∧ sz ≠ .b ∧ a.toNat % 2 = 1) ∨
      (e = .raise (.outOfBounds a sz) ∧ s.params.memSize < a.toNat + sz.bytes) := by
  simp only [State.checkAccess] at h
  split at h
  · rename_i hc; exact .inl ⟨by simpa using h.symm, hc⟩
  · split at h
    · rename_i hc; exact .inr ⟨by simpa using h.symm, hc⟩
    · simp at h

/-- A read answers the loaded value exactly when the access fits. -/
theorem memRead_ok {s : State} {a : Long} {sz : Size} {v : Long} :
    memRead s a sz = .ok v ↔ Fits s a sz ∧ v = s.load a sz := by
  simp only [memRead, bind_eq_ok, pure, Except.pure, Except.ok.injEq]
  constructor
  · rintro ⟨⟨⟩, h1, h2⟩; exact ⟨(checkAccess_ok _ _ _).1 h1, h2.symm⟩
  · rintro ⟨h1, h2⟩; exact ⟨(), checkAccess_of_fits h1, h2.symm⟩

theorem memRead_of_fits {s : State} {a : Long} {sz : Size} (h : Fits s a sz) : memRead s a sz = .ok (s.load a sz) :=
  memRead_ok.2 ⟨h, rfl⟩

theorem memRead_error {s : State} {a : Long} {sz : Size} {e : Stop} :
    memRead s a sz = .error e ↔ s.checkAccess a sz = .error e := by
  simp only [memRead, bind_eq_error]
  constructor
  · rintro (h | ⟨_, _, h⟩)
    · exact h
    · simp [pure, Except.pure] at h
  · exact .inl

/-- A write answers the stored state exactly when the access fits. -/
theorem memWrite_ok {s t : State} {a : Long} {sz : Size} {v : Long} :
    memWrite s a sz v = .ok t ↔ Fits s a sz ∧ t = s.store a sz v := by
  simp only [memWrite, bind_eq_ok, pure, Except.pure, Except.ok.injEq]
  constructor
  · rintro ⟨⟨⟩, h1, h2⟩; exact ⟨(checkAccess_ok _ _ _).1 h1, h2.symm⟩
  · rintro ⟨h1, h2⟩; exact ⟨(), checkAccess_of_fits h1, h2.symm⟩

theorem memWrite_of_fits {s : State} {a : Long} {sz : Size} (h : Fits s a sz) (v : Long) :
    memWrite s a sz v = .ok (s.store a sz v) := memWrite_ok.2 ⟨h, rfl⟩

theorem memWrite_error {s : State} {a : Long} {sz : Size} {v : Long} {e : Stop} :
    memWrite s a sz v = .error e ↔ s.checkAccess a sz = .error e := by
  simp only [memWrite, bind_eq_error]
  constructor
  · rintro (h | ⟨_, _, h⟩)
    · exact h
    · simp [pure, Except.pure] at h
  · exact .inl

/-- An access fits by the parameters alone. -/
theorem fits_congr {s t : State} (h : t.params = s.params) (a : Long) (sz : Size) : Fits t a sz ↔ Fits s a sz := by
  simp only [Fits, h]

/-! ### Fetch -/

/-- Consuming an extension word only moves PC, 40_sequencer.md R155. -/
theorem nextExt_ok {s t : State} : nextExt s = .ok t ↔ Fits s (s.pc + 2) .w ∧ t = s.setPc (s.pc + 2) := by
  simp only [nextExt, bind_eq_ok, memRead_ok, pure, Except.pure, Except.ok.injEq]
  constructor
  · rintro ⟨_, ⟨h, _⟩, ht⟩; exact ⟨h, ht.symm⟩
  · rintro ⟨h, ht⟩; exact ⟨_, ⟨h, rfl⟩, ht.symm⟩

theorem nextExt_error {s : State} {e : Stop} : nextExt s = .error e ↔ s.checkAccess (s.pc + 2) .w = .error e := by
  simp only [nextExt, bind_eq_error, memRead_error]
  constructor
  · rintro (h | ⟨_, _, h⟩)
    · exact h
    · simp [pure, Except.pure] at h
  · exact .inl

theorem nextExt_of_fits {s : State} (h : Fits s (s.pc + 2) .w) : nextExt s = .ok (s.setPc (s.pc + 2)) :=
  nextExt_ok.2 ⟨h, rfl⟩

/-- Consuming a 32-bit extension, R156. -/
theorem nextExt32_ok {s t : State} :
    nextExt32 s = .ok t ↔ Fits s (s.pc + 2) .w ∧ Fits s (s.pc + 4) .w ∧ t = s.setPc (s.pc + 4) := by
  have h4 : s.pc + 2 + 2 = s.pc + 4 := by bv_omega
  simp only [nextExt32, bind_eq_ok, nextExt_ok]
  constructor
  · rintro ⟨_, ⟨h1, rfl⟩, h2, rfl⟩
    simp only [setPc_pc, h4] at h2 ⊢
    exact ⟨h1, h2, rfl⟩
  · rintro ⟨h1, h2, rfl⟩
    exact ⟨_, ⟨h1, rfl⟩, by rw [setPc_pc, h4]; exact h2, by rw [setPc_pc, h4]; rfl⟩

theorem nextExt32_of_fits {s : State} (h1 : Fits s (s.pc + 2) .w) (h2 : Fits s (s.pc + 4) .w) :
    nextExt32 s = .ok (s.setPc (s.pc + 4)) := nextExt32_ok.2 ⟨h1, h2, rfl⟩

theorem nextExt32_error {s : State} {e : Stop} (h : nextExt32 s = .error e) : ∃ a, s.checkAccess a .w = .error e := by
  simp only [nextExt32, bind_eq_error, nextExt_error, nextExt_ok] at h
  rcases h with h | ⟨t, ⟨_, rfl⟩, h⟩
  · exact ⟨_, h⟩
  · exact ⟨_, h⟩

/-- The opcode fetch, R151. -/
theorem fetchOpcode_ok {s : State} {ir : Word} :
    fetchOpcode s = .ok ir ↔ Fits s s.pc .w ∧ ir = s.byteAt s.pc ++ s.byteAt (s.pc + 1) := by
  have hz : ∀ w : Word, (zextWord w).setWidth 16 = w := fun w => by simp [zextWord]
  simp only [fetchOpcode, bind_eq_ok, memRead_ok, pure, Except.pure, Except.ok.injEq]
  constructor
  · rintro ⟨_, ⟨h, rfl⟩, rfl⟩; exact ⟨h, hz _⟩
  · rintro ⟨h, rfl⟩; exact ⟨_, ⟨h, rfl⟩, hz _⟩

theorem fetchOpcode_error {s : State} {e : Stop} : fetchOpcode s = .error e ↔ s.checkAccess s.pc .w = .error e := by
  simp only [fetchOpcode, bind_eq_error, memRead_error]
  constructor
  · rintro (h | ⟨_, _, h⟩)
    · exact h
    · simp [pure, Except.pure] at h
  · exact .inl

end Sys2Proof.Machine
end

