-- ==== Sys2Proof/Laws/Operands.lean ====
section
/-! SUPPORT. The resolver and the operand operations: one lemma each that says everything they can do, in the terms of
Safety.lean. -/

namespace Sys2Proof.Machine

/-- The location of a form, from the state at the start of the cycle. -/
def eaLoc (s : State) (sz : Size) (use : Use) (ea : EA) : Loc :=
  match ea, eaAddr s sz use ea with
  | .dn r, _ => .dreg r
  | .an r, _ => .areg r
  | .imm v, _ => .imm v
  | _, some a => .mem a
  | _, none => .imm 0

/-! ### Extension words -/

@[simp] theorem extFits_zero (s : State) : ExtFits s 0 := fun _ h => absurd h (Nat.not_lt_zero _)

theorem extFits_one (s : State) : ExtFits s 1 ↔ Fits s (s.pc + 2) .w :=
  ⟨fun h => h 0 Nat.one_pos, fun h k hk => by obtain rfl : k = 0 := by omega
                                              exact h⟩

theorem extFits_two (s : State) : ExtFits s 2 ↔ Fits s (s.pc + 2) .w ∧ Fits s (s.pc + 4) .w :=
  ⟨fun h => ⟨h 0 (by decide), h 1 (by decide)⟩, fun h k hk => by
    obtain rfl | rfl : k = 0 ∨ k = 1 := by omega
    · exact h.1
    · exact h.2⟩

/-- Extension words of two parts of an instruction, the second after the first m words. -/
theorem extFits_add (s : State) (m n : Nat) :
    ExtFits s (m + n) ↔ ExtFits s m ∧ ExtFits (s.setPc (s.pc + BitVec.ofNat 32 (2 * m))) n := by
  have key : ∀ k, s.pc + BitVec.ofNat 32 (2 * m) + BitVec.ofNat 32 (2 * (k + 1))
      = s.pc + BitVec.ofNat 32 (2 * (m + k + 1)) := fun k => by
    rw [BitVec.add_assoc, ← BitVec.ofNat_add]; congr 2; omega
  constructor
  · intro h
    refine ⟨fun k hk => h k (by omega), fun k hk => ?_⟩
    have := h (m + k) (by omega)
    rw [setPc_pc, key]; exact this
  · rintro ⟨h1, h2⟩ k hk
    by_cases hkm : k < m
    · exact h1 k hkm
    · have := h2 (k - m) (by omega)
      rw [setPc_pc, key] at this
      have e : m + (k - m) = k := by omega
      rw [e] at this; exact this

theorem setPc_self (s : State) : s.setPc s.pc = s := rfl

theorem setPc_add_zero (s : State) : s.setPc (s.pc + 0#32) = s := by rw [BitVec.add_zero]; rfl

/-- Moving PC by no words from the PC of `s` changes nothing in a state at that PC. -/
theorem setPc_zero (s t : State) (h : t.pc = s.pc) : t.setPc (s.pc + BitVec.ofNat 32 (2 * 0)) = t := by
  rw [← h]; exact setPc_add_zero t

/-! ### Merging at a width, 10_state.md R32 -/

theorem mergeAt_low (sz : Size) (old v : Long) : (mergeAt sz old v).setWidth sz.bits = v.setWidth sz.bits := by
  apply BitVec.eq_of_getLsbD_eq
  intro j hj
  cases sz <;> simp only [Size.bits] at hj
  · rw [mergeAt, Size.bits, BitVec.getLsbD_setWidth, BitVec.getLsbD_setWidth, BitVec.getLsbD_append, if_pos hj,
      BitVec.getLsbD_extractLsb', Nat.zero_add]
    simp [hj]
  · rw [mergeAt, Size.bits, BitVec.getLsbD_setWidth, BitVec.getLsbD_setWidth, BitVec.getLsbD_append, if_pos hj,
      BitVec.getLsbD_extractLsb', Nat.zero_add]
    simp [hj]
  · rfl

theorem mergeAt_high (sz : Size) (old v : Long) {j : Nat} (hj : sz.bits ≤ j) :
    (mergeAt sz old v).getLsbD j = old.getLsbD j := by
  by_cases h32 : j < 32
  · cases sz <;> simp only [Size.bits] at hj
    · rw [mergeAt, BitVec.getLsbD_append, if_neg (by omega), BitVec.getLsbD_extractLsb',
        show 8 + (j - 8) = j by omega, decide_eq_true (by omega), Bool.true_and]
    · rw [mergeAt, BitVec.getLsbD_append, if_neg (by omega), BitVec.getLsbD_extractLsb',
        show 16 + (j - 16) = j by omega, decide_eq_true (by omega), Bool.true_and]
    · omega
  · rw [BitVec.getLsbD_of_ge _ _ (by omega), BitVec.getLsbD_of_ge _ _ (by omega)]

/-- A write of a data register, in the terms of Safety.lean. -/
theorem writeD_written (s : State) (r : Reg) (sz : Size) (v : Long) : DWritten s (s.writeD r sz v) r sz v :=
  ⟨by rw [writeD_dreg_self, mergeAt_low], fun j hj => by rw [writeD_dreg_self, mergeAt_high _ _ _ hj],
    fun q hq => writeD_dreg_ne s hq sz v⟩

/-- A write of an address register, in the terms of Safety.lean. -/
theorem writeA_written (s : State) (r : Reg) (v : Long) : AWritten s (s.writeA r .l v) r v :=
  ⟨by rw [writeA_areg_self, mergeAt_long], fun q hq => writeA_areg_ne s hq .l v⟩

/-! ### The resolver -/

/-- Everything `resolve` can answer: it answers exactly when the extension words of the form can be read, with the
location of Safety's `eaAddr`, the stepped register, and PC on the last extension word. -/
theorem resolve_ok {ea : EA} {sz : Size} {use : Use} {s t : State} {loc : Loc} :
    resolve ea sz use s = .ok (loc, t) ↔
      ExtFits s (ea.words sz) ∧ loc = eaLoc s sz use ea ∧
        t = (stepEA s sz ea).setPc (s.pc + BitVec.ofNat 32 (2 * ea.words sz)) := by
  cases ea with
  | dn r =>
    simp only [resolve, eaLoc, stepEA, Except.ok.injEq, Prod.mk.injEq]
    constructor
    · rintro ⟨rfl, rfl⟩; exact ⟨extFits_zero s, rfl, (setPc_zero s _ (by rfl)).symm⟩
    · rintro ⟨-, rfl, rfl⟩; exact ⟨rfl, (setPc_zero s _ (by rfl)).symm⟩
  | an r =>
    simp only [resolve, eaLoc, stepEA, Except.ok.injEq, Prod.mk.injEq]
    constructor
    · rintro ⟨rfl, rfl⟩; exact ⟨extFits_zero s, rfl, (setPc_zero s _ (by rfl)).symm⟩
    · rintro ⟨-, rfl, rfl⟩; exact ⟨rfl, (setPc_zero s _ (by rfl)).symm⟩
  | ind r =>
    simp only [resolve, eaLoc, eaAddr, stepEA, Except.ok.injEq, Prod.mk.injEq]
    constructor
    · rintro ⟨rfl, rfl⟩; exact ⟨extFits_zero s, rfl, (setPc_zero s _ (by rfl)).symm⟩
    · rintro ⟨-, rfl, rfl⟩; exact ⟨rfl, (setPc_zero s _ (by rfl)).symm⟩
  | postinc r =>
    simp only [resolve, eaLoc, eaAddr, stepEA, Except.ok.injEq, Prod.mk.injEq]
    constructor
    · rintro ⟨rfl, rfl⟩; exact ⟨extFits_zero s, rfl, (setPc_zero s _ (by rfl)).symm⟩
    · rintro ⟨-, rfl, rfl⟩; exact ⟨rfl, (setPc_zero s _ (by rfl)).symm⟩
  | predec r =>
    simp only [resolve, eaLoc, eaAddr, stepEA, Except.ok.injEq, Prod.mk.injEq]
    constructor
    · rintro ⟨rfl, rfl⟩; exact ⟨extFits_zero s, rfl, (setPc_zero s _ (by rfl)).symm⟩
    · rintro ⟨-, rfl, rfl⟩; exact ⟨rfl, (setPc_zero s _ (by rfl)).symm⟩
  | disp r d =>
    simp only [resolve, bind_eq_ok, nextExt_ok, EA.words, EA.extWords, eaLoc, eaAddr, stepEA, List.length_singleton,
      extFits_one, pure, Except.pure, Except.ok.injEq, Prod.mk.injEq]
    constructor
    · rintro ⟨_, ⟨h, rfl⟩, rfl, rfl⟩; exact ⟨h, rfl, rfl⟩
    · rintro ⟨h, rfl, rfl⟩; exact ⟨_, ⟨h, rfl⟩, rfl, rfl⟩
  | index r x =>
    simp only [resolve, bind_eq_ok, nextExt_ok, EA.words, EA.extWords, eaLoc, eaAddr, stepEA, List.length_singleton,
      extFits_one, pure, Except.pure, Except.ok.injEq, Prod.mk.injEq]
    constructor
    · rintro ⟨_, ⟨h, rfl⟩, rfl, rfl⟩; exact ⟨h, rfl, rfl⟩
    · rintro ⟨h, rfl, rfl⟩; exact ⟨_, ⟨h, rfl⟩, rfl, rfl⟩
  | absW a =>
    simp only [resolve, bind_eq_ok, nextExt_ok, EA.words, EA.extWords, eaLoc, eaAddr, stepEA, List.length_singleton,
      extFits_one, pure, Except.pure, Except.ok.injEq, Prod.mk.injEq]
    constructor
    · rintro ⟨_, ⟨h, rfl⟩, rfl, rfl⟩; exact ⟨h, rfl, rfl⟩
    · rintro ⟨h, rfl, rfl⟩; exact ⟨_, ⟨h, rfl⟩, rfl, rfl⟩
  | absL a =>
    simp only [resolve, bind_eq_ok, nextExt32_ok, EA.words, EA.extWords, wordsOfLong, eaLoc, eaAddr, stepEA,
      List.length_cons, List.length_nil, extFits_two, pure, Except.pure, Except.ok.injEq, Prod.mk.injEq]
    constructor
    · rintro ⟨_, ⟨h1, h2, rfl⟩, rfl, rfl⟩; exact ⟨⟨h1, h2⟩, rfl, rfl⟩
    · rintro ⟨⟨h1, h2⟩, rfl, rfl⟩; exact ⟨_, ⟨h1, h2, rfl⟩, rfl, rfl⟩
  | pcDisp d =>
    simp only [resolve, bind_eq_ok, nextExt_ok, EA.words, EA.extWords, eaLoc, eaAddr, stepEA, List.length_singleton,
      extFits_one, pure, Except.pure, Except.ok.injEq, Prod.mk.injEq]
    constructor
    · rintro ⟨_, ⟨h, rfl⟩, rfl, rfl⟩; exact ⟨h, rfl, rfl⟩
    · rintro ⟨h, rfl, rfl⟩; exact ⟨_, ⟨h, rfl⟩, rfl, rfl⟩
  | pcIndex x =>
    simp only [resolve, bind_eq_ok, nextExt_ok, EA.words, EA.extWords, eaLoc, eaAddr, stepEA, List.length_singleton,
      extFits_one, pure, Except.pure, Except.ok.injEq, Prod.mk.injEq]
    constructor
    · rintro ⟨_, ⟨h, rfl⟩, rfl, rfl⟩; exact ⟨h, rfl, rfl⟩
    · rintro ⟨h, rfl, rfl⟩; exact ⟨_, ⟨h, rfl⟩, rfl, rfl⟩
  | imm v =>
    by_cases hl : sz = .l
    · simp only [resolve, hl, if_true, bind_eq_ok, nextExt32_ok, EA.words, EA.extWords, wordsOfLong, eaLoc, stepEA,
        List.length_cons, List.length_nil, extFits_two, pure, Except.pure, Except.ok.injEq, Prod.mk.injEq]
      constructor
      · rintro ⟨_, ⟨h1, h2, rfl⟩, rfl, rfl⟩; exact ⟨⟨h1, h2⟩, rfl, rfl⟩
      · rintro ⟨⟨h1, h2⟩, rfl, rfl⟩; exact ⟨_, ⟨h1, h2, rfl⟩, rfl, rfl⟩
    · simp only [resolve, hl, if_false, bind_eq_ok, nextExt_ok, EA.words, EA.extWords, eaLoc, stepEA,
        List.length_singleton, extFits_one, pure, Except.pure, Except.ok.injEq, Prod.mk.injEq]
      constructor
      · rintro ⟨_, ⟨h, rfl⟩, rfl, rfl⟩; exact ⟨h, rfl, rfl⟩
      · rintro ⟨h, rfl, rfl⟩; exact ⟨_, ⟨h, rfl⟩, rfl, rfl⟩

/-- `resolve` fails only by the failing access of an extension word. -/
theorem resolve_error {ea : EA} {sz : Size} {use : Use} {s : State} {e : Stop} (h : resolve ea sz use s = .error e) :
    ∃ a, s.checkAccess a .w = .error e := by
  cases ea <;>
    simp only [resolve, bind_eq_error, nextExt_error, pure, Except.pure, reduceCtorEq, and_false, exists_false,
      or_false] at h
  case absL => exact nextExt32_error h
  case imm =>
    split at h <;> simp only [bind_eq_error, reduceCtorEq, and_false, exists_false, or_false] at h
    · exact nextExt32_error h
    · exact ⟨_, nextExt_error.1 h⟩
  all_goals exact ⟨_, h⟩

/-! ### The step of a form -/

/-- A step of a form changes address registers only. -/
@[simp] theorem stepEA_params (s : State) (sz : Size) (ea : EA) : (stepEA s sz ea).params = s.params := by cases ea <;> rfl
@[simp] theorem stepEA_d (s : State) (sz : Size) (ea : EA) : (stepEA s sz ea).d = s.d := by cases ea <;> rfl
@[simp] theorem stepEA_pc (s : State) (sz : Size) (ea : EA) : (stepEA s sz ea).pc = s.pc := by cases ea <;> rfl
@[simp] theorem stepEA_sr (s : State) (sz : Size) (ea : EA) : (stepEA s sz ea).sr = s.sr := by cases ea <;> rfl
@[simp] theorem stepEA_run (s : State) (sz : Size) (ea : EA) : (stepEA s sz ea).run = s.run := by cases ea <;> rfl
@[simp] theorem stepEA_mem (s : State) (sz : Size) (ea : EA) : (stepEA s sz ea).mem = s.mem := by cases ea <;> rfl
@[simp] theorem stepEA_host (s : State) (sz : Size) (ea : EA) : (stepEA s sz ea).host = s.host := by cases ea <;> rfl
@[simp] theorem stepEA_dreg (s : State) (sz : Size) (ea : EA) (q : Reg) : (stepEA s sz ea).dreg q = s.dreg q := by
  cases ea <;> rfl
@[simp] theorem stepEA_byteAt (s : State) (sz : Size) (ea : EA) (y : Long) : (stepEA s sz ea).byteAt y = s.byteAt y := by
  cases ea <;> rfl
@[simp] theorem stepEA_load (s : State) (sz : Size) (ea : EA) (y : Long) (n : Size) :
    (stepEA s sz ea).load y n = s.load y n := by cases ea <;> rfl
@[simp] theorem stepEA_flagX (s : State) (sz : Size) (ea : EA) : (stepEA s sz ea).flagX = s.flagX := by cases ea <;> rfl

/-- The address registers a form does not step. -/
theorem stepEA_areg_ne (s : State) (sz : Size) {ea : EA} {q : Reg} (h : ea.stepped ≠ some q) :
    (stepEA s sz ea).areg q = s.areg q := by
  cases ea with
  | postinc r => exact writeA_areg_ne s (fun e => h (by simp [EA.stepped, e])) _ _
  | predec r => exact writeA_areg_ne s (fun e => h (by simp [EA.stepped, e])) _ _
  | _ => rfl

/-! ### Reading and writing -/

/-- The value `readOp` gives for the location of a legal operand is Safety's `eaValue`, 41_effective_address.md R197. -/
theorem readOp_eaLoc {ea : EA} {sz : Size} {s t : State} (hf : ea.immFits sz = true) (hd : ∀ r, t.dreg r = s.dreg r)
    (ha : ea.isMem = false → ∀ r, t.areg r = s.areg r) (hp : t.params = s.params)
    (hm : ∀ x, t.byteAt x = s.byteAt x) (v : Long) :
    readOp (eaLoc s sz .data ea) sz t = .ok v ↔ EaFits s sz ea ∧ v = eaValue s sz ea := by
  cases ea with
  | dn r => simp [eaLoc, readOp, eaValue, EaFits, eaAddr, hd, eq_comm]
  | an r => simp [eaLoc, readOp, eaValue, EaFits, eaAddr, ha rfl, eq_comm]
  | imm w =>
    have hw : atWidth sz w = w := by
      cases sz
      · simp only [EA.immFits, decide_eq_true_eq] at hf
        apply BitVec.eq_of_toNat_eq
        simp only [atWidth, Size.mask, BitVec.toNat_and]
        exact (Nat.and_two_pow_sub_one_eq_mod w.toNat 8).trans (Nat.mod_eq_of_lt hf)
      · simp only [EA.immFits, decide_eq_true_eq] at hf
        apply BitVec.eq_of_toNat_eq
        simp only [atWidth, Size.mask, BitVec.toNat_and]
        exact (Nat.and_two_pow_sub_one_eq_mod w.toNat 16).trans (Nat.mod_eq_of_lt hf)
      · exact BitVec.and_allOnes
    simp [eaLoc, readOp, eaValue, EaFits, eaAddr, hw, eq_comm]
  | _ => simp [eaLoc, readOp, eaValue, EaFits, eaAddr, memRead_ok, fits_congr hp, load_congr hm]

/-- Everything `fetchOperand` can answer for a legal operand. -/
theorem fetchOperand_ok {ea : EA} {sz : Size} {s t : State} {v : Long} (hf : ea.immFits sz = true) :
    fetchOperand ea sz s = .ok (v, t) ↔
      (ExtFits s (ea.words sz) ∧ EaFits s sz ea) ∧ v = eaValue s sz ea ∧
        t = (stepEA s sz ea).setPc (s.pc + BitVec.ofNat 32 (2 * ea.words sz)) := by
  have hread : ∀ v, readOp (eaLoc s sz .data ea) sz ((stepEA s sz ea).setPc (s.pc + BitVec.ofNat 32 (2 * ea.words sz)))
      = .ok v ↔ EaFits s sz ea ∧ v = eaValue s sz ea := fun v =>
    readOp_eaLoc hf (fun r => by simp) (fun h r => by
      rw [setPc_areg, stepEA_areg_ne]; cases ea <;> simp_all [EA.isMem, EA.stepped]) (by simp) (fun x => by simp) v
  simp only [fetchOperand, bind_eq_ok, Prod.exists, resolve_ok, pure, Except.pure, Except.ok.injEq, Prod.mk.injEq]
  constructor
  · rintro ⟨_, _, ⟨h1, rfl, rfl⟩, v', hv, rfl, rfl⟩
    have := (hread _).1 hv
    exact ⟨⟨h1, this.1⟩, this.2, rfl⟩
  · rintro ⟨⟨h1, h2⟩, rfl, rfl⟩
    exact ⟨_, _, ⟨h1, rfl, rfl⟩, _, (hread _).2 ⟨h2, rfl⟩, rfl, rfl⟩

/-- `readOp` fails only by a failing access. -/
theorem readOp_error {loc : Loc} {sz : Size} {s : State} {e : Stop} (h : readOp loc sz s = .error e) :
    ∃ a, s.checkAccess a sz = .error e := by
  cases loc <;> simp only [readOp, memRead_error, reduceCtorEq] at h
  exact ⟨_, h⟩

/-- A failing access fails the same way in a state with the same parameters. -/
theorem checkAccess_congr {s t : State} (h : t.params = s.params) (a : Long) (sz : Size) :
    t.checkAccess a sz = s.checkAccess a sz := by simp only [State.checkAccess, h]

/-- `fetchOperand` fails only by a failing access. -/
theorem fetchOperand_error {ea : EA} {sz : Size} {s : State} {e : Stop} (h : fetchOperand ea sz s = .error e) :
    ∃ a n, s.checkAccess a n = .error e := by
  simp only [fetchOperand, bind_eq_error, Prod.exists, pure, Except.pure, reduceCtorEq, and_false, exists_false,
    or_false] at h
  rcases h with h | ⟨loc, t, ht, h⟩
  · obtain ⟨a, h⟩ := resolve_error h; exact ⟨a, _, h⟩
  · obtain ⟨a, h⟩ := readOp_error h
    rw [(resolve_ok.1 ht).2.2] at h
    exact ⟨a, _, (checkAccess_congr (by simp) a sz).symm.trans h⟩

/-- What `fetchOperand` leaves alone, for any operand. -/
theorem fetchOperand_frame {ea : EA} {sz : Size} {s t : State} {v : Long} (h : fetchOperand ea sz s = .ok (v, t)) :
    t = (stepEA s sz ea).setPc (s.pc + BitVec.ofNat 32 (2 * ea.words sz)) := by
  simp only [fetchOperand, bind_eq_ok, Prod.exists, resolve_ok, pure, Except.pure, Except.ok.injEq, Prod.mk.injEq] at h
  obtain ⟨_, _, ⟨_, _, rfl⟩, _, _, _, rfl⟩ := h
  rfl

/-- Everything `writeOp` can answer: a register written, or a store that fits. -/
theorem writeOp_cases {loc : Loc} {sz : Size} {v : Long} {s t : State} (h : writeOp loc sz v s = .ok t) :
    (∃ r, loc = .dreg r ∧ t = s.writeD r sz v) ∨ (∃ r, loc = .areg r ∧ t = s.writeA r sz v) ∨
      ∃ a, loc = .mem a ∧ Fits s a sz ∧ t = s.store a sz v := by
  cases loc with
  | dreg r => exact .inl ⟨r, rfl, by simpa [writeOp, eq_comm] using h⟩
  | areg r => exact .inr (.inl ⟨r, rfl, by simpa [writeOp, eq_comm] using h⟩)
  | mem a => exact .inr (.inr ⟨a, rfl, memWrite_ok.1 h⟩)
  | imm v => simp [writeOp] at h

/-- `writeOp` fails by a failing access, or on an immediate. -/
theorem writeOp_error {loc : Loc} {sz : Size} {v : Long} {s : State} {e : Stop} (h : writeOp loc sz v s = .error e) :
    (∃ a, s.checkAccess a sz = .error e) ∨ e = .raise .illegalAddressingMode := by
  cases loc with
  | mem a => exact .inl ⟨a, memWrite_error.1 h⟩
  | imm v => exact .inr (by simpa [writeOp, eq_comm] using h)
  | _ => simp [writeOp] at h

/-- A write to the location of a data-alterable form: the register, or the store at Safety's address. -/
theorem writeOp_eaLoc_mem {ea : EA} {u : State} {sz : Size} (hmem : ea.isMem = true) (v : Long) (s t : State) :
    writeOp (eaLoc u sz .data ea) sz v s = .ok t ↔
      ∃ a, eaAddr u sz .data ea = some a ∧ Fits s a sz ∧ t = s.store a sz v := by
  cases ea <;> simp_all [EA.isMem, eaLoc, eaAddr, writeOp, memWrite_ok]

end Sys2Proof.Machine
end

