-- ==== Sys2Proof/Laws/Flags.lean ====
section
/-! SUPPORT. The flag write and the flags of each ALU operation, in the terms of Safety.lean: the operands at their own
width, signed overflow and borrow. -/

namespace Sys2Proof.Machine

/-! ### The flag write, 42_alu.md R237 -/

variable (s : State) (f : Flags)

theorem getLsbD_snoc_zero {w : Nat} (x : BitVec w) (b : Bool) : (x ++ BitVec.ofBool b).getLsbD 0 = b := by
  rw [BitVec.getLsbD_append]; cases b <;> rfl

theorem getLsbD_snoc_succ {w : Nat} (x : BitVec w) (b : Bool) (k : Nat) :
    (x ++ BitVec.ofBool b).getLsbD (k + 1) = x.getLsbD k := by
  rw [BitVec.getLsbD_append, if_neg (by omega), Nat.add_sub_cancel]

@[simp] theorem setFlags_flagC : (s.setFlags f).flagC = f.c := getLsbD_snoc_zero _ _
@[simp] theorem setFlags_flagV : (s.setFlags f).flagV = f.v := by
  simp only [State.flagV, State.setFlags]; rw [getLsbD_snoc_succ _ _ 0, getLsbD_snoc_zero]
@[simp] theorem setFlags_flagZ : (s.setFlags f).flagZ = f.z := by
  simp only [State.flagZ, State.setFlags]; rw [getLsbD_snoc_succ _ _ 1, getLsbD_snoc_succ _ _ 0, getLsbD_snoc_zero]
@[simp] theorem setFlags_flagN : (s.setFlags f).flagN = f.n := by
  simp only [State.flagN, State.setFlags]
  rw [getLsbD_snoc_succ _ _ 2, getLsbD_snoc_succ _ _ 1, getLsbD_snoc_succ _ _ 0, getLsbD_snoc_zero]
@[simp] theorem setFlags_flagX : (s.setFlags f).flagX = f.x.getD s.flagX := by
  rw [State.flagX, State.setFlags]
  rw [getLsbD_snoc_succ _ _ 3, getLsbD_snoc_succ _ _ 2, getLsbD_snoc_succ _ _ 1, getLsbD_snoc_succ _ _ 0,
    getLsbD_snoc_zero]

/-- SR[15:5] keeps its value. -/
theorem setFlags_high : (s.setFlags f).sr.extractLsb' 5 11 = s.sr.extractLsb' 5 11 := by
  ext i hi
  rw [BitVec.getElem_extractLsb', State.setFlags, show 5 + i = i + 4 + 1 by omega, getLsbD_snoc_succ, getLsbD_snoc_succ,
    getLsbD_snoc_succ, getLsbD_snoc_succ, getLsbD_snoc_succ, BitVec.getLsbD_eq_getElem hi]

@[simp] theorem setFlags_supervisor : (s.setFlags f).supervisor = s.supervisor := by
  have h := congrArg (·.getLsbD 8) (setFlags_high s f)
  simpa [State.supervisor, BitVec.getLsbD_extractLsb'] using h

/-- The unimplemented bits keep their value. -/
theorem setFlags_reserved : (s.setFlags f).sr &&& ~~~srMask = s.sr &&& ~~~srMask := by
  have h := setFlags_high s f
  have key : ∀ x : Word, x &&& ~~~srMask = (x.extractLsb' 5 11 &&& 0x2C7#11) ++ 0#5 := by
    intro x
    have e : ~~~srMask = (0x2C7#11 : BitVec 11) ++ 0#5 := by decide
    have hx : x = x.extractLsb' 5 11 ++ x.extractLsb' 0 5 := by
      apply BitVec.eq_of_getLsbD_eq
      intro i hi
      rw [BitVec.getLsbD_append]
      split
      · rename_i h5; simp [h5]
      · rw [BitVec.getLsbD_extractLsb', show 5 + (i - 5) = i by omega]; simp; omega
    rw [e]
    conv_lhs => rw [hx]
    rw [BitVec.and_append]; simp
  rw [key, key, h]

/-! ### Widths -/

theorem setWidth_atWidth (sz : Size) (v : Long) : (atWidth sz v).setWidth sz.bits = v.setWidth sz.bits := by
  apply BitVec.eq_of_toNat_eq
  have h (n : Nat) : (v.toNat &&& (2 ^ n - 1)) % 2 ^ n = v.toNat % 2 ^ n := by rw [Nat.and_two_pow_sub_one_eq_mod, Nat.mod_mod]
  cases sz <;> simp only [atWidth, Size.mask, Size.bits, BitVec.toNat_and, BitVec.toNat_setWidth]
  · exact h 8
  · exact h 16
  · exact h 32

/-- The sign at a width is the sign of the value cut to that width. -/
theorem msbAt_eq (sz : Size) (v : Long) : msbAt sz v = (v.setWidth sz.bits).msb := by
  cases sz <;> simp [msbAt, Size.bits, BitVec.msb_eq_getLsbD_last]

@[simp] theorem msbAt_atWidth (sz : Size) (v : Long) : msbAt sz (atWidth sz v) = msbAt sz v := by
  simp only [msbAt_eq, setWidth_atWidth]

/-- A value at a width is 0 exactly when its low bits are. -/
theorem atWidth_beq_zero (sz : Size) (v : Long) : (atWidth sz v == 0) = (v.setWidth sz.bits == 0) := by
  rw [Bool.eq_iff_iff, beq_iff_eq, beq_iff_eq]
  constructor
  · intro h; rw [← setWidth_atWidth, h]; simp
  · intro h
    apply BitVec.eq_of_toNat_eq
    have h' := congrArg BitVec.toNat h
    cases sz
    · simp only [atWidth, Size.mask, Size.bits, BitVec.toNat_and, BitVec.toNat_setWidth] at *
      exact (Nat.and_two_pow_sub_one_eq_mod v.toNat 8).trans h'
    · simp only [atWidth, Size.mask, Size.bits, BitVec.toNat_and, BitVec.toNat_setWidth] at *
      exact (Nat.and_two_pow_sub_one_eq_mod v.toNat 16).trans h'
    · simp only [atWidth, Size.mask, Size.bits, BitVec.toNat_and, BitVec.toNat_setWidth] at *
      exact (Nat.and_two_pow_sub_one_eq_mod v.toNat 32).trans h'

theorem setWidth_add (sz : Size) (a b : Long) :
    (a + b).setWidth sz.bits = a.setWidth sz.bits + b.setWidth sz.bits :=
  BitVec.setWidth_add _ _ (by cases sz <;> decide)

theorem setWidth_sub (sz : Size) (a b : Long) :
    (a - b).setWidth sz.bits = a.setWidth sz.bits - b.setWidth sz.bits := by
  have h := setWidth_add sz (a - b) b
  rw [BitVec.sub_add_cancel] at h
  rw [h, BitVec.add_sub_cancel]

/-! ### The operations -/

/-- The flags are those of any state with the same SR. -/
theorem flagsAre_congr {t u : State} (h : t.sr = u.sr) : FlagsAre t u.flagX u.flagN u.flagZ u.flagV u.flagC := by
  simp only [FlagsAre, State.flagX, State.flagN, State.flagZ, State.flagV, State.flagC, h, and_self]

/-- The sum of `addOp` at its width, 42_alu.md R222. -/
theorem addOp_sum (sz : Size) (src dst : Long) :
    ((addOp sz src dst).1).setWidth sz.bits = src.setWidth sz.bits + dst.setWidth sz.bits := by
  rw [addOp, setWidth_atWidth, setWidth_add]

/-- The flags that `addOp` leaves in a state whose SR it was written to. -/
theorem addFlagsAre_of {s t : State} {sz : Size} {src dst : Long}
    (h : t.sr = (s.setFlags (addOp sz src dst).2).sr) : AddFlagsAre t sz src dst := by
  have hf := flagsAre_congr (t := t) (u := s.setFlags (addOp sz src dst).2) h
  simp only [setFlags_flagX, setFlags_flagN, setFlags_flagZ, setFlags_flagV, setFlags_flagC, addOp, msbAt_atWidth,
    atWidth_beq_zero, Option.getD_some] at hf
  simp only [msbAt_eq, setWidth_add] at hf
  exact hf

/-- The overflow rule of subtraction is signed overflow, and its carry rule the unsigned borrow, R231, R232. -/
theorem sub_rules {n : Nat} (hn : 0 < n) (a b : BitVec n) :
    ((a.msb != b.msb && (b - a).msb != b.msb) = decide ((b - a).toInt ≠ b.toInt - a.toInt)) ∧
      (((a.msb && !b.msb) || ((b - a).msb && !b.msb) || (a.msb && (b - a).msb)) = decide (b.toNat < a.toNat)) := by
  have ha := a.isLt
  have hb := b.isLt
  have hp : 2 ^ n = 2 * 2 ^ (n - 1) := by rw [← Nat.pow_succ']; congr 1; omega
  have hc : (b.toNat < a.toNat ∧ (b - a).toNat = 2 ^ n - a.toNat + b.toNat) ∨
      (¬ b.toNat < a.toNat ∧ (b - a).toNat = b.toNat - a.toNat) := by
    rw [BitVec.toNat_sub]
    by_cases h : b.toNat < a.toNat
    · exact .inl ⟨h, Nat.mod_eq_of_lt (by omega)⟩
    · refine .inr ⟨h, ?_⟩
      rw [show 2 ^ n - a.toNat + b.toNat = (b.toNat - a.toNat) + 2 ^ n by omega, Nat.add_mod_right,
        Nat.mod_eq_of_lt (by omega)]
  refine ⟨?_, ?_⟩ <;> rw [Bool.eq_iff_iff] <;>
    simp only [BitVec.msb_eq_decide, BitVec.toInt_eq_toNat_cond, Bool.and_eq_true, Bool.or_eq_true, bne_iff_ne, ne_eq,
      decide_eq_decide, decide_eq_true_eq, Bool.not_eq_true', decide_eq_false_iff_not]
  · generalize (b - a).toNat = z at *
    generalize a.toNat = x at *
    generalize b.toNat = y at *
    generalize 2 ^ (n - 1) = p at *
    generalize 2 ^ n = q at *
    split <;> split <;> split <;> omega
  · omega

/-- The flags that `cmpOp` leaves in a state whose SR it was written to. -/
theorem cmpFlagsAre_of {s t u : State} {sz : Size} {src dst : Long} (h : t.sr = (u.setFlags (cmpOp sz src dst)).sr)
    (hu : u.flagX = s.flagX) : CmpFlagsAre s t sz src dst := by
  have hf := flagsAre_congr (t := t) (u := u.setFlags (cmpOp sz src dst)) h
  simp only [setFlags_flagX, setFlags_flagN, setFlags_flagZ, setFlags_flagV, setFlags_flagC, cmpOp, msbAt_atWidth,
    atWidth_beq_zero, Option.getD_none] at hf
  simp only [msbAt_eq, setWidth_sub] at hf
  obtain ⟨hx, hn, hz, hv, hc⟩ := hf
  have hr := sub_rules (by cases sz <;> decide) (src.setWidth sz.bits) (dst.setWidth sz.bits)
  refine ⟨hx.trans hu, hn, ?_, hv.trans hr.1, hc.trans hr.2⟩
  rw [hz, Bool.eq_iff_iff, beq_iff_eq, beq_iff_eq]
  exact sub_eq_zero

end Sys2Proof.Machine
end

