-- ==== Sys2Proof/Laws/Cycle.lean ====
section
/-! SUPPORT. What a cycle can do: every `exec` as the end of a cycle over one execute phase, what each execute phase
answers, and what no execute phase changes. -/

namespace Sys2Proof.Machine

/-! ### The end of a cycle -/

/-- A cycle has a next state in two ways: its execute phase succeeds, or it raises a fault. -/
theorem endCycle_next {ir : Word} {s t : State} {r : Except Stop (State × Option HaltCause)} :
    endCycle ir s r = .next t ↔
      (∃ u h, r = .ok (u, h) ∧ t = u.advance h) ∨ ∃ c, r = .error (.raise c) ∧ t = takeFault s c (some ir) := by
  rcases r with (c | w) | ⟨u, h⟩ <;> simp [endCycle, eq_comm]

/-- A cycle has no next state only when its execute phase never ends. -/
theorem endCycle_fault {ir : Word} {s : State} {w : Fault} {r : Except Stop (State × Option HaltCause)} :
    endCycle ir s r = .fault w ↔ r = .error (.stuck w) := by
  rcases r with (c | w) | ⟨u, h⟩ <;> simp [endCycle]

theorem endCycle_ne_refused (ir : Word) (s : State) (r : Except Stop (State × Option HaltCause)) (x : Refusal) :
    endCycle ir s r ≠ .refused x := by
  rcases r with (c | w) | ⟨u, h⟩ <;> simp [endCycle]

/-- An execute phase without a halt request. -/
def plain (r : Except Stop State) : Except Stop (State × Option HaltCause) := r.map fun t => (t, none)

@[simp] theorem plain_ok {r : Except Stop State} {u : State} {h : Option HaltCause} :
    plain r = .ok (u, h) ↔ r = .ok u ∧ h = none := by
  cases r <;> simp [plain, Except.map, eq_comm]

@[simp] theorem plain_error {r : Except Stop State} {e : Stop} : plain r = .error e ↔ r = .error e := by
  cases r <;> simp [plain, Except.map]

/-- A cycle whose execute phase succeeds. -/
theorem runCycle_ok {i : Instr} {s u : State} {body : State → Except Stop State} (h : body s = .ok u) :
    runCycle i s body = .next (u.advance none) := by simp [runCycle, h, Except.map, endCycle]

/-- A cycle whose execute phase raises a fault. -/
theorem runCycle_raise {i : Instr} {s : State} {c : FaultCause} {body : State → Except Stop State}
    (h : body s = .error (.raise c)) : runCycle i s body = .next (takeFault s c (some (opcodeWord i))) := by
  simp [runCycle, h, Except.map, endCycle]

/-! ### The execute phase of each instruction -/

/-- The execute phase of an instruction. -/
def execute (s : State) : Instr → Except Stop (State × Option HaltCause)
  | .moveaL src an => plain (movea .l src an s)
  | .moveaW src an => plain (movea .w src an s)
  | .moveB src dst => plain (move .b src dst s)
  | .moveL src dst => plain (move .l src dst s)
  | .moveW src dst => plain (move .w src dst s)
  | .addiB imm dst => plain (addi .b (zextByte imm) dst s)
  | .addiW imm dst => plain (addi .w (zextWord imm) dst s)
  | .addiL imm dst => plain (addi .l imm dst s)
  | .clrB dst => plain (clr .b dst s)
  | .clrW dst => plain (clr .w dst s)
  | .clrL dst => plain (clr .l dst s)
  | .rts => plain (returnSub s)
  | .stop k => stop k s
  | .trap15 => trap15 s
  | .jmp ea => plain (jump ea s)
  | .addqB q dst => plain (addq .b q dst s)
  | .addqW q dst => plain (addq .w q dst s)
  | .addqL q dst => plain (addq .l q dst s)
  | .bra d => plain (branch .t d s)
  | .bsr d => plain (branchSub d s)
  | .bhi d => plain (branch .hi d s)
  | .bls d => plain (branch .ls d s)
  | .bcc d => plain (branch .cc d s)
  | .bcs d => plain (branch .cs d s)
  | .bne d => plain (branch .ne d s)
  | .beq d => plain (branch .eq d s)
  | .bvc d => plain (branch .vc d s)
  | .bvs d => plain (branch .vs d s)
  | .bpl d => plain (branch .pl d s)
  | .bmi d => plain (branch .mi d s)
  | .bge d => plain (branch .ge d s)
  | .blt d => plain (branch .lt d s)
  | .bgt d => plain (branch .gt d s)
  | .ble d => plain (branch .le d s)
  | .cmpB src dn => plain (cmp .b src dn s)
  | .cmpW src dn => plain (cmp .w src dn s)
  | .cmpL src dn => plain (cmp .l src dn s)
  | .cmpaW src an => plain (cmpa .w src an s)
  | .cmpaL src an => plain (cmpa .l src an s)
  | .addEaDnB src dn => plain (addEaDn .b src dn s)
  | .addEaDnW src dn => plain (addEaDn .w src dn s)
  | .addEaDnL src dn => plain (addEaDn .l src dn s)
  | .addDnEaB dn dst => plain (addDnEa .b dn dst s)
  | .addDnEaW dn dst => plain (addDnEa .w dn dst s)
  | .addDnEaL dn dst => plain (addDnEa .l dn dst s)
  | .addaW src an => plain (adda .w src an s)
  | .addaL src an => plain (adda .l src an s)

/-- Every meaning is the end of a cycle over its execute phase. -/
theorem exec_eq (i : Instr) (s : State) : exec i s = endCycle (opcodeWord i) s (execute s i) := by
  cases i <;> rfl

/-! ### What each execute phase answers -/

/-- The state after the words and the step of an operand. -/
def afterEA (s : State) (sz : Size) (ea : EA) : State :=
  (stepEA s sz ea).setPc (s.pc + BitVec.ofNat 32 (2 * ea.words sz))

@[simp] theorem afterEA_params (s : State) (sz : Size) (ea : EA) : (afterEA s sz ea).params = s.params := by simp [afterEA]
@[simp] theorem afterEA_d (s : State) (sz : Size) (ea : EA) : (afterEA s sz ea).d = s.d := by simp [afterEA]
@[simp] theorem afterEA_a (s : State) (sz : Size) (ea : EA) : (afterEA s sz ea).a = (stepEA s sz ea).a := by simp [afterEA]
@[simp] theorem afterEA_pc (s : State) (sz : Size) (ea : EA) :
    (afterEA s sz ea).pc = s.pc + BitVec.ofNat 32 (2 * ea.words sz) := rfl
@[simp] theorem afterEA_sr (s : State) (sz : Size) (ea : EA) : (afterEA s sz ea).sr = s.sr := by simp [afterEA]
@[simp] theorem afterEA_run (s : State) (sz : Size) (ea : EA) : (afterEA s sz ea).run = s.run := by simp [afterEA]
@[simp] theorem afterEA_mem (s : State) (sz : Size) (ea : EA) : (afterEA s sz ea).mem = s.mem := by simp [afterEA]
@[simp] theorem afterEA_host (s : State) (sz : Size) (ea : EA) : (afterEA s sz ea).host = s.host := by simp [afterEA]
@[simp] theorem afterEA_dreg (s : State) (sz : Size) (ea : EA) (r : Reg) : (afterEA s sz ea).dreg r = s.dreg r := by
  simp [afterEA]
@[simp] theorem afterEA_areg (s : State) (sz : Size) (ea : EA) (r : Reg) :
    (afterEA s sz ea).areg r = (stepEA s sz ea).areg r := by simp [afterEA]
@[simp] theorem afterEA_byteAt (s : State) (sz : Size) (ea : EA) (x : Long) : (afterEA s sz ea).byteAt x = s.byteAt x := by
  simp [afterEA]
@[simp] theorem afterEA_flagX (s : State) (sz : Size) (ea : EA) : (afterEA s sz ea).flagX = s.flagX := by simp [afterEA]

theorem addEaDn_ok {sz : Size} {src : EA} {dn : Reg} {s u : State} :
    addEaDn sz src dn s = .ok u ↔ ∃ v, fetchOperand src sz s = .ok (v, afterEA s sz src) ∧
      u = ((afterEA s sz src).writeD dn sz (addOp sz v (atWidth sz (s.dreg dn))).1).setFlags
        (addOp sz v (atWidth sz (s.dreg dn))).2 := by
  simp only [addEaDn, bind_eq_ok, Prod.exists, pure, Except.pure, Except.ok.injEq]
  constructor
  · rintro ⟨v, t, h, rfl⟩
    obtain rfl : t = afterEA s sz src := fetchOperand_frame h
    exact ⟨v, h, by simp⟩
  · rintro ⟨v, h, rfl⟩; exact ⟨v, _, h, by simp⟩

theorem adda_ok {sz : Size} {src : EA} {an : Reg} {s u : State} :
    adda sz src an s = .ok u ↔ ∃ v, fetchOperand src sz s = .ok (v, afterEA s sz src) ∧
      u = (afterEA s sz src).writeA an .l (addrSource sz v + (stepEA s sz src).areg an) := by
  simp only [adda, addrAdd, bind_eq_ok, Prod.exists, pure, Except.pure, Except.ok.injEq]
  constructor
  · rintro ⟨v, t, h, rfl⟩
    obtain rfl : t = afterEA s sz src := fetchOperand_frame h
    exact ⟨v, h, by simp⟩
  · rintro ⟨v, h, rfl⟩; exact ⟨v, _, h, by simp⟩

theorem movea_ok {sz : Size} {src : EA} {an : Reg} {s u : State} :
    movea sz src an s = .ok u ↔ ∃ v, fetchOperand src sz s = .ok (v, afterEA s sz src) ∧
      u = (afterEA s sz src).writeA an .l (addrSource sz v) := by
  simp only [movea, bind_eq_ok, Prod.exists, pure, Except.pure, Except.ok.injEq]
  constructor
  · rintro ⟨v, t, h, rfl⟩
    obtain rfl : t = afterEA s sz src := fetchOperand_frame h
    exact ⟨v, h, rfl⟩
  · rintro ⟨v, h, rfl⟩; exact ⟨v, _, h, rfl⟩

theorem cmp_ok {sz : Size} {src : EA} {dn : Reg} {s u : State} :
    cmp sz src dn s = .ok u ↔ ∃ v, fetchOperand src sz s = .ok (v, afterEA s sz src) ∧
      u = (afterEA s sz src).setFlags (cmpOp sz v (atWidth sz (s.dreg dn))) := by
  simp only [cmp, bind_eq_ok, Prod.exists, pure, Except.pure, Except.ok.injEq]
  constructor
  · rintro ⟨v, t, h, rfl⟩
    obtain rfl : t = afterEA s sz src := fetchOperand_frame h
    exact ⟨v, h, by simp⟩
  · rintro ⟨v, h, rfl⟩; exact ⟨v, _, h, by simp⟩

theorem cmpa_ok {sz : Size} {src : EA} {an : Reg} {s u : State} :
    cmpa sz src an s = .ok u ↔ ∃ v, fetchOperand src sz s = .ok (v, afterEA s sz src) ∧
      u = (afterEA s sz src).setFlags (cmpOp .l (addrSource sz v) ((stepEA s sz src).areg an)) := by
  simp only [cmpa, bind_eq_ok, Prod.exists, pure, Except.pure, Except.ok.injEq]
  constructor
  · rintro ⟨v, t, h, rfl⟩
    obtain rfl : t = afterEA s sz src := fetchOperand_frame h
    exact ⟨v, h, by simp⟩
  · rintro ⟨v, h, rfl⟩; exact ⟨v, _, h, by simp⟩

theorem clr_ok {sz : Size} {dst : EA} {s u : State} :
    clr sz dst s = .ok u ↔ ExtFits s (dst.words sz) ∧
      ∃ w, writeOp (eaLoc s sz .data dst) sz 0 (afterEA s sz dst) = .ok w ∧ u = w.setFlags clearFlags := by
  simp only [clr, bind_eq_ok, Prod.exists, resolve_ok, pure, Except.pure, Except.ok.injEq]
  constructor
  · rintro ⟨loc, t, ⟨he, rfl, rfl⟩, w, hw, rfl⟩; exact ⟨he, w, hw, rfl⟩
  · rintro ⟨he, w, hw, rfl⟩; exact ⟨_, _, ⟨he, rfl, rfl⟩, w, hw, rfl⟩

theorem addToOperand_ok {sz : Size} {src : State → Long} {dst : EA} {s u : State} :
    addToOperand sz src dst s = .ok u ↔ ExtFits s (dst.words sz) ∧
      ∃ v, readOp (eaLoc s sz .data dst) sz (afterEA s sz dst) = .ok v ∧
        ∃ w, writeOp (eaLoc s sz .data dst) sz (addOp sz (src (afterEA s sz dst)) v).1 (afterEA s sz dst) = .ok w ∧
          u = w.setFlags (addOp sz (src (afterEA s sz dst)) v).2 := by
  simp only [addToOperand, bind_eq_ok, Prod.exists, resolve_ok, pure, Except.pure, Except.ok.injEq]
  constructor
  · rintro ⟨loc, t, ⟨he, rfl, rfl⟩, v, hv, w, hw, rfl⟩; exact ⟨he, v, hv, w, hw, rfl⟩
  · rintro ⟨he, v, hv, w, hw, rfl⟩; exact ⟨_, _, ⟨he, rfl, rfl⟩, v, hv, w, hw, rfl⟩

/-- The number of words of ADDI's immediate, 30_encoding.md R113. -/
abbrev immWords (sz : Size) : Nat := if sz = .l then 2 else 1

theorem addi_ok {sz : Size} {imm : Long} {dst : EA} {s u : State} :
    addi sz imm dst s = .ok u ↔ ExtFits s (immWords sz) ∧
      addToOperand sz (fun _ => imm) dst (s.setPc (s.pc + BitVec.ofNat 32 (2 * immWords sz))) = .ok u := by
  by_cases h : sz = .l
  · simp only [addi, h, if_true, bind_eq_ok, nextExt32_ok, immWords, extFits_two]
    constructor
    · rintro ⟨_, ⟨h1, h2, rfl⟩, h3⟩; exact ⟨⟨h1, h2⟩, h3⟩
    · rintro ⟨⟨h1, h2⟩, h3⟩; exact ⟨_, ⟨h1, h2, rfl⟩, h3⟩
  · simp only [addi, h, if_false, bind_eq_ok, nextExt_ok, immWords, extFits_one]
    constructor
    · rintro ⟨_, ⟨h1, rfl⟩, h3⟩; exact ⟨h1, h3⟩
    · rintro ⟨h1, h3⟩; exact ⟨_, ⟨h1, rfl⟩, h3⟩

theorem addq_eq {sz : Size} {q : BitVec 3} {dst : EA} (h : ∀ r, dst ≠ .an r) (s : State) :
    addq sz q dst s = addToOperand sz (fun _ => quickValue q) dst s := by
  cases dst <;> first | rfl | exact absurd rfl (h _)

theorem move_ok {sz : Size} {src dst : EA} {s u : State} :
    move sz src dst s = .ok u ↔ ∃ v, fetchOperand src sz s = .ok (v, afterEA s sz src) ∧
      ExtFits (afterEA s sz src) (dst.words sz) ∧
        ∃ w, writeOp (eaLoc (afterEA s sz src) sz .data dst) sz v (afterEA (afterEA s sz src) sz dst) = .ok w ∧
          u = w.setFlags (moveTest sz v) := by
  simp only [move, bind_eq_ok, Prod.exists, resolve_ok, pure, Except.pure, Except.ok.injEq]
  constructor
  · rintro ⟨v, t, h, loc, t', ⟨he, rfl, rfl⟩, w, hw, rfl⟩
    obtain rfl : t = afterEA s sz src := fetchOperand_frame h
    exact ⟨v, h, he, w, hw, rfl⟩
  · rintro ⟨v, h, he, w, hw, rfl⟩; exact ⟨v, _, h, _, _, ⟨he, rfl, rfl⟩, w, hw, rfl⟩

theorem branchTarget_ok {d : Disp} {s u : State} {t : Long} :
    branchTarget d s = .ok (t, u) ↔ ExtFits s d.words ∧ t = s.pc + 2 + d.value ∧
      u = s.setPc (s.pc + BitVec.ofNat 32 (2 * d.words)) := by
  cases d with
  | short d8 =>
    simp only [branchTarget, Disp.value, Except.ok.injEq, Prod.mk.injEq]
    constructor
    · rintro ⟨rfl, rfl⟩; exact ⟨extFits_zero s, rfl, (setPc_zero s s rfl).symm⟩
    · rintro ⟨-, rfl, rfl⟩; exact ⟨rfl, (setPc_zero s s rfl).symm⟩
  | word d16 =>
    simp only [branchTarget, Disp.value, Disp.words, Disp.extWords, List.length_singleton, extFits_one, bind_eq_ok,
      nextExt_ok, pure, Except.pure, Except.ok.injEq, Prod.mk.injEq]
    constructor
    · rintro ⟨_, ⟨h, rfl⟩, rfl, rfl⟩; exact ⟨h, rfl, rfl⟩
    · rintro ⟨h, rfl, rfl⟩; exact ⟨_, ⟨h, rfl⟩, rfl, rfl⟩

theorem branch_ok {c : Cond} {d : Disp} {s u : State} :
    branch c d s = .ok u ↔ ExtFits s d.words ∧
      u = s.setPc (if condHolds s c then s.pc + 2 + d.value - 2 else s.pc + BitVec.ofNat 32 (2 * d.words)) := by
  simp only [branch, bind_eq_ok, Prod.exists, branchTarget_ok, pure, Except.pure, Except.ok.injEq]
  constructor
  · rintro ⟨_, _, ⟨h, rfl, rfl⟩, rfl⟩; refine ⟨h, ?_⟩; split <;> rfl
  · rintro ⟨h, rfl⟩; refine ⟨_, _, ⟨h, rfl, rfl⟩, ?_⟩; split <;> rfl

theorem branchSub_ok {d : Disp} {s u : State} :
    branchSub d s = .ok u ↔ ExtFits s d.words ∧ Fits s (s.areg spNum - 2) .w ∧
      u = (((s.setPc (s.pc + BitVec.ofNat 32 (2 * d.words))).writeA spNum .l (s.areg spNum - 2)).store
        (s.areg spNum - 2) .w (s.pc + BitVec.ofNat 32 (2 * d.words))).setTarget (s.pc + 2 + d.value) := by
  simp only [branchSub, bind_eq_ok, Prod.exists, branchTarget_ok, memWrite_ok, pure, Except.pure, Except.ok.injEq]
  constructor
  · rintro ⟨_, _, ⟨h, rfl, rfl⟩, _, ⟨h2, rfl⟩, rfl⟩; exact ⟨h, h2, rfl⟩
  · rintro ⟨h, h2, rfl⟩; exact ⟨_, _, ⟨h, rfl, rfl⟩, _, ⟨h2, rfl⟩, rfl⟩

theorem returnSub_ok {s u : State} :
    returnSub s = .ok u ↔ Fits s (s.areg spNum) .w ∧
      u = (s.writeA spNum .l (s.areg spNum + 2)).setTarget (s.load (s.areg spNum) .w + 2) := by
  simp only [returnSub, bind_eq_ok, memRead_ok, pure, Except.pure, Except.ok.injEq]
  constructor
  · rintro ⟨_, ⟨h, rfl⟩, rfl⟩; exact ⟨h, rfl⟩
  · rintro ⟨h, rfl⟩; exact ⟨_, ⟨h, rfl⟩, rfl⟩

theorem jump_ok {ea : EA} {s u : State} :
    jump ea s = .ok u ↔ ExtFits s (ea.words .l) ∧ ∃ a, eaLoc s .l .jump ea = .mem a ∧
      u = (afterEA s .l ea).setTarget a := by
  simp only [jump, controlAddr, bind_eq_ok, Prod.exists, resolve_ok, pure, Except.pure, Except.ok.injEq]
  constructor
  · rintro ⟨a, t, ⟨loc, t', ⟨he, rfl, rfl⟩, hm⟩, rfl⟩
    cases hl : eaLoc s .l .jump ea with
    | mem b =>
      rw [hl] at hm
      simp only [Except.ok.injEq, Prod.mk.injEq] at hm
      obtain ⟨rfl, rfl⟩ := hm
      exact ⟨he, b, rfl, rfl⟩
    | _ => rw [hl] at hm; simp [throw, throwThe, MonadExceptOf.throw] at hm
  · rintro ⟨he, a, hl, rfl⟩
    exact ⟨a, _, ⟨_, _, ⟨he, rfl, rfl⟩, by rw [hl]; rfl⟩, rfl⟩

theorem stop_ok {k : Word} {s u : State} {h : Option HaltCause} :
    stop k s = .ok (u, h) ↔ s.supervisor = true ∧ Fits s (s.pc + 2) .w ∧
      u = { s.setPc (s.pc + 2) with sr := k &&& srMask } ∧ h = some .stop := by
  by_cases hs : s.supervisor = true
  · simp only [stop, hs, if_true, bind_eq_ok, nextExt_ok, pure, Except.pure, Except.ok.injEq, Prod.mk.injEq, true_and]
    constructor
    · rintro ⟨_, ⟨h1, rfl⟩, rfl, rfl⟩; exact ⟨h1, rfl, rfl⟩
    · rintro ⟨h1, rfl, rfl⟩; exact ⟨_, ⟨h1, rfl⟩, rfl, rfl⟩
  · simp [stop, hs]

end Sys2Proof.Machine
end

