-- ==== Sys2Proof/Laws/Effect.lean ====
section
/-! SUPPORT. What every execute phase has in common: what it never changes, how SR can change, and how it can fail. -/

namespace Sys2Proof.Machine

/-- What every execute phase keeps: the parameters, RUN, the canonical form of memory and its bound. -/
def Kept (s u : State) : Prop :=
  u.params = s.params ∧ u.run = s.run ∧ (s.mem.wf → u.mem.wf) ∧
    ((∀ c ∈ s.mem, c.1 < s.params.memSize) → ∀ c ∈ u.mem, c.1 < s.params.memSize)

theorem kept_of_mem {s u : State} (hp : u.params = s.params) (hr : u.run = s.run) (hm : u.mem = s.mem) : Kept s u :=
  ⟨hp, hr, fun h => hm ▸ h, fun h => hm ▸ h⟩

theorem Kept.trans {s u v : State} (h : Kept s u) (h' : Kept u v) : Kept s v :=
  ⟨h'.1.trans h.1, h'.2.1.trans h.2.1, fun x => h'.2.2.1 (h.2.2.1 x), fun x => by
    have := h'.2.2.2; rw [h.1] at this; exact this (h.2.2.2 x)⟩

/-- A byte written inside memory stays inside memory. -/
theorem setByte_bounded {s : State} {n : Nat} (h : ∀ c ∈ s.mem, c.1 < n) {a : Long} (ha : a.toNat < n) (v : Byte) :
    ∀ c ∈ (s.setByte a v).mem, c.1 < n := by
  intro c hc
  rcases Memory.mem_write hc with hc | rfl
  · exact h c hc
  · exact ha

theorem toNat_add_le (a : Long) (k : Nat) : (a + BitVec.ofNat 32 k).toNat ≤ a.toNat + k := by
  rw [BitVec.toNat_add, BitVec.toNat_ofNat]
  exact (Nat.mod_le _ _).trans (Nat.add_le_add_left (Nat.mod_le _ _) _)

theorem store_kept {s : State} {a : Long} {sz : Size} (h : Fits s a sz) (v : Long) : Kept s (s.store a sz v) := by
  refine ⟨by simp, by simp, fun x => store_wf x a sz v, fun x => ?_⟩
  have h1 := toNat_add_le a 1
  have h2 := toNat_add_le a 2
  have h3 := toNat_add_le a 3
  have hb := h.2
  cases sz <;> simp only [Size.bytes] at hb
  · exact setByte_bounded x (by omega) _
  · exact setByte_bounded (setByte_bounded x (by omega) _) (Nat.lt_of_le_of_lt h1 (by omega)) _
  · exact setByte_bounded (setByte_bounded (setByte_bounded (setByte_bounded x (by omega) _)
      (Nat.lt_of_le_of_lt h1 (by omega)) _) (Nat.lt_of_le_of_lt h2 (by omega)) _) (Nat.lt_of_le_of_lt h3 (by omega)) _

theorem afterEA_kept (s : State) (sz : Size) (ea : EA) : Kept s (afterEA s sz ea) :=
  kept_of_mem (by simp) (by simp) (by simp)

theorem writeOp_kept {loc : Loc} {sz : Size} {v : Long} {s u : State} (h : writeOp loc sz v s = .ok u) : Kept s u := by
  rcases writeOp_cases h with ⟨r, -, rfl⟩ | ⟨r, -, rfl⟩ | ⟨a, -, hf, rfl⟩
  · exact kept_of_mem rfl rfl rfl
  · exact kept_of_mem rfl rfl rfl
  · exact store_kept hf v

theorem writeOp_sr {loc : Loc} {sz : Size} {v : Long} {s u : State} (h : writeOp loc sz v s = .ok u) : u.sr = s.sr := by
  rcases writeOp_cases h with ⟨r, -, rfl⟩ | ⟨r, -, rfl⟩ | ⟨a, -, hf, rfl⟩ <;> simp

theorem writeOp_host {loc : Loc} {sz : Size} {v : Long} {s u : State} (h : writeOp loc sz v s = .ok u) :
    u.host = s.host := by
  rcases writeOp_cases h with ⟨r, -, rfl⟩ | ⟨r, -, rfl⟩ | ⟨a, -, hf, rfl⟩ <;> simp

theorem writeOp_pc {loc : Loc} {sz : Size} {v : Long} {s u : State} (h : writeOp loc sz v s = .ok u) :
    u.pc = s.pc := by
  rcases writeOp_cases h with ⟨r, -, rfl⟩ | ⟨r, -, rfl⟩ | ⟨a, -, hf, rfl⟩ <;> simp

/-- The state after an instruction whose effect on memory, registers and flags is a write of one operand. -/
structure OperandWritten (s u : State) : Prop where
  kept : Kept s u
  high : u.sr.extractLsb' 5 11 = s.sr.extractLsb' 5 11
  host : u.host = s.host

theorem addToOperand_written {sz : Size} {src : State → Long} {dst : EA} {s u : State}
    (h : addToOperand sz src dst s = .ok u) : OperandWritten s u := by
  obtain ⟨-, v, -, w, hw, rfl⟩ := addToOperand_ok.1 h
  refine ⟨(afterEA_kept s sz dst).trans ((writeOp_kept hw).trans (kept_of_mem rfl rfl rfl)), ?_, ?_⟩
  · rw [setFlags_high, writeOp_sr hw, afterEA_sr]
  · rw [setFlags_host, writeOp_host hw, afterEA_host]

theorem addq_written {sz : Size} {q : BitVec 3} {dst : EA} {s u : State} (hq : addq sz q dst s = .ok u) : OperandWritten s u := by
  by_cases hd : ∃ r, dst = .an r
  · obtain ⟨r, rfl⟩ := hd
    simp only [addq, Except.ok.injEq] at hq
    subst hq
    exact ⟨kept_of_mem rfl rfl rfl, rfl, rfl⟩
  · rw [addq_eq fun r e => hd ⟨r, e⟩] at hq; exact addToOperand_written hq

theorem addi_written {sz : Size} {imm : Long} {dst : EA} {s u : State} (hq : addi sz imm dst s = .ok u) : OperandWritten s u := by
  have := addToOperand_written (addi_ok.1 hq).2
  exact ⟨(kept_of_mem rfl rfl rfl : Kept s (s.setPc _)).trans this.kept, this.high, this.host⟩

theorem move_written {sz : Size} {src : EA} {dst : EA} {s u : State} (hq : move sz src dst s = .ok u) : OperandWritten s u := by
  obtain ⟨v, -, -, w, hw, rfl⟩ := move_ok.1 hq
  refine ⟨(afterEA_kept s sz src).trans ((afterEA_kept _ sz dst).trans
    ((writeOp_kept hw).trans (kept_of_mem rfl rfl rfl))), ?_, ?_⟩
  · rw [setFlags_high, writeOp_sr hw, afterEA_sr, afterEA_sr]
  · rw [setFlags_host, writeOp_host hw, afterEA_host, afterEA_host]

theorem clr_written {sz : Size} {dst : EA} {s u : State} (hq : clr sz dst s = .ok u) : OperandWritten s u := by
  obtain ⟨-, w, hw, rfl⟩ := clr_ok.1 hq
  refine ⟨(afterEA_kept s sz dst).trans ((writeOp_kept hw).trans (kept_of_mem rfl rfl rfl)), ?_, ?_⟩
  · rw [setFlags_high, writeOp_sr hw, afterEA_sr]
  · rw [setFlags_host, writeOp_host hw, afterEA_host]

theorem add_written {sz : Size} {src : EA} {dn : Reg} {s u : State} (hq : addEaDn sz src dn s = .ok u) : OperandWritten s u := by
  obtain ⟨v, -, rfl⟩ := addEaDn_ok.1 hq
  exact ⟨(afterEA_kept s sz src).trans (kept_of_mem rfl rfl rfl), by rw [setFlags_high]; simp, by simp⟩

theorem adda_written {sz : Size} {src : EA} {an : Reg} {s u : State} (hq : adda sz src an s = .ok u) : OperandWritten s u := by
  obtain ⟨v, -, rfl⟩ := adda_ok.1 hq
  exact ⟨(afterEA_kept s sz src).trans (kept_of_mem rfl rfl rfl), by simp, by simp⟩

theorem movea_written {sz : Size} {src : EA} {an : Reg} {s u : State} (hq : movea sz src an s = .ok u) : OperandWritten s u := by
  obtain ⟨v, -, rfl⟩ := movea_ok.1 hq
  exact ⟨(afterEA_kept s sz src).trans (kept_of_mem rfl rfl rfl), by simp, by simp⟩

theorem cmp_written {sz : Size} {src : EA} {dn : Reg} {s u : State} (hq : cmp sz src dn s = .ok u) : OperandWritten s u := by
  obtain ⟨v, -, rfl⟩ := cmp_ok.1 hq
  exact ⟨(afterEA_kept s sz src).trans (kept_of_mem rfl rfl rfl), by rw [setFlags_high]; simp, by simp⟩

theorem cmpa_written {sz : Size} {src : EA} {an : Reg} {s u : State} (hq : cmpa sz src an s = .ok u) : OperandWritten s u := by
  obtain ⟨v, -, rfl⟩ := cmpa_ok.1 hq
  exact ⟨(afterEA_kept s sz src).trans (kept_of_mem rfl rfl rfl), by rw [setFlags_high]; simp, by simp⟩

theorem branch_written {c : Cond} {d : Disp} {s u : State} (hq : branch c d s = .ok u) : OperandWritten s u := by
  obtain ⟨-, rfl⟩ := branch_ok.1 hq
  exact ⟨kept_of_mem rfl rfl rfl, rfl, rfl⟩

/-- Every execute phase but TRAP #15's and STOP's: what it keeps, SR[15:5] and the host port among it. -/
theorem plain_written {i : Instr} {s u : State} {h : Option HaltCause} (hi : i ≠ .trap15) (hk : ∀ k, i ≠ .stop k)
    (he : execute s i = .ok (u, h)) : OperandWritten s u ∧ h = none := by
  cases i with
  | trap15 => exact absurd rfl hi
  | stop k => exact absurd rfl (hk k)
  | rts =>
    obtain ⟨h1, h2⟩ := plain_ok.1 he
    obtain ⟨-, rfl⟩ := returnSub_ok.1 h1
    exact ⟨⟨kept_of_mem rfl rfl rfl, rfl, rfl⟩, h2⟩
  | bsr d =>
    obtain ⟨h1, h2⟩ := plain_ok.1 he
    obtain ⟨-, hf, rfl⟩ := branchSub_ok.1 h1
    have hw := store_kept
      (s := (s.setPc (s.pc + BitVec.ofNat 32 (2 * d.words))).writeA spNum .l (s.areg spNum - 2)) hf
      (s.pc + BitVec.ofNat 32 (2 * d.words))
    exact ⟨⟨(kept_of_mem rfl rfl rfl : Kept s _).trans (hw.trans (kept_of_mem rfl rfl rfl)), by simp, by simp⟩, h2⟩
  | jmp ea =>
    obtain ⟨h1, h2⟩ := plain_ok.1 he
    obtain ⟨-, a, -, rfl⟩ := jump_ok.1 h1
    exact ⟨⟨(afterEA_kept s .l ea).trans (kept_of_mem rfl rfl rfl), by simp, by simp⟩, h2⟩
  | moveB _ _ | moveW _ _ | moveL _ _ =>
    exact ⟨move_written (plain_ok.1 he).1, (plain_ok.1 he).2⟩
  | moveaW _ _ | moveaL _ _ =>
    exact ⟨movea_written (plain_ok.1 he).1, (plain_ok.1 he).2⟩
  | addiB _ _ | addiW _ _ | addiL _ _ =>
    exact ⟨addi_written (plain_ok.1 he).1, (plain_ok.1 he).2⟩
  | clrB _ | clrW _ | clrL _ =>
    exact ⟨clr_written (plain_ok.1 he).1, (plain_ok.1 he).2⟩
  | addqB _ _ | addqW _ _ | addqL _ _ =>
    exact ⟨addq_written (plain_ok.1 he).1, (plain_ok.1 he).2⟩
  | bra _ | bhi _ | bls _ | bcc _ | bcs _ | bne _ | beq _ | bvc _ | bvs _ | bpl _ | bmi _ | bge _ | blt _ | bgt _ | ble _ =>
    exact ⟨branch_written (plain_ok.1 he).1, (plain_ok.1 he).2⟩
  | cmpB _ _ | cmpW _ _ | cmpL _ _ =>
    exact ⟨cmp_written (plain_ok.1 he).1, (plain_ok.1 he).2⟩
  | cmpaW _ _ | cmpaL _ _ =>
    exact ⟨cmpa_written (plain_ok.1 he).1, (plain_ok.1 he).2⟩
  | addEaDnB _ _ | addEaDnW _ _ | addEaDnL _ _ =>
    exact ⟨add_written (plain_ok.1 he).1, (plain_ok.1 he).2⟩
  | addDnEaB _ _ | addDnEaW _ _ | addDnEaL _ _ =>
    exact ⟨addToOperand_written (plain_ok.1 he).1, (plain_ok.1 he).2⟩
  | addaW _ _ | addaL _ _ =>
    exact ⟨adda_written (plain_ok.1 he).1, (plain_ok.1 he).2⟩

/-! ### TRAP #15 -/

/-- Everything a service can answer: it changes D1 and the host port only, and requests a halt only as termination. -/
theorem service_ok {svc : TrapService} {s u : State} {h : Option HaltCause} (he : service svc s = .ok (u, h)) :
    (∃ host, u = { s with host := host } ∨ ∃ sz v, u = ({ s with host := host } : State).writeD 1 sz v) ∧
      ((svc ≠ .terminate ∧ h = none) ∨ (svc = .terminate ∧ h = some .termination ∧ u = s)) := by
  have hp : ∀ {r : Except Stop State}, (r.map fun t => (t, (none : Option HaltCause))) = .ok (u, h) →
      r = .ok u ∧ h = none := fun hr => plain_ok.1 hr
  cases svc <;> simp only [service] at he
  case outCounted c =>
    obtain ⟨h1, h2⟩ := hp he
    simp only [serviceOutCounted, bind_eq_ok, pure, Except.pure, Except.ok.injEq] at h1
    obtain ⟨_, -, rfl⟩ := h1
    exact ⟨⟨_, .inl rfl⟩, .inl ⟨by simp, h2⟩⟩
  case outTerminated c =>
    obtain ⟨h1, h2⟩ := hp he
    simp only [serviceOutTerminated, bind_eq_ok, pure, Except.pure, Except.ok.injEq] at h1
    obtain ⟨_, -, rfl⟩ := h1
    exact ⟨⟨_, .inl rfl⟩, .inl ⟨by simp, h2⟩⟩
  case inNumber =>
    obtain ⟨h1, h2⟩ := hp he
    simp only [serviceInNumber] at h1
    split at h1 <;> simp only [Except.ok.injEq, reduceCtorEq] at h1
    subst h1
    exact ⟨⟨_, .inr ⟨_, _, rfl⟩⟩, .inl ⟨by simp, h2⟩⟩
  case inChar =>
    obtain ⟨h1, h2⟩ := hp he
    simp only [serviceInChar] at h1
    split at h1 <;> simp only [Except.ok.injEq, reduceCtorEq] at h1
    subst h1
    exact ⟨⟨_, .inr ⟨_, _, rfl⟩⟩, .inl ⟨by simp, h2⟩⟩
  case inPending =>
    obtain ⟨h1, h2⟩ := hp he
    simp only [serviceInPending] at h1
    split at h1 <;> simp only [Except.ok.injEq, reduceCtorEq] at h1
    subst h1
    exact ⟨⟨_, .inr ⟨_, _, rfl⟩⟩, .inl ⟨by simp, h2⟩⟩
  case terminate =>
    simp only [Except.ok.injEq, Prod.mk.injEq] at he
    obtain ⟨rfl, rfl⟩ := he
    exact ⟨⟨s.host, .inl rfl⟩, .inr ⟨rfl, rfl, rfl⟩⟩
  case cursor =>
    simp only [Except.ok.injEq, Prod.mk.injEq] at he
    obtain ⟨rfl, rfl⟩ := he
    refine ⟨?_, .inl ⟨by simp, rfl⟩⟩
    simp only [serviceCursor]
    split
    · exact ⟨_, .inl rfl⟩
    · exact ⟨_, .inl rfl⟩
  all_goals
    simp only [Except.ok.injEq, Prod.mk.injEq] at he
    obtain ⟨rfl, rfl⟩ := he
    exact ⟨⟨_, .inl rfl⟩, .inl ⟨by simp, rfl⟩⟩

/-- Everything TRAP #15 can answer. -/
theorem trap15_ok {s u : State} {h : Option HaltCause} (he : trap15 s = .ok (u, h)) :
    (∃ host, u = { s with host := host } ∨ ∃ sz v, u = ({ s with host := host } : State).writeD 1 sz v) ∧
      (h = none ∨ (s.params.trap15Tasks.lookup ((s.dreg 0).extractLsb' 0 8) = some .terminate ∧ h = some .termination ∧
        u = s)) := by
  simp only [trap15] at he
  split at he
  · rename_i svc hs
    obtain ⟨h1, h2⟩ := service_ok he
    refine ⟨h1, ?_⟩
    rcases h2 with ⟨-, h2⟩ | ⟨rfl, h2⟩
    · exact .inl h2
    · exact .inr ⟨hs, h2⟩
  · simp only [Except.ok.injEq, Prod.mk.injEq] at he
    obtain ⟨rfl, rfl⟩ := he
    exact ⟨⟨_, .inl rfl⟩, .inl rfl⟩

theorem trap15_written {s u : State} {h : Option HaltCause} (he : trap15 s = .ok (u, h)) :
    Kept s u ∧ u.sr = s.sr ∧ u.mem = s.mem ∧ u.a = s.a ∧ u.pc = s.pc ∧ ∀ r, r ≠ 1 → u.dreg r = s.dreg r := by
  obtain ⟨⟨host, rfl | ⟨sz, v, rfl⟩⟩, -⟩ := trap15_ok he
  · exact ⟨kept_of_mem rfl rfl rfl, rfl, rfl, rfl, rfl, fun _ _ => rfl⟩
  · refine ⟨kept_of_mem rfl rfl rfl, rfl, rfl, rfl, rfl, fun r hr => ?_⟩
    rw [writeD_dreg_ne _ hr]; rfl

/-- Every execute phase keeps the parameters, RUN, and the form and bound of memory. -/
theorem execute_kept {i : Instr} {s u : State} {h : Option HaltCause} (he : execute s i = .ok (u, h)) : Kept s u := by
  by_cases hi : i = .trap15
  · subst hi; exact (trap15_written he).1
  · by_cases hk : ∃ k, i = .stop k
    · obtain ⟨k, rfl⟩ := hk
      obtain ⟨-, -, rfl, -⟩ := stop_ok.1 he
      exact kept_of_mem rfl rfl rfl
    · exact (plain_written hi (fun k e => hk ⟨k, e⟩) he).1.kept

/-! ### Failures -/

/-- A failing access fails in every state with the same parameters. -/
theorem access_congr {s t : State} {e : Stop} (hp : t.params = s.params) (h : ∃ a sz, t.checkAccess a sz = .error e) :
    ∃ a sz, s.checkAccess a sz = .error e :=
  let ⟨a, sz, h⟩ := h
  ⟨a, sz, (checkAccess_congr hp a sz).symm.trans h⟩

theorem addToOperand_error {sz : Size} {src : State → Long} {dst : EA} {s t : State} {e : Stop} (hp : t.params = s.params)
    (hq : addToOperand sz src dst t = .error e) :
    (∃ a sz, s.checkAccess a sz = .error e) ∨ e = .raise .illegalAddressingMode := by
  simp only [addToOperand, bind_eq_error, Prod.exists, resolve_ok, pure, Except.pure, reduceCtorEq, and_false,
    exists_false, or_false] at hq
  rcases hq with hq | ⟨loc, t', ⟨-, -, rfl⟩, hq | ⟨v, -, hq⟩⟩
  · obtain ⟨a, hq⟩ := resolve_error hq; exact .inl (access_congr hp ⟨a, _, hq⟩)
  · obtain ⟨a, hq⟩ := readOp_error hq; exact .inl (access_congr (by simp [hp]) ⟨a, _, hq⟩)
  · rcases writeOp_error hq with ⟨a, hq⟩ | hq
    · exact .inl (access_congr (by simp [hp]) ⟨a, _, hq⟩)
    · exact .inr hq

theorem addq_error {sz : Size} {q : BitVec 3} {dst : EA} {s : State} {e : Stop} (hq : addq sz q dst s = .error e) :
    (∃ a sz, s.checkAccess a sz = .error e) ∨ e = .raise .illegalAddressingMode := by
  by_cases hd : ∃ r, dst = .an r
  · obtain ⟨r, rfl⟩ := hd; simp [addq] at hq
  · rw [addq_eq fun r e => hd ⟨r, e⟩] at hq; exact addToOperand_error rfl hq

theorem addi_error {sz : Size} {imm : Long} {dst : EA} {s : State} {e : Stop} (hq : addi sz imm dst s = .error e) :
    (∃ a sz, s.checkAccess a sz = .error e) ∨ e = .raise .illegalAddressingMode := by
  simp only [addi] at hq
  split at hq <;> simp only [bind_eq_error, nextExt32_ok, nextExt_ok] at hq
  · rcases hq with hq | ⟨t, ⟨-, -, rfl⟩, hq⟩
    · obtain ⟨a, hq⟩ := nextExt32_error hq; exact .inl ⟨a, _, hq⟩
    · exact addToOperand_error (t := s.setPc (s.pc + 4)) rfl hq
  · rcases hq with hq | ⟨t, ⟨-, rfl⟩, hq⟩
    · exact .inl ⟨_, _, nextExt_error.1 hq⟩
    · exact addToOperand_error (t := s.setPc (s.pc + 2)) rfl hq

theorem move_error {sz : Size} {src dst : EA} {s : State} {e : Stop} (hq : move sz src dst s = .error e) :
    (∃ a sz, s.checkAccess a sz = .error e) ∨ e = .raise .illegalAddressingMode := by
  simp only [move, bind_eq_error, Prod.exists, pure, Except.pure, reduceCtorEq, and_false, exists_false,
    or_false] at hq
  rcases hq with hq | ⟨v, t, ht, hq | ⟨loc, t', ht', hq⟩⟩
  · exact .inl (fetchOperand_error hq)
  · obtain ⟨a, hq⟩ := resolve_error hq
    rw [fetchOperand_frame ht] at hq
    exact .inl (access_congr (by simp) ⟨a, _, hq⟩)
  · rw [(resolve_ok.1 ht').2.2, fetchOperand_frame ht] at hq
    rcases writeOp_error hq with ⟨a, hq⟩ | hq
    · exact .inl (access_congr (by simp) ⟨a, _, hq⟩)
    · exact .inr hq

theorem clr_error {sz : Size} {dst : EA} {s : State} {e : Stop} (hq : clr sz dst s = .error e) :
    (∃ a sz, s.checkAccess a sz = .error e) ∨ e = .raise .illegalAddressingMode := by
  simp only [clr, bind_eq_error, Prod.exists, pure, Except.pure, reduceCtorEq, and_false, exists_false,
    or_false] at hq
  rcases hq with hq | ⟨loc, t, ht, hq⟩
  · obtain ⟨a, hq⟩ := resolve_error hq; exact .inl ⟨a, _, hq⟩
  · rw [(resolve_ok.1 ht).2.2] at hq
    rcases writeOp_error hq with ⟨a, hq⟩ | hq
    · exact .inl (access_congr (by simp) ⟨a, _, hq⟩)
    · exact .inr hq

theorem reads_error {sz : Size} {src : EA} {dn : Reg} {s : State} {e : Stop} (hq : addEaDn sz src dn s = .error e ∨
    adda sz src dn s = .error e ∨ movea sz src dn s = .error e ∨ cmp sz src dn s = .error e ∨
    cmpa sz src dn s = .error e) : ∃ a sz, s.checkAccess a sz = .error e := by
  simp only [addEaDn, adda, movea, cmp, cmpa, bind_eq_error, pure, Except.pure, reduceCtorEq, and_false, exists_false,
    or_false, or_self] at hq
  exact fetchOperand_error hq

theorem branchTarget_error {d : Disp} {s : State} {e : Stop} (hq : branchTarget d s = .error e) :
    ∃ a sz, s.checkAccess a sz = .error e := by
  cases d <;> simp only [branchTarget, reduceCtorEq, bind_eq_error, nextExt_error, pure, Except.pure, and_false,
    exists_false, or_false] at hq
  exact ⟨_, _, hq⟩

theorem branch_error {c : Cond} {d : Disp} {s : State} {e : Stop} (hq : branch c d s = .error e) :
    ∃ a sz, s.checkAccess a sz = .error e := by
  simp only [branch, bind_eq_error, pure, Except.pure, reduceCtorEq, and_false, exists_false, or_false] at hq
  exact branchTarget_error hq

theorem readCounted_error {s : State} {e : Stop} (n : Nat) :
    ∀ a : Long, readCounted s a n = .error e → ∃ a sz, s.checkAccess a sz = .error e := by
  induction n with
  | zero => intro a hq; simp [readCounted] at hq
  | succ n ih =>
    intro a hq
    simp only [readCounted, bind_eq_error, memRead_error, pure, Except.pure, reduceCtorEq, and_false, exists_false,
      or_false] at hq
    rcases hq with hq | ⟨_, _, hq⟩
    · exact ⟨_, _, hq⟩
    · exact ih _ hq

theorem readTerminated_error {s : State} {e : Stop} (n : Nat) :
    ∀ a : Long, readTerminated s a n = .error e → (∃ a sz, s.checkAccess a sz = .error e) ∨ e = .stuck .stringNeverEnds := by
  induction n with
  | zero => intro a hq; exact .inr (by simpa [readTerminated, eq_comm] using hq)
  | succ n ih =>
    intro a hq
    simp only [readTerminated, bind_eq_error, memRead_error] at hq
    rcases hq with hq | ⟨_, _, hq⟩
    · exact .inl ⟨_, _, hq⟩
    · split at hq
      · simp [pure, Except.pure] at hq
      · simp only [bind_eq_error, pure, Except.pure, reduceCtorEq, and_false, exists_false, or_false] at hq
        exact ih _ hq

theorem service_error {svc : TrapService} {s : State} {e : Stop} (hq : service svc s = .error e) :
    (∃ a sz, s.checkAccess a sz = .error e) ∨ ∃ w, e = .stuck w := by
  have hp : ∀ {r : Except Stop State}, (r.map fun t => (t, (none : Option HaltCause))) = .error e → r = .error e :=
    fun hr => plain_error.1 hr
  cases svc <;> simp only [service, reduceCtorEq] at hq
  case outCounted =>
    have hq := hp hq
    simp only [serviceOutCounted, bind_eq_error, pure, Except.pure, reduceCtorEq, and_false, exists_false,
      or_false] at hq
    exact .inl (readCounted_error _ _ hq)
  case outTerminated =>
    have hq := hp hq
    simp only [serviceOutTerminated, bind_eq_error, pure, Except.pure, reduceCtorEq, and_false, exists_false,
      or_false] at hq
    rcases readTerminated_error _ _ hq with hq | hq
    · exact .inl hq
    · exact .inr ⟨_, hq⟩
  case inNumber =>
    have hq := hp hq
    simp only [serviceInNumber] at hq
    split at hq <;> simp only [Except.error.injEq, reduceCtorEq] at hq
    exact .inr ⟨_, hq.symm⟩
  case inChar =>
    have hq := hp hq
    simp only [serviceInChar] at hq
    split at hq <;> simp only [Except.error.injEq, reduceCtorEq] at hq
    exact .inr ⟨_, hq.symm⟩
  case inPending =>
    have hq := hp hq
    simp only [serviceInPending] at hq
    split at hq <;> simp only [Except.error.injEq, reduceCtorEq] at hq
    exact .inr ⟨_, hq.symm⟩

/-- The ways an execute phase fails: an access that fails, an illegal form that decoding never gives, STOP's privilege
check, or a cycle of TRAP #15 that never ends. -/
theorem execute_error {i : Instr} {s : State} {e : Stop} (he : execute s i = .error e) :
    (∃ a sz, s.checkAccess a sz = .error e) ∨ e = .raise .illegalAddressingMode ∨
      (e = .raise .privilegeViolation ∧ s.supervisor = false ∧ ∃ k, i = .stop k) ∨
      (∃ w, e = .stuck w ∧ i = .trap15) := by
  have lift : ((∃ a sz, s.checkAccess a sz = .error e) ∨ e = .raise .illegalAddressingMode) →
      (∃ a sz, s.checkAccess a sz = .error e) ∨ e = .raise .illegalAddressingMode ∨
      (e = .raise .privilegeViolation ∧ s.supervisor = false ∧ ∃ k, i = .stop k) ∨
      (∃ w, e = .stuck w ∧ i = .trap15) := fun h => h.elim .inl (fun h => .inr (.inl h))
  cases i with
  | trap15 =>
    simp only [execute, trap15] at he
    split at he
    · rcases service_error he with he | ⟨w, he⟩
      · exact .inl he
      · exact .inr (.inr (.inr ⟨w, he, rfl⟩))
    · simp at he
  | stop k =>
    simp only [execute, stop] at he
    split at he
    · simp only [bind_eq_error, nextExt_error, pure, Except.pure, reduceCtorEq, and_false, exists_false, or_false] at he
      exact .inl ⟨_, _, he⟩
    · rename_i hs
      exact .inr (.inr (.inl ⟨by simpa [eq_comm] using he, by simpa using hs, k, rfl⟩))
  | rts =>
    have he := plain_error.1 he
    simp only [returnSub, bind_eq_error, memRead_error, pure, Except.pure, reduceCtorEq, and_false, exists_false,
      or_false] at he
    exact .inl ⟨_, _, he⟩
  | bsr d =>
    have he := plain_error.1 he
    simp only [branchSub, bind_eq_error, Prod.exists, branchTarget_ok, memWrite_error, pure, Except.pure, reduceCtorEq,
      and_false, exists_false, or_false] at he
    rcases he with he | ⟨_, _, ⟨-, -, rfl⟩, he⟩
    · exact .inl (branchTarget_error he)
    · exact .inl ⟨_, _, he⟩
  | jmp ea =>
    have he := plain_error.1 he
    simp only [jump, controlAddr, bind_eq_error, Prod.exists, resolve_ok, pure, Except.pure, reduceCtorEq, and_false,
      exists_false, or_false] at he
    rcases he with he | ⟨loc, t, ⟨-, rfl, rfl⟩, he⟩
    · obtain ⟨a, he⟩ := resolve_error he; exact .inl ⟨a, _, he⟩
    · cases hl : eaLoc s .l .jump ea <;> rw [hl] at he <;>
        simp only [reduceCtorEq, throw, throwThe, MonadExceptOf.throw, Except.error.injEq] at he
      all_goals exact .inr (.inl he.symm)
  | moveB _ _ | moveW _ _ | moveL _ _ =>
    have he := plain_error.1 he
    exact lift (move_error he)
  | moveaW _ _ | moveaL _ _ =>
    have he := plain_error.1 he
    exact .inl (reads_error (.inr (.inr (.inl he))))
  | addiB _ _ | addiW _ _ | addiL _ _ =>
    have he := plain_error.1 he
    exact lift (addi_error he)
  | clrB _ | clrW _ | clrL _ =>
    have he := plain_error.1 he
    exact lift (clr_error he)
  | addqB _ _ | addqW _ _ | addqL _ _ =>
    have he := plain_error.1 he
    exact lift (addq_error he)
  | bra _ | bhi _ | bls _ | bcc _ | bcs _ | bne _ | beq _ | bvc _ | bvs _ | bpl _ | bmi _ | bge _ | blt _ | bgt _ | ble _ =>
    have he := plain_error.1 he
    exact .inl (branch_error he)
  | cmpB _ _ | cmpW _ _ | cmpL _ _ =>
    have he := plain_error.1 he
    exact .inl (reads_error (.inr (.inr (.inr (.inl he)))))
  | cmpaW _ _ | cmpaL _ _ =>
    have he := plain_error.1 he
    exact .inl (reads_error (.inr (.inr (.inr (.inr he)))))
  | addEaDnB _ _ | addEaDnW _ _ | addEaDnL _ _ =>
    have he := plain_error.1 he
    exact .inl (reads_error (.inl he))
  | addDnEaB _ _ | addDnEaW _ _ | addDnEaL _ _ =>
    have he := plain_error.1 he
    exact lift (addToOperand_error rfl he)
  | addaW _ _ | addaL _ _ =>
    have he := plain_error.1 he
    exact .inl (reads_error (.inr (.inl he)))

end Sys2Proof.Machine
end

