-- ==== Sys2Proof/Laws/Results.lean ====
section
/-! SUPPORT. The lemmas under the results of the instructions: a destination written, the read-modify-write, PC past the
words, and the operand of a legal form. -/

namespace Sys2Proof.Machine

/-! ### A destination written -/

/-- Only the low bits of a stored value matter. -/
theorem Stored.congr {s t : State} {a : Long} {sz : Size} {v w : Long} (h : Stored s t a sz v)
    (e : v.setWidth sz.bits = w.setWidth sz.bits) : Stored s t a sz w := by
  refine ⟨fun k hk => ?_, h.2⟩
  rw [h.1 k hk]
  apply BitVec.eq_of_getLsbD_eq
  intro j hj
  have e' := congrArg (·.getLsbD (8 * (sz.bytes - 1 - k) + j)) e
  have hlt : 8 * (sz.bytes - 1 - k) + j < sz.bits := by cases sz <;> simp only [Size.bytes, Size.bits] at * <;> omega
  simpa [BitVec.getLsbD_setWidth, hlt, hj] using e'

theorem DWritten.congr {s t : State} {r : Reg} {sz : Size} {v w : Long} (h : DWritten s t r sz v)
    (e : v.setWidth sz.bits = w.setWidth sz.bits) : DWritten s t r sz w := ⟨h.1.trans e, h.2⟩

theorem DestWritten.congr {s u t : State} {dst : EA} {sz : Size} {v w : Long} (h : DestWritten s u t sz dst v)
    (e : v.setWidth sz.bits = w.setWidth sz.bits) : DestWritten s u t sz dst w := by
  cases dst with
  | dn r => exact ⟨h.1.congr e, h.2⟩
  | _ => exact ⟨h.1, fun a ha => (h.2 a ha).congr e⟩

/-- A written destination does not depend on the parts of the states that a write does not touch. -/
theorem DestWritten.mono {s s' u u' t t' : State} {dst : EA} {sz : Size} {v : Long} (h : DestWritten s u t sz dst v)
    (hs : s'.d = s.d) (hsm : ∀ x, s'.byteAt x = s.byteAt x) (hu : eaAddr u' sz .data dst = eaAddr u sz .data dst)
    (ht : t'.d = t.d) (htm : ∀ x, t'.byteAt x = t.byteAt x) : DestWritten s' u' t' sz dst v := by
  have hsr : ∀ r, s'.dreg r = s.dreg r := fun r => by simp only [State.dreg, hs]
  have htr : ∀ r, t'.dreg r = t.dreg r := fun r => by simp only [State.dreg, ht]
  cases dst with
  | dn r =>
    refine ⟨⟨by rw [htr, h.1.1], fun j hj => by rw [htr, hsr, h.1.2.1 j hj], fun q hq => by rw [htr, hsr, h.1.2.2 q hq]⟩,
      fun x => by rw [htm, hsm, h.2 x]⟩
  | _ =>
    refine ⟨by rw [ht, hs, h.1], fun a ha => ?_⟩
    rw [hu] at ha
    exact ⟨fun k hk => by rw [htm, (h.2 a ha).1 k hk], fun x hx => by rw [htm, hsm, (h.2 a ha).2 x hx]⟩

/-- A destination that can be written: no address register and no immediate, 30_encoding.md R118 DATA_ALT. -/
theorem writeOp_dest {dst : EA} {sz : Size} {u w : State} (hdst : dst.isIn .dataAlt = true) (hf : EaFits u sz dst)
    (hp : w.params = u.params) (hm : w.mem.wf) (v : Long) :
    ∃ x, writeOp (eaLoc u sz .data dst) sz v w = .ok x ∧ DestWritten w u x sz dst v ∧ x.a = w.a := by
  cases dst with
  | dn r => exact ⟨_, rfl, ⟨writeD_written w r sz v, fun x => rfl⟩, rfl⟩
  | an r => simp [EA.isIn] at hdst
  | imm v => simp [EA.isIn] at hdst
  | pcDisp d => simp [EA.isIn] at hdst
  | pcIndex d => simp [EA.isIn] at hdst
  | _ =>
    refine ⟨_, memWrite_of_fits ((fits_congr hp _ _).2 (hf _ rfl)) v, ⟨by simp, ?_⟩, by simp⟩
    intro a ha
    obtain rfl := (Option.some.inj ha)
    exact store_stored hm _ sz v

/-- The address of a destination is the same after the words before its own are consumed. -/
theorem eaAddr_setPc {dst : EA} (hdst : dst.isIn .dataAlt = true) (u : State) (sz : Size) (use : Use) (p : Long) :
    eaAddr (u.setPc p) sz use dst = eaAddr u sz use dst := by
  cases dst <;> first | rfl | simp [EA.isIn] at hdst

theorem eaLoc_setPc {dst : EA} (hdst : dst.isIn .dataAlt = true) (u : State) (sz : Size) (use : Use) (p : Long) :
    eaLoc (u.setPc p) sz use dst = eaLoc u sz use dst := by
  cases dst <;> first | rfl | simp [EA.isIn] at hdst

theorem stepEA_setPc (u : State) (sz : Size) (ea : EA) (p : Long) :
    stepEA (u.setPc p) sz ea = (stepEA u sz ea).setPc p := by
  cases ea <;> rfl

theorem eaValue_setPc {dst : EA} (hdst : dst.isIn .dataAlt = true) (u : State) (sz : Size) (p : Long) :
    eaValue (u.setPc p) sz dst = eaValue u sz dst := by
  cases dst <;> first | rfl | simp [EA.isIn] at hdst

theorem extFits_congr {s t : State} (hp : t.params = s.params) (hc : t.pc = s.pc) (n : Nat) :
    ExtFits t n ↔ ExtFits s n := by simp only [ExtFits, Fits, hp, hc]

theorem legal_iff {ea : EA} {m : ModeSet} {sz : Size} : ea.legal m sz = true ↔ ea.isIn m = true ∧ ea.immFits sz = true := by
  simp [EA.legal]

theorem setFlags_sr_of {w x : State} (h : w.sr = x.sr) (f : Flags) : (w.setFlags f).sr = (x.setFlags f).sr := by
  simp only [State.setFlags, State.flagX, h]

theorem readOp_dest {dst : EA} (hdst : dst.isIn .dataAlt = true) {s : State} {sz : Size} (hf : EaFits s sz dst) :
    readOp (eaLoc s sz .data dst) sz (afterEA s sz dst) = .ok (eaValue s sz dst) := by
  refine (readOp_eaLoc (s := s) (t := afterEA s sz dst) ?_ (fun r => by simp) (fun h r => ?_) (by simp) (fun x => by simp) _).2 ⟨hf, rfl⟩
  · cases dst <;> simp [EA.isIn, EA.immFits] at hdst ⊢
  · cases dst <;> simp_all [EA.isMem, stepEA]

/-- Everything the read-modify-write does. -/
theorem addToOperand_result {sz : Size} {src : State → Long} {dst : EA} {s : State} (hdst : dst.isIn .dataAlt = true)
    (hm : s.mem.wf) (he : ExtFits s (dst.words sz)) (hf : EaFits s sz dst) :
    ∃ u, addToOperand sz src dst s = .ok u ∧
      DestWritten s s u sz dst (src (afterEA s sz dst) + eaValue s sz dst) ∧
      AddFlagsAre u sz (src (afterEA s sz dst)) (eaValue s sz dst) ∧ u.a = (stepEA s sz dst).a ∧
      u.pc = s.pc + BitVec.ofNat 32 (2 * dst.words sz) ∧ OperandWritten s u := by
  obtain ⟨w, hw, hd, ha⟩ := writeOp_dest (w := afterEA s sz dst) hdst hf (by simp) (by simpa using hm)
    (addOp sz (src (afterEA s sz dst)) (eaValue s sz dst)).1
  have hok := addToOperand_ok.2 ⟨he, _, readOp_dest hdst hf, w, hw, rfl⟩
  refine ⟨_, hok, ?_, ?_, ?_, ?_, addToOperand_written hok⟩
  · refine (hd.mono (s' := s) (u' := s) (by simp) (fun x => by simp) rfl rfl (fun x => rfl)).congr ?_
    rw [addOp_sum, setWidth_add]
  · exact addFlagsAre_of (s := s) (setFlags_sr_of (by rw [writeOp_sr hw, afterEA_sr]) _)
  · rw [setFlags_a, ha, afterEA_a]
  · rw [setFlags_pc, writeOp_pc hw, afterEA_pc]

/-! ### Completion -/

theorem pc_past (p : Long) (n : Nat) : p + BitVec.ofNat 32 (2 * n) + 2 = p + BitVec.ofNat 32 (2 * (1 + n)) := by
  rw [show (2 : Long) = BitVec.ofNat 32 2 from rfl, BitVec.add_assoc, ← BitVec.ofNat_add]; congr 2; omega

/-- The advance phase moves PC past an instruction whose last word is at PC. -/
theorem pcPast_of {s u : State} {n : Nat} (h : u.pc = s.pc + BitVec.ofNat 32 (2 * n)) :
    PcPast s (u.advance none) (1 + n) := by
  rw [PcPast, advance_pc, h, pc_past]

theorem memAlt_dataAlt {ea : EA} (h : ea.isIn .memAlt = true) : ea.isIn .dataAlt = true := by
  cases ea <;> simp_all [EA.isIn]

/-- An execute phase that succeeds without a halt gives the next state. -/
theorem exec_of_execute {i : Instr} {s u : State} (h : execute s i = .ok (u, none)) :
    exec i s = .next (u.advance none) := by
  rw [exec_eq, h]; rfl

/-- As `exec_of_execute`, for the instructions that cannot request a halt. -/
theorem exec_plain {i : Instr} {s u : State} {body : Except Stop State} (h : execute s i = plain body)
    (hb : body = .ok u) : exec i s = .next (u.advance none) :=
  exec_of_execute (h.trans (plain_ok.2 ⟨hb, rfl⟩))

/-- TRAP #15, when its task ends. -/
theorem exec_trap {s u : State} {h : Option HaltCause} (hu : trap15 s = .ok (u, h)) :
    exec .trap15 s = .next (u.advance h) := by
  rw [exec_eq]; simp [execute, hu, endCycle]

/-- The operand of a legal form whose words and memory can be read. -/
theorem fetchOperand_legal {src : EA} {sz : Size} {s : State} {m : ModeSet} (hl : src.legal m sz = true)
    (he : ExtFits s (src.words sz)) (hf : EaFits s sz src) :
    fetchOperand src sz s = .ok (eaValue s sz src, afterEA s sz src) :=
  (fetchOperand_ok (legal_iff.1 hl).2).2 ⟨⟨he, hf⟩, rfl, rfl⟩

end Sys2Proof.Machine
end

