-- ==== Sys2Proof/Laws/Accesses.lean ====
section
/-! SUPPORT. Which access fails first: each operation of an execute phase answers when all the accesses of a list succeed,
and fails with the fault of the first one that does not. The list of a sequence is the lists of its parts joined. -/

namespace Sys2Proof.Machine

/-- `r` answers when every access of `l` succeeds, and else fails with the first failing one. -/
def Checks (s : State) (l : List Access) {α : Type} (r : Except Stop α) : Prop :=
  (∀ a sz, firstFailing s l = some (a, sz) → r = .error (.raise (accessFault s a sz))) ∧
    (firstFailing s l = none → ∃ x, r = .ok x)

/-- How an access that does not fit fails, 20_memory.md R75, R78. -/
theorem checkAccess_of_not_fits {s : State} {a : Long} {sz : Size} (h : ¬ Fits s a sz) :
    s.checkAccess a sz = .error (.raise (accessFault s a sz)) := by
  simp only [State.checkAccess, accessFault]
  split
  · rfl
  · rename_i hh
    rw [if_pos]
    by_contra hc; exact h ⟨hh, by omega⟩

theorem firstFailing_append (s : State) (l m : List Access) :
    firstFailing s (l ++ m) = (firstFailing s l).or (firstFailing s m) := List.find?_append

theorem firstFailing_one (s : State) (a : Long) (sz : Size) :
    firstFailing s [(a, sz)] = if Fits s a sz then none else some (a, sz) := by
  by_cases h : Fits s a sz
  · rw [if_pos h, firstFailing, List.find?_cons, decide_eq_false (not_not_intro h)]; rfl
  · rw [if_neg h, firstFailing, List.find?_cons, decide_eq_true h]

theorem firstFailing_congr {s t : State} (h : t.params = s.params) (l : List Access) :
    firstFailing t l = firstFailing s l := by simp only [firstFailing, Fits, h]

theorem accessFault_congr {s t : State} (h : t.params = s.params) (a : Long) (sz : Size) :
    accessFault t a sz = accessFault s a sz := by simp only [accessFault, h]

/-! ### Operations -/

theorem Checks.pure {s : State} {α : Type} (x : α) : Checks s [] (.ok x : Except Stop α) :=
  ⟨fun _ _ h => (by cases h), fun _ => ⟨x, rfl⟩⟩

/-- A sequence makes the accesses of its first part, then those of its second. -/
theorem Checks.bind {s : State} {l m : List Access} {α β : Type} {r : Except Stop α} {f : α → Except Stop β}
    (hr : Checks s l r) (hf : ∀ x, r = .ok x → Checks s m (f x)) : Checks s (l ++ m) (r >>= f) := by
  rw [Checks, firstFailing_append]
  cases h : firstFailing s l with
  | some x =>
    refine ⟨fun a sz e => ?_, fun e => by cases e⟩
    obtain rfl := Option.some.inj e
    rw [hr.1 a sz h]; rfl
  | none =>
    obtain ⟨x, hx⟩ := hr.2 h
    rw [hx]
    exact hf x hx

/-- A last part that makes no access. -/
theorem Checks.bind_pure {s : State} {l : List Access} {α β : Type} {r : Except Stop α} {f : α → Except Stop β}
    (hr : Checks s l r) (hf : ∀ x, r = .ok x → ∃ y, f x = .ok y) : Checks s l (r >>= f) := by
  have := hr.bind (m := []) (f := f) fun x hx => by obtain ⟨y, hy⟩ := hf x hx; rw [hy]; exact .pure y
  rwa [List.append_nil] at this

theorem Checks.congr {s t : State} {l : List Access} {α : Type} {r : Except Stop α} (h : t.params = s.params)
    (hr : Checks t l r) : Checks s l r := by
  refine ⟨fun a sz e => ?_, fun e => hr.2 ((firstFailing_congr h l).trans e)⟩
  rw [hr.1 a sz ((firstFailing_congr h l).trans e), accessFault_congr h]

/-- An operation that fails exactly as one access does. -/
theorem Checks.access {s t : State} (h : t.params = s.params) {a : Long} {sz : Size} {α : Type} {r : Except Stop α}
    (hok : Fits t a sz → ∃ x, r = .ok x) (herr : ∀ e, t.checkAccess a sz = .error e → r = .error e) :
    Checks s [(a, sz)] r := by
  refine .congr h ?_
  rw [Checks, firstFailing_one]
  by_cases hf : Fits t a sz
  · rw [if_pos hf]
    exact ⟨fun _ _ e => (by cases e), fun _ => hok hf⟩
  · rw [if_neg hf]
    refine ⟨fun b n e => ?_, fun e => by cases e⟩
    obtain ⟨rfl, rfl⟩ := Prod.mk.inj (Option.some.inj e)
    exact herr _ (checkAccess_of_not_fits hf)

theorem memRead_checks {s t : State} (h : t.params = s.params) (a : Long) (sz : Size) : Checks s [(a, sz)] (memRead t a sz) :=
  .access h (fun hf => ⟨_, memRead_of_fits hf⟩) fun _ => memRead_error.2

theorem memWrite_checks {s t : State} (h : t.params = s.params) (a : Long) (sz : Size) (v : Long) :
    Checks s [(a, sz)] (memWrite t a sz v) :=
  .access h (fun hf => ⟨_, memWrite_of_fits hf v⟩) fun _ => memWrite_error.2

/-! ### Extension words -/

theorem extAccesses_add (s : State) (m k n : Nat) :
    extAccesses s m (k + n) = extAccesses s m k ++ extAccesses s (m + k) n := by
  rw [extAccesses, ← List.range'_append_1, List.map_append]; rfl

theorem nextExt_checks {s t : State} {m : Nat} (h : t.params = s.params) (hp : t.pc = s.pc + BitVec.ofNat 32 (2 * m)) :
    Checks s (extAccesses s m 1) (nextExt t) := by
  have e : s.pc + BitVec.ofNat 32 (2 * (m + 1)) = t.pc + 2 := by
    rw [hp, show (2 : Long) = BitVec.ofNat 32 2 from rfl, BitVec.add_assoc, ← BitVec.ofNat_add]; rfl
  rw [extAccesses, List.range'_one, List.map_singleton, e]
  exact .access h (fun hf => ⟨_, nextExt_of_fits hf⟩) fun _ => nextExt_error.2

theorem nextExt32_checks {s t : State} {m : Nat} (h : t.params = s.params) (hp : t.pc = s.pc + BitVec.ofNat 32 (2 * m)) :
    Checks s (extAccesses s m 2) (nextExt32 t) := by
  rw [show 2 = 1 + 1 from rfl, extAccesses_add]
  refine (nextExt_checks h hp).bind fun u hu => ?_
  obtain ⟨-, rfl⟩ := nextExt_ok.1 hu
  refine nextExt_checks (by simpa using h) ?_
  rw [setPc_pc, hp, show (2 : Long) = BitVec.ofNat 32 2 from rfl, BitVec.add_assoc, ← BitVec.ofNat_add]; rfl

/-! ### Operands -/

theorem resolve_checks {s t : State} {m : Nat} (h : t.params = s.params) (hp : t.pc = s.pc + BitVec.ofNat 32 (2 * m))
    (ea : EA) (sz : Size) (use : Use) : Checks s (extAccesses s m (ea.words sz)) (resolve ea sz use t) := by
  cases ea with
  | dn | an | ind | postinc | predec => exact .pure _
  | absL a => exact (nextExt32_checks h hp).bind_pure fun x _ => ⟨_, rfl⟩
  | imm v => cases sz <;> first
    | exact (nextExt_checks h hp).bind_pure fun x _ => ⟨_, rfl⟩
    | exact (nextExt32_checks h hp).bind_pure fun x _ => ⟨_, rfl⟩
  | disp | index | absW | pcDisp | pcIndex => exact (nextExt_checks h hp).bind_pure fun x _ => ⟨_, rfl⟩

theorem readOp_checks {s u t : State} (h : t.params = s.params) (ea : EA) (sz : Size) :
    Checks s (eaAccess u sz ea) (readOp (eaLoc u sz .data ea) sz t) := by
  cases ea with
  | dn | an | imm => exact .pure _
  | _ => exact memRead_checks h _ _

theorem writeOp_checks {s u t : State} (h : t.params = s.params) {ea : EA} (hd : ea.isIn .dataAlt = true) (sz : Size)
    (v : Long) : Checks s (eaAccess u sz ea) (writeOp (eaLoc u sz .data ea) sz v t) := by
  cases ea with
  | dn | an => exact .pure _
  | imm => simp [EA.isIn] at hd
  | _ => exact memWrite_checks h _ _ _

/-- The source operand of an instruction, first after the opcode word. -/
theorem fetchOperand_checks (s : State) (ea : EA) (sz : Size) :
    Checks s (operandAccesses s sz ea) (fetchOperand ea sz s) := by
  refine (resolve_checks rfl (by simp) ea sz .data).bind fun x hx => ?_
  obtain ⟨loc, t⟩ := x
  obtain ⟨-, rfl, rfl⟩ := resolve_ok.1 hx
  exact (readOp_checks (by simp) ea sz).bind_pure fun v _ => ⟨_, rfl⟩

/-- The read-modify-write of a destination that has its words after the first m: its write is at the address of its
read, and cannot fail after it. -/
theorem addToOperand_checks {s t : State} {m : Nat} (h : t.params = s.params) (hp : t.pc = s.pc + BitVec.ofNat 32 (2 * m))
    {dst : EA} (hd : dst.isIn .dataAlt = true) (sz : Size) (src : State → Long) :
    Checks s (extAccesses s m (dst.words sz) ++ eaAccess t sz dst) (addToOperand sz src dst t) := by
  refine (resolve_checks h hp dst sz .data).bind fun x hx => ?_
  obtain ⟨loc, u⟩ := x
  obtain ⟨-, rfl, rfl⟩ := resolve_ok.1 hx
  refine (readOp_checks (by simpa using h) dst sz).bind_pure fun v hv => ?_
  have hfits : firstFailing s (eaAccess t sz dst) = none := by
    cases hf : firstFailing s (eaAccess t sz dst) with
    | none => rfl
    | some x =>
      rw [(readOp_checks (by simpa using h) dst sz).1 x.1 x.2 hf] at hv; cases hv
  obtain ⟨w, hw⟩ := (writeOp_checks (s := s) (t := afterEA t sz dst) (by simpa using h) hd sz
    (addOp sz (src (afterEA t sz dst)) v).1).2 hfits
  exact ⟨_, bind_eq_ok.2 ⟨w, hw, rfl⟩⟩

theorem branchTarget_checks (s : State) (d : Disp) : Checks s (extAccesses s 0 d.words) (branchTarget d s) := by
  cases d with
  | short => exact .pure _
  | word => exact (nextExt_checks rfl (by simp)).bind_pure fun x _ => ⟨_, rfl⟩

/-! ### The execute phases -/

theorem addEaDn_checks (s : State) (sz : Size) (src : EA) (dn : Reg) :
    Checks s (operandAccesses s sz src) (addEaDn sz src dn s) := (fetchOperand_checks s src sz).bind_pure fun _ _ => ⟨_, rfl⟩

theorem adda_checks (s : State) (sz : Size) (src : EA) (an : Reg) :
    Checks s (operandAccesses s sz src) (adda sz src an s) := (fetchOperand_checks s src sz).bind_pure fun _ _ => ⟨_, rfl⟩

theorem cmp_checks (s : State) (sz : Size) (src : EA) (dn : Reg) :
    Checks s (operandAccesses s sz src) (cmp sz src dn s) := (fetchOperand_checks s src sz).bind_pure fun _ _ => ⟨_, rfl⟩

theorem cmpa_checks (s : State) (sz : Size) (src : EA) (an : Reg) :
    Checks s (operandAccesses s sz src) (cmpa sz src an s) := (fetchOperand_checks s src sz).bind_pure fun _ _ => ⟨_, rfl⟩

theorem movea_checks (s : State) (sz : Size) (src : EA) (an : Reg) :
    Checks s (operandAccesses s sz src) (movea sz src an s) := (fetchOperand_checks s src sz).bind_pure fun _ _ => ⟨_, rfl⟩

theorem addDnEa_checks (s : State) (sz : Size) (dn : Reg) {dst : EA} (hd : dst.isIn .dataAlt = true) :
    Checks s (operandAccesses s sz dst) (addDnEa sz dn dst s) := addToOperand_checks rfl (by simp) hd sz _

theorem addi_checks (s : State) (sz : Size) (imm : Long) {dst : EA} (hd : dst.isIn .dataAlt = true) :
    Checks s (addiAccesses s sz (immWords sz) dst) (addi sz imm dst s) := by
  have hdst : ∀ t, t = s.setPc (s.pc + BitVec.ofNat 32 (2 * immWords sz)) →
      Checks s (extAccesses s (immWords sz) (dst.words sz) ++ eaAccess s sz dst) (addToOperand sz (fun _ => imm) dst t) := by
    rintro t rfl
    have := addToOperand_checks (s := s) (t := s.setPc (s.pc + BitVec.ofNat 32 (2 * immWords sz))) (by simp) rfl hd
      sz fun _ => imm
    rwa [eaAccess, eaAddr_setPc hd] at this
  cases sz
  · exact (nextExt_checks rfl (by simp)).bind fun t ht => hdst t (nextExt_ok.1 ht).2
  · exact (nextExt_checks rfl (by simp)).bind fun t ht => hdst t (nextExt_ok.1 ht).2
  · exact (nextExt32_checks rfl (by simp)).bind fun t ht => hdst t (nextExt32_ok.1 ht).2.2

theorem addq_checks (s : State) (sz : Size) (q : BitVec 3) {dst : EA} (hd : dst.isIn .alterable = true) :
    Checks s (operandAccesses s sz dst) (addq sz q dst s) := by
  by_cases h : ∃ r, dst = .an r
  · obtain ⟨r, rfl⟩ := h; exact .pure _
  · rw [addq_eq fun r e => h ⟨r, e⟩]
    exact addToOperand_checks rfl (by simp) (by cases dst <;> simp_all [EA.isIn]) sz _

theorem clr_checks (s : State) (sz : Size) {dst : EA} (hd : dst.isIn .dataAlt = true) :
    Checks s (operandAccesses s sz dst) (clr sz dst s) := by
  refine (resolve_checks rfl (by simp) dst sz .data).bind fun x hx => ?_
  obtain ⟨loc, t⟩ := x
  obtain ⟨-, rfl, rfl⟩ := resolve_ok.1 hx
  exact (writeOp_checks (by simp) hd sz 0).bind_pure fun w _ => ⟨_, rfl⟩

theorem move_checks (s : State) (sz : Size) (src : EA) {dst : EA} (hd : dst.isIn .dataAlt = true) :
    Checks s (moveAccesses s sz src dst) (move sz src dst s) := by
  refine (fetchOperand_checks s src sz).bind fun x hx => ?_
  obtain ⟨v, t⟩ := x
  obtain rfl := fetchOperand_frame hx
  refine (resolve_checks (by simp) (by simp) dst sz .data).bind fun y hy => ?_
  obtain ⟨loc, u⟩ := y
  obtain ⟨-, rfl, rfl⟩ := resolve_ok.1 hy
  rw [eaLoc_setPc hd]
  exact (writeOp_checks (by simp) hd sz v).bind_pure fun w _ => ⟨_, rfl⟩

theorem branch_checks (s : State) (c : Cond) (d : Disp) : Checks s (extAccesses s 0 d.words) (branch c d s) :=
  (branchTarget_checks s d).bind_pure fun _ _ => ⟨_, rfl⟩

theorem branchSub_checks (s : State) (d : Disp) :
    Checks s (extAccesses s 0 d.words ++ [(s.areg spNum - 2, .w)]) (branchSub d s) := by
  refine (branchTarget_checks s d).bind fun x hx => ?_
  obtain ⟨t, u⟩ := x
  obtain ⟨-, rfl, rfl⟩ := branchTarget_ok.1 hx
  exact (memWrite_checks (by simp) _ _ _).bind_pure fun w _ => ⟨_, rfl⟩

theorem returnSub_checks (s : State) : Checks s [(s.areg spNum, .w)] (returnSub s) :=
  (memRead_checks rfl _ _).bind_pure fun _ _ => ⟨_, rfl⟩

theorem jump_checks (s : State) {ea : EA} (hd : ea.isIn .control = true) :
    Checks s (extAccesses s 0 (ea.words .l)) (jump ea s) := by
  refine Checks.bind_pure ?_ fun _ _ => ⟨_, rfl⟩
  refine (resolve_checks rfl (by simp) ea .l .jump).bind_pure fun x hx => ?_
  obtain ⟨loc, t⟩ := x
  obtain ⟨-, rfl, rfl⟩ := resolve_ok.1 hx
  cases ea <;> first | exact ⟨_, rfl⟩ | simp [EA.isIn] at hd

theorem stop_checks {s : State} (k : Word) (hs : s.supervisor = true) : Checks s (extAccesses s 0 1) (stop k s) := by
  rw [stop, if_pos hs]
  exact (nextExt_checks rfl (by simp)).bind_pure fun _ _ => ⟨_, rfl⟩

/-! ### The end of the cycle -/

/-- A cycle ends as its execute phase does. -/
theorem Checks.cycle {s : State} {l : List Access} {i : Instr} (h : Checks s l (execute s i)) :
    (∀ a sz, firstFailing s l = some (a, sz) → exec i s = .next (takeFault s (accessFault s a sz) (some (opcodeWord i)))) ∧
      (firstFailing s l = none → ∃ u c, execute s i = .ok (u, c) ∧ exec i s = .next (u.advance c)) := by
  refine ⟨fun a sz e => by rw [exec_eq, h.1 a sz e]; rfl, fun e => ?_⟩
  obtain ⟨⟨u, c⟩, hu⟩ := h.2 e
  exact ⟨u, c, hu, by rw [exec_eq, hu]; rfl⟩

/-- An execute phase without a halt request makes the accesses of its body. -/
theorem Checks.plain {s : State} {l : List Access} {r : Except Stop State} (h : Checks s l r) :
    Checks s l (plain r) :=
  ⟨fun a sz e => plain_error.2 (h.1 a sz e), fun e => by obtain ⟨u, hu⟩ := h.2 e; exact ⟨_, plain_ok.2 ⟨hu, rfl⟩⟩⟩

end Sys2Proof.Machine
end

