-- ==== Sys2Proof/Laws/Texts.lean ====
section
/-! SUPPORT. TRAP #15: what the counted and the NUL-terminated text read answer, 46_trap_stop.md R352, R358, and when an
input request is never answered, R356. -/

namespace Sys2Proof.Machine

theorem load_b (s : State) (a : Long) : (s.load a .b).extractLsb' 0 8 = s.byteAt a := by
  rw [State.load, zextByte]
  apply BitVec.eq_of_toNat_eq
  simp [BitVec.extractLsb'_toNat, (s.byteAt a).isLt]

theorem addr_succ (a : Long) (k : Nat) : a + 1 + BitVec.ofNat 32 k = a + BitVec.ofNat 32 (k + 1) := by
  rw [BitVec.add_assoc, show (1 : Long) = BitVec.ofNat 32 1 from rfl, ← BitVec.ofNat_add, Nat.add_comm]

theorem addr_zero (a : Long) : a + BitVec.ofNat 32 0 = a := BitVec.add_zero a

theorem text_succ (s : State) (a : Long) (n : Nat) :
    (List.range (n + 1)).map (fun k => s.byteAt (a + BitVec.ofNat 32 k)) =
      s.byteAt a :: (List.range n).map fun k => s.byteAt (a + 1 + BitVec.ofNat 32 k) := by
  rw [List.range_succ_eq_map, List.map_cons, List.map_map, addr_zero]
  congr 1
  apply List.map_congr_left
  intro k _
  rw [Function.comp_apply, addr_succ]

/-- The n bytes from a, when all of them are in memory. -/
theorem readCounted_ok (s : State) (n : Nat) : ∀ a : Long, (∀ k, k < n → Fits s (a + BitVec.ofNat 32 k) .b) →
    readCounted s a n = .ok ((List.range n).map fun k => s.byteAt (a + BitVec.ofNat 32 k)) := by
  induction n with
  | zero => intro a h; rfl
  | succ n ih =>
    intro a h
    have h0 := addr_zero a ▸ h 0 (by omega)
    rw [readCounted, memRead_of_fits h0, ok_bind, ih (a + 1) fun k hk => addr_succ a k ▸ h (k + 1) (by omega), ok_bind,
      text_succ, load_b]
    rfl

/-- The bytes from a before the first NUL, n of them. -/
theorem readTerminated_ok (s : State) (n : Nat) : ∀ (a : Long) (fuel : Nat), n < fuel →
    (∀ k, k ≤ n → Fits s (a + BitVec.ofNat 32 k) .b) → (∀ k, k < n → s.byteAt (a + BitVec.ofNat 32 k) ≠ 0) →
    s.byteAt (a + BitVec.ofNat 32 n) = 0 →
    readTerminated s a fuel = .ok ((List.range n).map fun k => s.byteAt (a + BitVec.ofNat 32 k)) := by
  induction n with
  | zero =>
    intro a fuel hlt h _ hz
    obtain ⟨f, rfl⟩ : ∃ f, fuel = f + 1 := ⟨fuel - 1, by omega⟩
    rw [readTerminated, memRead_of_fits (addr_zero a ▸ h 0 (by omega)), ok_bind, load_b,
      if_pos (addr_zero a ▸ hz)]
    rfl
  | succ n ih =>
    intro a fuel hlt h hn hz
    obtain ⟨f, rfl⟩ : ∃ f, fuel = f + 1 := ⟨fuel - 1, by omega⟩
    rw [readTerminated, memRead_of_fits (addr_zero a ▸ h 0 (by omega)), ok_bind, load_b,
      if_neg (addr_zero a ▸ hn 0 (by omega)), ih (a + 1) f (by omega) (fun k hk => addr_succ a k ▸ h (k + 1) (by omega))
        (fun k hk => addr_succ a k ▸ hn (k + 1) (by omega)) (addr_succ a n ▸ hz), ok_bind, text_succ]
    rfl

theorem memRead_byte_out {s : State} {a : Long} (h : ¬ Fits s a .b) :
    memRead s a .b = .error (.raise (.outOfBounds a .b)) := by
  refine memRead_error.2 ?_
  have : s.params.memSize < a.toNat + Size.b.bytes := by
    by_contra hc; exact h ⟨by simp, by omega⟩
  simp [State.checkAccess, this]

/-- The counted read stops at the first byte outside memory. -/
theorem readCounted_out (s : State) (n : Nat) : ∀ (a : Long) (m : Nat), n < m →
    (∀ k, k < n → Fits s (a + BitVec.ofNat 32 k) .b) → ¬ Fits s (a + BitVec.ofNat 32 n) .b →
    readCounted s a m = .error (.raise (.outOfBounds (a + BitVec.ofNat 32 n) .b)) := by
  induction n with
  | zero =>
    intro a m hm h hn
    obtain ⟨f, rfl⟩ : ∃ f, m = f + 1 := ⟨m - 1, by omega⟩
    rw [addr_zero] at hn ⊢
    rw [readCounted, memRead_byte_out hn, error_bind]
  | succ n ih =>
    intro a m hm h hn
    obtain ⟨f, rfl⟩ : ∃ f, m = f + 1 := ⟨m - 1, by omega⟩
    rw [readCounted, memRead_of_fits (addr_zero a ▸ h 0 (by omega)), ok_bind, ih (a + 1) f (by omega)
      (fun k hk => addr_succ a k ▸ h (k + 1) (by omega)) (addr_succ a n ▸ hn), error_bind, addr_succ]

/-- The NUL-terminated read stops at the first byte outside memory that it reaches. -/
theorem readTerminated_out (s : State) (n : Nat) : ∀ (a : Long) (m : Nat), n < m →
    (∀ k, k < n → Fits s (a + BitVec.ofNat 32 k) .b) → (∀ k, k < n → s.byteAt (a + BitVec.ofNat 32 k) ≠ 0) →
    ¬ Fits s (a + BitVec.ofNat 32 n) .b →
    readTerminated s a m = .error (.raise (.outOfBounds (a + BitVec.ofNat 32 n) .b)) := by
  induction n with
  | zero =>
    intro a m hm h _ hn
    obtain ⟨f, rfl⟩ : ∃ f, m = f + 1 := ⟨m - 1, by omega⟩
    rw [addr_zero] at hn ⊢
    rw [readTerminated, memRead_byte_out hn, error_bind]
  | succ n ih =>
    intro a m hm h hz hn
    obtain ⟨f, rfl⟩ : ∃ f, m = f + 1 := ⟨m - 1, by omega⟩
    rw [readTerminated, memRead_of_fits (addr_zero a ▸ h 0 (by omega)), ok_bind, load_b,
      if_neg (addr_zero a ▸ hz 0 (by omega)), ih (a + 1) f (by omega) (fun k hk => addr_succ a k ▸ h (k + 1) (by omega))
        (fun k hk => addr_succ a k ▸ hz (k + 1) (by omega)) (addr_succ a n ▸ hn), error_bind, addr_succ]

/-- The NUL-terminated read gives up only when none of the bytes it read is 0x00. -/
theorem readTerminated_stuck (s : State) (n : Nat) : ∀ a : Long, readTerminated s a n = .error (.stuck .stringNeverEnds) →
    ∀ k, k < n → s.byteAt (a + BitVec.ofNat 32 k) ≠ 0 := by
  induction n with
  | zero => intro a _ k hk; omega
  | succ n ih =>
    intro a h k hk
    simp only [readTerminated, bind_eq_error, memRead_error, memRead_ok] at h
    rcases h with h | ⟨v, ⟨-, rfl⟩, h⟩
    · rcases checkAccess_error h with ⟨h, -⟩ | ⟨h, -⟩ <;> simp at h
    · rw [load_b] at h
      split at h
      · simp [pure, Except.pure] at h
      · rename_i hne
        simp only [bind_eq_error, pure, Except.pure, reduceCtorEq, and_false, exists_false, or_false] at h
        cases k with
        | zero => rw [addr_zero]; exact hne
        | succ k => rw [← addr_succ]; exact ih (a + 1) h k (by omega)

/-- In a memory without a NUL that has every address, the NUL-terminated read gives up. -/
theorem readTerminated_never {s : State} (hf : ∀ a : Long, Fits s a .b) (hz : ∀ a : Long, s.byteAt a ≠ 0) (n : Nat) :
    ∀ a : Long, readTerminated s a n = .error (.stuck .stringNeverEnds) := by
  induction n with
  | zero => intro a; rfl
  | succ n ih =>
    intro a
    rw [readTerminated, memRead_of_fits (hf a), ok_bind, load_b, if_neg (hz a), ih, error_bind]

/-! ### Requests that are never answered -/

/-- InNumber is never answered when no answer is known beforehand and the free value is none (log 10). -/
theorem askNumber_none {h : HostPort} :
    h.askNumber = none ↔ h.numbers = [] ∧ Config.hostNumber (h.requests ++ [.inNumber]) = none := by
  rcases h with ⟨_, _ | _, _, _⟩ <;> simp [HostPort.askNumber, HostPort.send]

theorem askChar_none {h : HostPort} :
    h.askChar = none ↔ h.chars = [] ∧ Config.hostChar (h.requests ++ [.inChar]) = none := by
  rcases h with ⟨_, _, _ | _, _⟩ <;> simp [HostPort.askChar, HostPort.send]

theorem askPending_none {h : HostPort} :
    h.askPending = none ↔ h.pendings = [] ∧ Config.hostPending (h.requests ++ [.pending]) = none := by
  rcases h with ⟨_, _, _, _ | _⟩ <;> simp [HostPort.askPending, HostPort.send]

end Sys2Proof.Machine
end

