-- ==== Sys2Proof/Laws/Decode.lean ====
section
/-! SUPPORT. The decoder: operands decode to the form their fields name, the words of an operand decode to it, and the
row that matches the opcode word of each instruction. -/

namespace Sys2Proof
open Sys2Proof.Machine

/-! ### Operands -/

theorem bits3 (x : BitVec 3) : x = 0 ∨ x = 1 ∨ x = 2 ∨ x = 3 ∨ x = 4 ∨ x = 5 ∨ x = 6 ∨ x = 7 := by revert x; decide

theorem immFits_decodeImm (sz : Size) (ext : List Word) : (EA.imm (decodeImm sz ext)).immFits sz = true := by
  cases sz
  · refine decide_eq_true ?_
    have := ((extWord ext 0).extractLsb' 0 8).isLt
    show (BitVec.setWidth 32 _).toNat < 256
    rw [BitVec.toNat_setWidth]; exact Nat.lt_of_le_of_lt (Nat.mod_le _ _) this
  · refine decide_eq_true ?_
    have := (extWord ext 0).isLt
    show (BitVec.setWidth 32 _).toNat < 65536
    rw [BitVec.toNat_setWidth]; exact Nat.lt_of_le_of_lt (Nat.mod_le _ _) this
  · rfl

/-- An operand that decodes has the fields it was decoded from, and is legal. -/
theorem decodeEA_fields {set : ModeSet} {sz : Size} {mode : BitVec 3} {reg : Reg} {ext : List Word} {ea : EA}
    (h : decodeEA set sz mode reg ext = .ok ea) :
    ea.modeField = mode ∧ ea.regField = reg ∧ ea.legal set sz = true := by
  unfold decodeEA at h
  split at h
  case isFalse => simp at h
  rename_i hl
  have himm := immFits_decodeImm sz ext
  rcases bits3 mode with rfl | rfl | rfl | rfl | rfl | rfl | rfl | rfl
  case inr.inr.inr.inr.inr.inr.inr =>
    rcases bits3 reg with rfl | rfl | rfl | rfl | rfl | rfl | rfl | rfl <;>
      simp [modeLegal] at hl h <;> subst h <;>
      simp_all [EA.modeField, EA.regField, EA.legal, EA.isIn] <;> simp [EA.immFits]
  all_goals
    simp [modeLegal] at hl h
    subst h
    simp_all [EA.modeField, EA.regField, EA.legal, EA.isIn]
    try simp [EA.immFits]

theorem extWord_zero (w : Word) (r : List Word) : extWord (w :: r) 0 = w := rfl
theorem extWord_one (w x : Word) (r : List Word) : extWord (w :: x :: r) 1 = x := rfl

theorem long_halves (v : Long) : v.extractLsb' 16 16 ++ v.extractLsb' 0 16 = v := by
  apply BitVec.eq_of_getLsbD_eq
  intro i hi
  rw [BitVec.getLsbD_append]
  split
  · rename_i h; rw [BitVec.getLsbD_extractLsb', Nat.zero_add, decide_eq_true h, Bool.true_and]
  · rename_i h; rw [BitVec.getLsbD_extractLsb', show 16 + (i - 16) = i by omega, decide_eq_true (by omega), Bool.true_and]

theorem decodeBrief_encodeBrief (x : Brief) : decodeBrief (encodeBrief x) = x := by
  obtain ⟨a, r, l, d⟩ := x
  have h1 : ∀ (a : Bool) (r : Reg) (l : Bool), (BitVec.ofBool a ++ r ++ BitVec.ofBool l ++ 0b000#3 : BitVec 8).getLsbD 7 = a ∧
    (BitVec.ofBool a ++ r ++ BitVec.ofBool l ++ 0b000#3 : BitVec 8).extractLsb' 4 3 = r ∧
    (BitVec.ofBool a ++ r ++ BitVec.ofBool l ++ 0b000#3 : BitVec 8).getLsbD 3 = l := by decide
  obtain ⟨h2, h3, h4⟩ := h1 a r l
  generalize hx : (BitVec.ofBool a ++ r ++ BitVec.ofBool l ++ 0b000#3 : BitVec 8) = hi at h2 h3 h4
  have he : encodeBrief ⟨a, r, l, d⟩ = hi ++ d := by rw [encodeBrief, ← hx]
  rw [he, decodeBrief]
  have g (k : Nat) (hk : 8 ≤ k) : (hi ++ d).getLsbD k = hi.getLsbD (k - 8) := by
    rw [BitVec.getLsbD_append, if_neg (by omega)]
  congr 1
  · rw [g 15 (by omega)]; exact h2
  · rw [← h3]
    apply BitVec.eq_of_getLsbD_eq
    intro i hi'
    rw [BitVec.getLsbD_extractLsb', BitVec.getLsbD_extractLsb', g _ (by omega)]
    congr 2; omega
  · rw [g 11 (by omega)]; exact h4
  · apply BitVec.eq_of_getLsbD_eq
    intro i hi'
    rw [BitVec.getLsbD_extractLsb', Nat.zero_add, BitVec.getLsbD_append, if_pos hi', decide_eq_true hi', Bool.true_and]

/-- The words of an operand decode to it, whatever follows them. -/
theorem decodeEA_extWords {set : ModeSet} {sz : Size} {ea : EA} (h : ea.legal set sz = true) (rest : List Word) :
    decodeEA set sz ea.modeField ea.regField (ea.extWords sz ++ rest) = .ok ea ∧
      eaWords sz ea.modeField ea.regField = (ea.extWords sz).length := by
  obtain ⟨hs, hf⟩ := legal_iff.1 h
  have himm : ∀ v, ea = .imm v → decodeImm sz ((EA.imm v).extWords sz ++ rest) = v := by
    rintro v rfl
    cases sz
    · have hv := of_decide_eq_true hf
      apply BitVec.eq_of_toNat_eq
      simp [decodeImm, EA.extWords, extWord_zero, zextByte, BitVec.extractLsb'_toNat]
      omega
    · have hv := of_decide_eq_true hf
      apply BitVec.eq_of_toNat_eq
      simp [decodeImm, EA.extWords, extWord_zero, zextWord, BitVec.extractLsb'_toNat]
      omega
    · simp [decodeImm, EA.extWords, wordsOfLong, extWord_zero, extWord_one, long_halves]
  cases ea with
  | imm v =>
    refine ⟨?_, ?_⟩
    · simp only [decodeEA, EA.modeField, EA.regField, himm v rfl]
      simp [EA.isIn] at hs
      simp [modeLegal, hs]
    · cases sz <;> rfl
  | _ =>
    refine ⟨?_, rfl⟩
    simp [EA.isIn] at hs
    simp [decodeEA, EA.modeField, EA.regField, EA.extWords, modeLegal, hs, extWord_zero, extWord_one, wordsOfLong,
      long_halves, decodeBrief_encodeBrief]

/-! ### Opcode words as their ten high and six low bits -/

theorem append_assoc_fields (h : BitVec 10) (m x : BitVec 3) : (h ++ m ++ x : BitVec 16) = h ++ (m ++ x : BitVec 6) := by
  apply BitVec.eq_of_getLsbD_eq
  intro i _
  simp only [BitVec.getLsbD_append]
  by_cases h1 : i < 3
  · simp [h1, show i < 3 + 3 by omega]
  · by_cases h2 : i < 6
    · simp [h1, h2, show i - 3 < 3 by omega]
    · simp [h1, h2, show ¬ i - 3 < 3 by omega, show i - 3 - 3 = i - 6 by omega]

theorem eaMode_fields (h : BitVec 10) (m x : BitVec 3) : eaMode (h ++ m ++ x : BitVec 16) = m := by
  apply BitVec.eq_of_getLsbD_eq
  intro i hi
  rw [eaMode, BitVec.getLsbD_extractLsb', BitVec.getLsbD_append, if_neg (by omega), BitVec.getLsbD_append,
    if_pos (by omega), show 3 + i - 3 = i by omega, decide_eq_true hi, Bool.true_and]

theorem eaReg_fields (h : BitVec 10) (m x : BitVec 3) : eaReg (h ++ m ++ x : BitVec 16) = x := by
  apply BitVec.eq_of_getLsbD_eq
  intro i hi
  rw [eaReg, BitVec.getLsbD_extractLsb', BitVec.getLsbD_append, if_pos (by omega), Nat.zero_add, decide_eq_true hi,
    Bool.true_and]

/-- Bits of the high part. -/
theorem high_fields (h : BitVec 10) (m x : BitVec 3) (k : Nat) (hk : 6 ≤ k) (n : Nat) :
    (h ++ m ++ x : BitVec 16).extractLsb' k n = h.extractLsb' (k - 6) n := by
  apply BitVec.eq_of_getLsbD_eq
  intro i hi
  rw [BitVec.getLsbD_extractLsb', BitVec.getLsbD_extractLsb', BitVec.getLsbD_append, if_neg (by omega),
    BitVec.getLsbD_append, if_neg (by omega), show k + i - 3 - 3 = k - 6 + i by omega]

/-- A row whose mask has no bit below 6 admits a word by its high bits and the guard. -/
theorem admits_congr {row : Row} (hm : row.mask.extractLsb' 0 6 = 0) (h : BitVec 10) {m x m' x' : BitVec 3}
    (hg : (2 ≤ m.toNat) = (2 ≤ m'.toNat)) : row.admits (h ++ m ++ x) = row.admits (h ++ m' ++ x') := by
  have hz : row.mask = row.mask.extractLsb' 6 10 ++ (0 : BitVec 6) := by
    apply BitVec.eq_of_getLsbD_eq
    intro i hi
    rw [BitVec.getLsbD_append]
    split
    · rename_i h6
      have := congrArg (·.getLsbD i) hm
      simpa [BitVec.getLsbD_extractLsb', h6] using this
    · rw [BitVec.getLsbD_extractLsb', show 6 + (i - 6) = i by omega, decide_eq_true (by omega), Bool.true_and]
  have key : ∀ m x : BitVec 3, (h ++ m ++ x : BitVec 16) &&& row.mask = (h &&& row.mask.extractLsb' 6 10) ++ (0 : BitVec 6) := by
    intro m x
    conv_lhs => rw [append_assoc_fields, hz]
    rw [BitVec.and_append]; simp
  simp only [Row.admits, key, eaMode_fields, hg]

/-- Outside line 0x4 the row that matches depends on the high bits, and for the guard on whether the mode is 0 or 1. -/
theorem firstMatch_congr {h : BitVec 10} (hline : h.extractLsb' 6 4 ≠ 4) {m x m' x' : BitVec 3}
    (hg : (2 ≤ m.toNat) = (2 ≤ m'.toNat)) : firstMatch (h ++ m ++ x) = firstMatch (h ++ m' ++ x') := by
  have rows : ∀ row ∈ decodeTable, row.mask.extractLsb' 0 6 = 0 ∨
      (row.mask.extractLsb' 12 4 = 0xF ∧ row.pattern.extractLsb' 12 4 = 4) := by decide
  have none4 : ∀ row ∈ decodeTable, ¬ row.mask.extractLsb' 0 6 = 0 → ∀ m x : BitVec 3,
      row.admits (h ++ m ++ x) = false := by
    intro row hr hne m x
    obtain ⟨h1, h2⟩ := (rows row hr).resolve_left hne
    have : (h ++ m ++ x : BitVec 16) &&& row.mask ≠ row.pattern := by
      intro e
      have e' := congrArg (·.extractLsb' 12 4) e
      simp only [h2, BitVec.extractLsb'_and, h1, high_fields h m x 12 (by omega) 4] at e'
      refine hline (Eq.trans ?_ e')
      exact (BitVec.and_allOnes).symm
    simp [Row.admits, this]
  have : ∀ row ∈ decodeTable, row.admits (h ++ m ++ x) = row.admits (h ++ m' ++ x') := by
    intro row hr
    by_cases hz : row.mask.extractLsb' 0 6 = 0
    · exact admits_congr hz h hg
    · rw [none4 row hr hz, none4 row hr hz]
  have find : ∀ l : List Row, (∀ row ∈ l, row.admits (h ++ m ++ x) = row.admits (h ++ m' ++ x')) →
      l.find? (·.admits (h ++ m ++ x)) = l.find? (·.admits (h ++ m' ++ x')) := by
    intro l
    induction l with
    | nil => intro _; rfl
    | cons row rest ih =>
      intro hl
      rw [List.find?_cons, List.find?_cons, hl row List.mem_cons_self, ih fun r hr => hl r (List.mem_cons_of_mem _ hr)]
  rw [firstMatch, find decodeTable this, firstMatch]

/-- The mode that stands for a mode in `firstMatch_congr`. -/
def guardMode (m : BitVec 3) : BitVec 3 := if 2 ≤ m.toNat then 2 else 0

theorem guardMode_guard (m : BitVec 3) : (2 ≤ m.toNat) = (2 ≤ (guardMode m).toNat) := by revert m; decide

theorem firstMatch_fields {h : BitVec 10} (hline : h.extractLsb' 6 4 ≠ 4) (m x : BitVec 3) :
    firstMatch (h ++ m ++ x) = firstMatch (h ++ guardMode m ++ (0 : BitVec 3)) :=
  firstMatch_congr hline (guardMode_guard m)

theorem guardMode_cases (m : BitVec 3) : guardMode m = 0 ∨ guardMode m = 2 := by revert m; decide

/-! ### The row of each format -/

/-- The row of a word whose high bits are `h`, outside line 0x4, when it is the same for both cases of the guard. -/
theorem firstMatch_of_high {h : BitVec 10} {op : Op} (hline : h.extractLsb' 6 4 ≠ 4)
    (h0 : firstMatch (h ++ (0 : BitVec 3) ++ (0 : BitVec 3)) = some op)
    (h2 : firstMatch (h ++ (2 : BitVec 3) ++ (0 : BitVec 3)) = some op) (m x : BitVec 3) :
    firstMatch (h ++ m ++ x) = some op := by
  rw [firstMatch_fields hline]
  rcases guardMode_cases m with e | e <;> rw [e] <;> assumption

/-- As `firstMatch_of_high`, for a mode that the guard admits. -/
theorem firstMatch_of_high_mem {h : BitVec 10} {op : Op} (hline : h.extractLsb' 6 4 ≠ 4)
    (h2 : firstMatch (h ++ (2 : BitVec 3) ++ (0 : BitVec 3)) = some op) {m : BitVec 3} (hm : 2 ≤ m.toNat) (x : BitVec 3) :
    firstMatch (h ++ m ++ x) = some op := by
  rw [firstMatch_fields hline, show guardMode m = 2 from if_pos hm]; exact h2

/-- A branch word as high bits and two fields. -/
theorem branch_fields (c : Cond) (d : Disp) :
    fmtBranch c d = (0b0110#4 ++ c.code ++ d.field.extractLsb' 6 2 : BitVec 10) ++ d.field.extractLsb' 3 3 ++
      d.field.extractLsb' 0 3 := by
  rw [fmtBranch]
  apply BitVec.eq_of_getLsbD_eq
  intro i hi
  simp only [BitVec.getLsbD_append, BitVec.getLsbD_extractLsb']
  by_cases h1 : i < 3
  · simp [h1, show i < 8 by omega]
  · by_cases h2 : i < 6
    · simp [h1, show i < 8 by omega, show i - 3 < 3 by omega, show 3 + (i - 3) = i by omega]
    · by_cases h3 : i < 8
      · simp [h1, h3, show ¬ i - 3 < 3 by omega, show i - 3 - 3 < 2 by omega, show 6 + (i - 3 - 3) = i by omega]
      · simp [h1, h3, show ¬ i - 3 < 3 by omega, show ¬ i - 3 - 3 < 2 by omega, show i - 3 - 3 - 2 = i - 8 by omega]

/-- The row of a branch. -/
theorem firstMatch_branch {c : Cond} {op : Op}
    (h : ∀ t : BitVec 2, firstMatch ((0b0110#4 ++ c.code ++ t : BitVec 10) ++ (0 : BitVec 3) ++ (0 : BitVec 3)) = some op ∧
      firstMatch ((0b0110#4 ++ c.code ++ t : BitVec 10) ++ (2 : BitVec 3) ++ (0 : BitVec 3)) = some op)
    (d : Disp) : firstMatch (fmtBranch c d) = some op := by
  rw [branch_fields]
  have hl : ∀ (cc : BitVec 4) (t : BitVec 2), (0b0110#4 ++ cc ++ t : BitVec 10).extractLsb' 6 4 ≠ 4 := by decide
  exact firstMatch_of_high (hl _ _) (h _).1 (h _).2 _ _

end Sys2Proof
end

