-- ==== Sys2Proof/Laws/PerInstr.lean ====
section
/-! SUPPORT. The laws of LAWS.json's families, one lemma per constructor of Instr. -/

namespace Sys2Proof.Laws
open Sys2Proof.Machine

/-- The row of the decode table of each instruction, 30_encoding.md R116, R117. -/
def rowOf : Instr → Op
  | .moveaL _ _ => .moveaL
  | .moveaW _ _ => .moveaW
  | .moveB _ _ => .moveB
  | .moveL _ _ => .moveL
  | .moveW _ _ => .moveW
  | .addiB _ _ => .addiB
  | .addiW _ _ => .addiW
  | .addiL _ _ => .addiL
  | .clrB _ => .clrB
  | .clrW _ => .clrW
  | .clrL _ => .clrL
  | .rts => .rts
  | .stop _ => .stop
  | .trap15 => .trap15
  | .jmp _ => .jmp
  | .addqB _ _ => .addqB
  | .addqW _ _ => .addqW
  | .addqL _ _ => .addqL
  | .bra _ => .bra
  | .bsr _ => .bsr
  | .bhi _ => .bhi
  | .bls _ => .bls
  | .bcc _ => .bcc
  | .bcs _ => .bcs
  | .bne _ => .bne
  | .beq _ => .beq
  | .bvc _ => .bvc
  | .bvs _ => .bvs
  | .bpl _ => .bpl
  | .bmi _ => .bmi
  | .bge _ => .bge
  | .blt _ => .blt
  | .bgt _ => .bgt
  | .ble _ => .ble
  | .cmpB _ _ => .cmpB
  | .cmpW _ _ => .cmpW
  | .cmpL _ _ => .cmpL
  | .cmpaW _ _ => .cmpaW
  | .cmpaL _ _ => .cmpaL
  | .addEaDnB _ _ => .addEaDnB
  | .addEaDnW _ _ => .addEaDnW
  | .addEaDnL _ _ => .addEaDnL
  | .addDnEaB _ _ => .addDnEaB
  | .addDnEaW _ _ => .addDnEaW
  | .addDnEaL _ _ => .addDnEaL
  | .addaW _ _ => .addaW
  | .addaL _ _ => .addaL

theorem dataAlt_mode {ea : EA} (h : ea.isIn .dataAlt = true) : ea.modeField ≠ 1 := by
  cases ea <;> simp_all [EA.isIn, EA.modeField]

theorem memAlt_mode {ea : EA} (h : ea.isIn .memAlt = true) : 2 ≤ ea.modeField.toNat := by
  cases ea <;> simp_all [EA.isIn, EA.modeField]

/-! ### The rows by their high bits -/

/-- The row of a word with the high bits `h`, for both cases of the guard. -/
abbrev rowIs (h : BitVec 10) (op : Op) : Prop :=
  h.extractLsb' 6 4 ≠ 4 ∧ firstMatch (h ++ (0 : BitVec 3) ++ (0 : BitVec 3)) = some op ∧
    firstMatch (h ++ (2 : BitVec 3) ++ (0 : BitVec 3)) = some op

theorem rowIs.row {h : BitVec 10} {op : Op} (hr : rowIs h op) (m x : BitVec 3) : firstMatch (h ++ m ++ x) = some op :=
  firstMatch_of_high hr.1 hr.2.1 hr.2.2 m x

theorem move_rows : ∀ r m : BitVec 3,
    rowIs (0b00#2 ++ 0b10#2 ++ r ++ 0b001#3) .moveaL ∧ rowIs (0b00#2 ++ 0b11#2 ++ r ++ 0b001#3) .moveaW ∧
    (m ≠ 1 → rowIs (0b00#2 ++ 0b01#2 ++ r ++ m) .moveB ∧ rowIs (0b00#2 ++ 0b10#2 ++ r ++ m) .moveL ∧
      rowIs (0b00#2 ++ 0b11#2 ++ r ++ m) .moveW) := by decide +kernel

theorem line0_rows : rowIs (0x06#8 ++ 0b00#2) .addiB ∧ rowIs (0x06#8 ++ 0b01#2) .addiW ∧
    rowIs (0x06#8 ++ 0b10#2) .addiL := by decide +kernel

theorem line4_rows : firstMatch 0x4E75 = some .rts ∧ firstMatch 0x4E72 = some .stop ∧ firstMatch 0x4E4F = some .trap15 ∧
    ∀ m x : BitVec 3, firstMatch (0x42#8 ++ 0b00#2 ++ m ++ x) = some .clrB ∧
      firstMatch (0x42#8 ++ 0b01#2 ++ m ++ x) = some .clrW ∧ firstMatch (0x42#8 ++ 0b10#2 ++ m ++ x) = some .clrL ∧
      firstMatch (0b0100111011#10 ++ m ++ x) = some .jmp := by decide +kernel

theorem line5_rows : ∀ q : BitVec 3, rowIs (0b0101#4 ++ q ++ 0b0#1 ++ 0b00#2) .addqB ∧
    rowIs (0b0101#4 ++ q ++ 0b0#1 ++ 0b01#2) .addqW ∧ rowIs (0b0101#4 ++ q ++ 0b0#1 ++ 0b10#2) .addqL := by
  decide +kernel

theorem line6_rows : ∀ t : BitVec 2, ∀ p ∈ [(0#4, Op.bra), (1#4, .bsr), (2#4, .bhi), (3#4, .bls), (4#4, .bcc),
    (5#4, .bcs), (6#4, .bne), (7#4, .beq), (8#4, .bvc), (9#4, .bvs), (10#4, .bpl), (11#4, .bmi), (12#4, .bge),
    (13#4, .blt), (14#4, .bgt), (15#4, .ble)], rowIs (0b0110#4 ++ p.1 ++ t) p.2 := by decide +kernel

theorem lineB_rows : ∀ r : BitVec 3, rowIs (0xB#4 ++ r ++ 0b000#3) .cmpB ∧ rowIs (0xB#4 ++ r ++ 0b001#3) .cmpW ∧
    rowIs (0xB#4 ++ r ++ 0b010#3) .cmpL ∧ rowIs (0xB#4 ++ r ++ 0b011#3) .cmpaW ∧
    rowIs (0xB#4 ++ r ++ 0b111#3) .cmpaL := by decide +kernel

theorem lineD_rows : ∀ r : BitVec 3, rowIs (0xD#4 ++ r ++ 0b000#3) .addEaDnB ∧ rowIs (0xD#4 ++ r ++ 0b001#3) .addEaDnW ∧
    rowIs (0xD#4 ++ r ++ 0b010#3) .addEaDnL ∧ rowIs (0xD#4 ++ r ++ 0b011#3) .addaW ∧
    rowIs (0xD#4 ++ r ++ 0b111#3) .addaL ∧ (0xD#4 ++ r ++ 0b100#3 : BitVec 10).extractLsb' 6 4 ≠ 4 ∧
    (0xD#4 ++ r ++ 0b101#3 : BitVec 10).extractLsb' 6 4 ≠ 4 ∧ (0xD#4 ++ r ++ 0b110#3 : BitVec 10).extractLsb' 6 4 ≠ 4 ∧
    firstMatch ((0xD#4 ++ r ++ 0b100#3 : BitVec 10) ++ (2 : BitVec 3) ++ (0 : BitVec 3)) = some .addDnEaB ∧
    firstMatch ((0xD#4 ++ r ++ 0b101#3 : BitVec 10) ++ (2 : BitVec 3) ++ (0 : BitVec 3)) = some .addDnEaW ∧
    firstMatch ((0xD#4 ++ r ++ 0b110#3 : BitVec 10) ++ (2 : BitVec 3) ++ (0 : BitVec 3)) = some .addDnEaL := by
  decide +kernel

theorem branch_row {c : Cond} {op : Op} (d : Disp) (h : rowIs (0b0110#4 ++ c.code ++ d.field.extractLsb' 6 2) op) :
    firstMatch (fmtBranch c d) = some op := by
  rw [branch_fields]; exact h.row _ _

/-- DecodeRow: the first row of the decode table that admits the opcode word of a well-formed instruction is its own. -/
def DecodeRow.Statement (i : Instr) : Prop := WellFormed i = true → firstMatch (opcodeWord i) = some (rowOf i)

theorem DecodeRow.moveaL (src : EA) (an : Reg) : DecodeRow.Statement (.moveaL src an) :=
  fun _ => (move_rows an 0).1.row _ _

theorem DecodeRow.moveaW (src : EA) (an : Reg) : DecodeRow.Statement (.moveaW src an) :=
  fun _ => (move_rows an 0).2.1.row _ _

theorem DecodeRow.moveB (src dst : EA) : DecodeRow.Statement (.moveB src dst) :=
  fun hw => ((move_rows dst.regField dst.modeField).2.2
    (dataAlt_mode (legal_iff.1 (Bool.and_eq_true_iff.1 hw).2).1)).1.row _ _

theorem DecodeRow.moveL (src dst : EA) : DecodeRow.Statement (.moveL src dst) :=
  fun hw => ((move_rows dst.regField dst.modeField).2.2
    (dataAlt_mode (legal_iff.1 (Bool.and_eq_true_iff.1 hw).2).1)).2.1.row _ _

theorem DecodeRow.moveW (src dst : EA) : DecodeRow.Statement (.moveW src dst) :=
  fun hw => ((move_rows dst.regField dst.modeField).2.2
    (dataAlt_mode (legal_iff.1 (Bool.and_eq_true_iff.1 hw).2).1)).2.2.row _ _

theorem DecodeRow.addiB (imm : Byte) (dst : EA) : DecodeRow.Statement (.addiB imm dst) :=
  fun _ => line0_rows.1.row _ _

theorem DecodeRow.addiW (imm : Word) (dst : EA) : DecodeRow.Statement (.addiW imm dst) :=
  fun _ => line0_rows.2.1.row _ _

theorem DecodeRow.addiL (imm : Long) (dst : EA) : DecodeRow.Statement (.addiL imm dst) :=
  fun _ => line0_rows.2.2.row _ _

theorem DecodeRow.clrB (dst : EA) : DecodeRow.Statement (.clrB dst) :=
  fun _ => (line4_rows.2.2.2 _ _).1

theorem DecodeRow.clrW (dst : EA) : DecodeRow.Statement (.clrW dst) :=
  fun _ => (line4_rows.2.2.2 _ _).2.1

theorem DecodeRow.clrL (dst : EA) : DecodeRow.Statement (.clrL dst) :=
  fun _ => (line4_rows.2.2.2 _ _).2.2.1

theorem DecodeRow.rts : DecodeRow.Statement (.rts) :=
  fun _ => line4_rows.1

theorem DecodeRow.stop (k : Word) : DecodeRow.Statement (.stop k) :=
  fun _ => line4_rows.2.1

theorem DecodeRow.trap15 : DecodeRow.Statement (.trap15) :=
  fun _ => line4_rows.2.2.1

theorem DecodeRow.jmp (ea : EA) : DecodeRow.Statement (.jmp ea) :=
  fun _ => (line4_rows.2.2.2 _ _).2.2.2

theorem DecodeRow.addqB (q : BitVec 3) (dst : EA) : DecodeRow.Statement (.addqB q dst) :=
  fun _ => (line5_rows q).1.row _ _

theorem DecodeRow.addqW (q : BitVec 3) (dst : EA) : DecodeRow.Statement (.addqW q dst) :=
  fun _ => (line5_rows q).2.1.row _ _

theorem DecodeRow.addqL (q : BitVec 3) (dst : EA) : DecodeRow.Statement (.addqL q dst) :=
  fun _ => (line5_rows q).2.2.row _ _

theorem DecodeRow.bra (d : Disp) : DecodeRow.Statement (.bra d) :=
  fun _ => branch_row (c := .t) d (line6_rows _ (0#4, .bra) (by simp))

theorem DecodeRow.bsr (d : Disp) : DecodeRow.Statement (.bsr d) :=
  fun _ => branch_row (c := .f) d (line6_rows _ (1#4, .bsr) (by simp))

theorem DecodeRow.bhi (d : Disp) : DecodeRow.Statement (.bhi d) :=
  fun _ => branch_row (c := .hi) d (line6_rows _ (2#4, .bhi) (by simp))

theorem DecodeRow.bls (d : Disp) : DecodeRow.Statement (.bls d) :=
  fun _ => branch_row (c := .ls) d (line6_rows _ (3#4, .bls) (by simp))

theorem DecodeRow.bcc (d : Disp) : DecodeRow.Statement (.bcc d) :=
  fun _ => branch_row (c := .cc) d (line6_rows _ (4#4, .bcc) (by simp))

theorem DecodeRow.bcs (d : Disp) : DecodeRow.Statement (.bcs d) :=
  fun _ => branch_row (c := .cs) d (line6_rows _ (5#4, .bcs) (by simp))

theorem DecodeRow.bne (d : Disp) : DecodeRow.Statement (.bne d) :=
  fun _ => branch_row (c := .ne) d (line6_rows _ (6#4, .bne) (by simp))

theorem DecodeRow.beq (d : Disp) : DecodeRow.Statement (.beq d) :=
  fun _ => branch_row (c := .eq) d (line6_rows _ (7#4, .beq) (by simp))

theorem DecodeRow.bvc (d : Disp) : DecodeRow.Statement (.bvc d) :=
  fun _ => branch_row (c := .vc) d (line6_rows _ (8#4, .bvc) (by simp))

theorem DecodeRow.bvs (d : Disp) : DecodeRow.Statement (.bvs d) :=
  fun _ => branch_row (c := .vs) d (line6_rows _ (9#4, .bvs) (by simp))

theorem DecodeRow.bpl (d : Disp) : DecodeRow.Statement (.bpl d) :=
  fun _ => branch_row (c := .pl) d (line6_rows _ (10#4, .bpl) (by simp))

theorem DecodeRow.bmi (d : Disp) : DecodeRow.Statement (.bmi d) :=
  fun _ => branch_row (c := .mi) d (line6_rows _ (11#4, .bmi) (by simp))

theorem DecodeRow.bge (d : Disp) : DecodeRow.Statement (.bge d) :=
  fun _ => branch_row (c := .ge) d (line6_rows _ (12#4, .bge) (by simp))

theorem DecodeRow.blt (d : Disp) : DecodeRow.Statement (.blt d) :=
  fun _ => branch_row (c := .lt) d (line6_rows _ (13#4, .blt) (by simp))

theorem DecodeRow.bgt (d : Disp) : DecodeRow.Statement (.bgt d) :=
  fun _ => branch_row (c := .gt) d (line6_rows _ (14#4, .bgt) (by simp))

theorem DecodeRow.ble (d : Disp) : DecodeRow.Statement (.ble d) :=
  fun _ => branch_row (c := .le) d (line6_rows _ (15#4, .ble) (by simp))

theorem DecodeRow.cmpB (src : EA) (dn : Reg) : DecodeRow.Statement (.cmpB src dn) :=
  fun _ => (lineB_rows dn).1.row _ _

theorem DecodeRow.cmpW (src : EA) (dn : Reg) : DecodeRow.Statement (.cmpW src dn) :=
  fun _ => (lineB_rows dn).2.1.row _ _

theorem DecodeRow.cmpL (src : EA) (dn : Reg) : DecodeRow.Statement (.cmpL src dn) :=
  fun _ => (lineB_rows dn).2.2.1.row _ _

theorem DecodeRow.cmpaW (src : EA) (an : Reg) : DecodeRow.Statement (.cmpaW src an) :=
  fun _ => (lineB_rows an).2.2.2.1.row _ _

theorem DecodeRow.cmpaL (src : EA) (an : Reg) : DecodeRow.Statement (.cmpaL src an) :=
  fun _ => (lineB_rows an).2.2.2.2.row _ _

theorem DecodeRow.addEaDnB (src : EA) (dn : Reg) : DecodeRow.Statement (.addEaDnB src dn) :=
  fun _ => (lineD_rows dn).1.row _ _

theorem DecodeRow.addEaDnW (src : EA) (dn : Reg) : DecodeRow.Statement (.addEaDnW src dn) :=
  fun _ => (lineD_rows dn).2.1.row _ _

theorem DecodeRow.addEaDnL (src : EA) (dn : Reg) : DecodeRow.Statement (.addEaDnL src dn) :=
  fun _ => (lineD_rows dn).2.2.1.row _ _

theorem DecodeRow.addDnEaB (dn : Reg) (dst : EA) : DecodeRow.Statement (.addDnEaB dn dst) :=
  fun hw => firstMatch_of_high_mem (lineD_rows dn).2.2.2.2.2.1 (lineD_rows dn).2.2.2.2.2.2.2.2.1
    (memAlt_mode (legal_iff.1 hw).1) _

theorem DecodeRow.addDnEaW (dn : Reg) (dst : EA) : DecodeRow.Statement (.addDnEaW dn dst) :=
  fun hw => firstMatch_of_high_mem (lineD_rows dn).2.2.2.2.2.2.1 (lineD_rows dn).2.2.2.2.2.2.2.2.2.1
    (memAlt_mode (legal_iff.1 hw).1) _

theorem DecodeRow.addDnEaL (dn : Reg) (dst : EA) : DecodeRow.Statement (.addDnEaL dn dst) :=
  fun hw => firstMatch_of_high_mem (lineD_rows dn).2.2.2.2.2.2.2.1 (lineD_rows dn).2.2.2.2.2.2.2.2.2.2
    (memAlt_mode (legal_iff.1 hw).1) _

theorem DecodeRow.addaW (src : EA) (an : Reg) : DecodeRow.Statement (.addaW src an) :=
  fun _ => (lineD_rows an).2.2.2.1.row _ _

theorem DecodeRow.addaL (src : EA) (an : Reg) : DecodeRow.Statement (.addaL src an) :=
  fun _ => (lineD_rows an).2.2.2.2.1.row _ _

end Sys2Proof.Laws
end

