-- ==== Sys2Proof/Tests/Slice0.lean ====
section
/-! SUPPORT. Tests. The expected results are the spec's own: words written out bit by bit from the formats of
30_encoding.md R102-R111, and one step of vectors of 95_test_vectors.md (its id stands in each comment). Then, for every
obligation with hypotheses, a witness: a state and operands that meet them together. -/

namespace Sys2Proof.Tests
open Sys2Proof Sys2Proof.Machine

/-! ### WellFormed: an ill-formed term for each check -/

theorem test_wellFormed_byte_source_an : WellFormed (.addEaDnB (.an 0) 0) = false ∧ WellFormed (.cmpB (.an 0) 0) = false ∧
    WellFormed (.moveB (.an 0) (.dn 0)) = false := by decide

theorem test_wellFormed_memAlt : WellFormed (.addDnEaB 0 (.dn 1)) = false ∧ WellFormed (.addDnEaW 0 (.an 1)) = false ∧
    WellFormed (.addDnEaL 0 (.pcDisp 0)) = false := by decide

theorem test_wellFormed_dataAlt : WellFormed (.addiB 0 (.an 0)) = false ∧ WellFormed (.addiW 0 (.pcDisp 0)) = false ∧
    WellFormed (.addiL 0 (.imm 0)) = false ∧ WellFormed (.clrB (.an 0)) = false ∧ WellFormed (.clrW (.imm 0)) = false ∧
    WellFormed (.clrL (.pcIndex ⟨false, 0, false, 0⟩)) = false := by decide

theorem test_wellFormed_move_destination : WellFormed (.moveB (.dn 0) (.an 0)) = false ∧
    WellFormed (.moveW (.dn 0) (.pcDisp 0)) = false ∧ WellFormed (.moveL (.dn 0) (.an 0)) = false := by decide

theorem test_wellFormed_addq : WellFormed (.addqB 1 (.an 0)) = false ∧ WellFormed (.addqW 1 (.imm 0)) = false ∧
    WellFormed (.addqL 1 (.pcDisp 0)) = false := by decide

theorem test_wellFormed_control : WellFormed (.jmp (.dn 0)) = false ∧ WellFormed (.jmp (.an 0)) = false ∧
    WellFormed (.jmp (.postinc 0)) = false ∧ WellFormed (.jmp (.predec 0)) = false ∧ WellFormed (.jmp (.imm 0)) = false := by
  decide

theorem test_wellFormed_immediate_width : WellFormed (.addEaDnB (.imm 0x100) 0) = false ∧
    WellFormed (.moveaW (.imm 0x10000) 0) = false ∧ WellFormed (.moveB (.imm 0x100) (.dn 0)) = false ∧
    WellFormed (.moveaL (.imm 0xFFFFFFFF) 0) = true ∧ WellFormed (.addEaDnB (.imm 0xFF) 0) = true ∧
    WellFormed (.cmpaW (.imm 0xFFFF) 0) = true := by decide

theorem test_wellFormed_inline_displacement : WellFormed (.bra (.short 0)) = false ∧ WellFormed (.bsr (.short 0)) = false ∧
    WellFormed (.bne (.short 0)) = false ∧ WellFormed (.bra (.word 0)) = true := by decide

/-! ### Decoding: a word for every constructor, written out from its format -/

/-- MOVE format: 00, size (01 B, 11 W, 10 L), destination register, destination mode, source mode, source register. -/
theorem test_decode_move :
    decodeInstr (0b00#2 ++ 0b01#2 ++ 0b001#3 ++ 0b000#3 ++ 0b000#3 ++ 0b000#3) [] = .ok (.moveB (.dn 0) (.dn 1)) ∧
    decodeInstr (0b00#2 ++ 0b11#2 ++ 0b001#3 ++ 0b010#3 ++ 0b011#3 ++ 0b110#3) [] = .ok (.moveW (.postinc 6) (.ind 1)) ∧
    decodeInstr (0b00#2 ++ 0b10#2 ++ 0b001#3 ++ 0b101#3 ++ 0b101#3 ++ 0b000#3) [0x0004, 0x0008] =
      .ok (.moveL (.disp 0 4) (.disp 1 8)) ∧
    decodeInstr (0b00#2 ++ 0b11#2 ++ 0b010#3 ++ 0b001#3 ++ 0b111#3 ++ 0b000#3) [0x8000] = .ok (.moveaW (.absW 0x8000) 2) ∧
    decodeInstr (0b00#2 ++ 0b10#2 ++ 0b111#3 ++ 0b001#3 ++ 0b111#3 ++ 0b100#3) [0x0000, 0x8000] =
      .ok (.moveaL (.imm 0x8000) 7) := by decide

/-- IMM and SINGLE formats: the high byte, size (00 B, 01 W, 10 L), EA; the immediate words come first. -/
theorem test_decode_addi_clr :
    decodeInstr (0x06#8 ++ 0b00#2 ++ 0b000#3 ++ 0b010#3) [0xAB01] = .ok (.addiB 1 (.dn 2)) ∧
    decodeInstr (0x06#8 ++ 0b01#2 ++ 0b101#3 ++ 0b000#3) [0x0005, 0x0010] = .ok (.addiW 5 (.disp 0 0x10)) ∧
    decodeInstr (0x06#8 ++ 0b10#2 ++ 0b111#3 ++ 0b001#3) [0x0001, 0x0002, 0x0003, 0x0004] =
      .ok (.addiL 0x00010002 (.absL 0x00030004)) ∧
    decodeInstr (0x42#8 ++ 0b00#2 ++ 0b100#3 ++ 0b111#3) [] = .ok (.clrB (.predec 7)) ∧
    decodeInstr (0x42#8 ++ 0b01#2 ++ 0b110#3 ++ 0b011#3) [0x9804] = .ok (.clrW (.index 3 ⟨true, 1, true, 4⟩)) ∧
    decodeInstr (0x42#8 ++ 0b10#2 ++ 0b000#3 ++ 0b101#3) [] = .ok (.clrL (.dn 5)) := by decide

/-- FIXED, TRAP and CONTROL formats. -/
theorem test_decode_line4 :
    decodeInstr 0b0100111001110101 [] = .ok .rts ∧ decodeInstr 0b0100111001110010 [0x2000] = .ok (.stop 0x2000) ∧
    decodeInstr (0x4E4#12 ++ 0b1111#4) [] = .ok .trap15 ∧
    decodeInstr (0b0100111011#10 ++ 0b111#3 ++ 0b010#3) [0x0010] = .ok (.jmp (.pcDisp 0x10)) ∧
    decodeInstr (0b0100111011#10 ++ 0b111#3 ++ 0b011#3) [0x0702] = .ok (.jmp (.pcIndex ⟨false, 0, false, 2⟩)) := by decide

/-- QUICK format: 0101, data, 0, size, EA. -/
theorem test_decode_addq :
    decodeInstr (0b0101#4 ++ 0b000#3 ++ 0b0#1 ++ 0b00#2 ++ 0b000#3 ++ 0b000#3) [] = .ok (.addqB 0 (.dn 0)) ∧
    decodeInstr (0b0101#4 ++ 0b111#3 ++ 0b0#1 ++ 0b01#2 ++ 0b001#3 ++ 0b100#3) [] = .ok (.addqW 7 (.an 4)) ∧
    decodeInstr (0b0101#4 ++ 0b001#3 ++ 0b0#1 ++ 0b10#2 ++ 0b010#3 ++ 0b001#3) [] = .ok (.addqL 1 (.ind 1)) := by decide

/-- BRANCH format: 0110, condition, displacement. -/
theorem test_decode_branch :
    decodeInstr (0b0110#4 ++ 0b0000#4 ++ 0xFE#8) [] = .ok (.bra (.short 0xFE)) ∧
    decodeInstr (0b0110#4 ++ 0b0001#4 ++ 0x00#8) [0x000A] = .ok (.bsr (.word 0x000A)) ∧
    decodeInstr (0b0110#4 ++ 0b0010#4 ++ 0x02#8) [] = .ok (.bhi (.short 2)) ∧
    decodeInstr (0b0110#4 ++ 0b0011#4 ++ 0x02#8) [] = .ok (.bls (.short 2)) ∧
    decodeInstr (0b0110#4 ++ 0b0100#4 ++ 0x02#8) [] = .ok (.bcc (.short 2)) ∧
    decodeInstr (0b0110#4 ++ 0b0101#4 ++ 0x02#8) [] = .ok (.bcs (.short 2)) ∧
    decodeInstr (0b0110#4 ++ 0b0110#4 ++ 0x02#8) [] = .ok (.bne (.short 2)) ∧
    decodeInstr (0b0110#4 ++ 0b0111#4 ++ 0x00#8) [0x0010] = .ok (.beq (.word 0x10)) ∧
    decodeInstr (0b0110#4 ++ 0b1000#4 ++ 0x02#8) [] = .ok (.bvc (.short 2)) ∧
    decodeInstr (0b0110#4 ++ 0b1001#4 ++ 0x02#8) [] = .ok (.bvs (.short 2)) ∧
    decodeInstr (0b0110#4 ++ 0b1010#4 ++ 0x02#8) [] = .ok (.bpl (.short 2)) ∧
    decodeInstr (0b0110#4 ++ 0b1011#4 ++ 0x02#8) [] = .ok (.bmi (.short 2)) ∧
    decodeInstr (0b0110#4 ++ 0b1100#4 ++ 0x02#8) [] = .ok (.bge (.short 2)) ∧
    decodeInstr (0b0110#4 ++ 0b1101#4 ++ 0x02#8) [] = .ok (.blt (.short 2)) ∧
    decodeInstr (0b0110#4 ++ 0b1110#4 ++ 0x02#8) [] = .ok (.bgt (.short 2)) ∧
    decodeInstr (0b0110#4 ++ 0b1111#4 ++ 0xFF#8) [] = .ok (.ble (.short 0xFF)) := by decide

/-- OPMODE format on line 0xB: 1011, register, opmode (000 B, 001 W, 010 L, 011 CMPA.W, 111 CMPA.L), EA. -/
theorem test_decode_cmp :
    decodeInstr (0b1011#4 ++ 0b011#3 ++ 0b000#3 ++ 0b000#3 ++ 0b001#3) [] = .ok (.cmpB (.dn 1) 3) ∧
    decodeInstr (0b1011#4 ++ 0b011#3 ++ 0b001#3 ++ 0b001#3 ++ 0b001#3) [] = .ok (.cmpW (.an 1) 3) ∧
    decodeInstr (0b1011#4 ++ 0b010#3 ++ 0b010#3 ++ 0b110#3 ++ 0b001#3) [0x1000] =
      .ok (.cmpL (.index 1 ⟨false, 1, false, 0⟩) 2) ∧
    decodeInstr (0b1011#4 ++ 0b000#3 ++ 0b011#3 ++ 0b111#3 ++ 0b100#3) [0x8000] = .ok (.cmpaW (.imm 0x8000) 0) ∧
    decodeInstr (0b1011#4 ++ 0b000#3 ++ 0b111#3 ++ 0b001#3 ++ 0b001#3) [] = .ok (.cmpaL (.an 1) 0) := by decide

/-- OPMODE format on line 0xD: the opmodes of ADD and ADDA, R103. -/
theorem test_decode_add :
    decodeInstr (0b1101#4 ++ 0b001#3 ++ 0b000#3 ++ 0b000#3 ++ 0b000#3) [] = .ok (.addEaDnB (.dn 0) 1) ∧
    decodeInstr (0b1101#4 ++ 0b001#3 ++ 0b001#3 ++ 0b001#3 ++ 0b000#3) [] = .ok (.addEaDnW (.an 0) 1) ∧
    decodeInstr (0b1101#4 ++ 0b001#3 ++ 0b010#3 ++ 0b111#3 ++ 0b001#3) [0x0001, 0x0300] = .ok (.addEaDnL (.absL 0x10300) 1) ∧
    decodeInstr (0b1101#4 ++ 0b001#3 ++ 0b100#3 ++ 0b010#3 ++ 0b000#3) [] = .ok (.addDnEaB 1 (.ind 0)) ∧
    decodeInstr (0b1101#4 ++ 0b001#3 ++ 0b101#3 ++ 0b011#3 ++ 0b000#3) [] = .ok (.addDnEaW 1 (.postinc 0)) ∧
    decodeInstr (0b1101#4 ++ 0b001#3 ++ 0b110#3 ++ 0b100#3 ++ 0b000#3) [] = .ok (.addDnEaL 1 (.predec 0)) ∧
    decodeInstr (0b1101#4 ++ 0b001#3 ++ 0b011#3 ++ 0b000#3 ++ 0b000#3) [] = .ok (.addaW (.dn 0) 1) ∧
    decodeInstr (0b1101#4 ++ 0b001#3 ++ 0b111#3 ++ 0b000#3 ++ 0b000#3) [] = .ok (.addaL (.dn 0) 1) := by decide

/-- Rejected words: ADDM-5, ADDM-6, ADDI-9, ADDQ-8, CMP-11, SEQ-7, TRAP-27 and ADDE-11, ADDE-26, ADDM-7, MOVE-11,
MOVE-14, JMP-10, CLR-7, ADDQ-7. -/
theorem test_decode_rejected :
    ([0xD100, 0xD148, 0x06C0, 0x5100, 0xB101, 0x4E71, 0x4E4E, 0xA000, 0x7001, 0xFFFF].all fun w =>
      decide (decodeInstr w [] = .error .illegalInstruction)) = true ∧
    ([0xD009, 0xD03D, 0xD17A, 0x1040, 0x3BC0, 0x4EC0, 0x4248, 0x5208].all fun w =>
      decide (decodeInstr w [] = .error .illegalAddressingMode)) = true := by decide

/-! ### The host's entry points -/

/-- The table numbers an instruction's bits from its first word on, and words it gives no bits are zero. -/
theorem test_decodeTableWord : decodeTableWord 16 0xD200 = some (.addEaDnB (.dn 0) 1) ∧
    decodeTableWord 32 0x20004E72 = some (.stop 0x2000) ∧ decodeTableWord 16 0x4E72 = some (.stop 0) ∧
    decodeTableWord 16 0x4EC0 = none := by decide

def after (s : State) : State :=
  match step s with
  | .next t => t
  | _ => s

theorem test_withFetchWord : (after (State.reset.withFetchWord 16 0x5280)).dreg 0 = 1 ∧
    (after (State.reset.withFetchWord 32 0x20004E72)).sr = 0x2000 := by decide

/-! ### One step on a small state -/

/-- The start state of 95_test_vectors.md part 1 with words at 0x1000. -/
def at1000 (ws : List Word) : State := { State.reset with mem := placeBytes [] 0x1000 (bytesOfWords ws) }

/-- ADDE-1, and ADDE-2, where the carry differs from the MC68000's. -/
theorem test_add_b :
    let t := after (((at1000 [0xD200]).writeD 0 .l 0x10).writeD 1 .l 0x12345678)
    let u := after (((at1000 [0xD200]).writeD 0 .l 0xFF).writeD 1 .l 1)
    t.dreg 1 = 0x12345688 ∧ t.sr = 0x270A ∧ t.pc = 0x1002 ∧ u.dreg 1 = 0 ∧ u.sr = 0x2704 := by decide

/-- ADDE-10. -/
theorem test_add_w : let t := after (((at1000 [0xD049]).writeA 1 .l 0x18000).writeD 0 .l 0x8000)
    t.dreg 0 = 0 ∧ t.sr = 0x2717 := by decide

/-- ADDE-21 and ADDE-25. -/
theorem test_add_l :
    let s := (((at1000 [0xD4B0, 0x90FC]).writeA 0 .l 0x200).writeA 1 .l 0x10).store 0x20C .l 7
    let u := ((at1000 [0xD0BB, 0x0004]).writeD 0 .l 2).store 0x1008 .l 5
    (after s).dreg 2 = 7 ∧ (after s).pc = 0x1004 ∧ (after u).dreg 0 = 7 := by decide

/-- ADDM-2. -/
theorem test_add_b_to_memory :
    let t := after ((((at1000 [0xD110]).writeD 0 .l 1).writeA 0 .l 0x100).store 0x100 .b 0xFF)
    t.byteAt 0x100 = 0 ∧ t.sr = 0x2715 := by decide

/-- ADDM-10: an odd address. -/
theorem test_add_w_to_memory :
    let t := after ((((at1000 [0xD158]).writeD 0 .l 1).writeA 0 .l 0x101).store 0x100 .l 0x00123400)
    t.load 0x101 .w = 0x1235 ∧ t.areg 0 = 0x103 := by decide

/-- ADDM-3. -/
theorem test_add_l_to_memory :
    let t := after ((((at1000 [0xD1A0]).writeD 0 .l 0x10).writeA 0 .l 0x104).store 0x100 .l 0x20)
    t.load 0x100 .l = 0x30 ∧ t.areg 0 = 0x100 := by decide

/-- ADDA-1 and ADDA-5. -/
theorem test_adda :
    let t := after (((at1000 [0xD0C0]).writeA 0 .l 0x1000).writeD 0 .l 0x1234FFFE)
    let u := after (((at1000 [0xD1D8]).writeA 0 .l 0x100).store 0x100 .l 0x10)
    t.areg 0 = 0xFFE ∧ t.sr = 0x2700 ∧ u.areg 0 = 0x114 := by decide

/-- ADDI-3, ADDI-5 and ADDI-4. -/
theorem test_addi :
    let t := after ((at1000 [0x0600, 0xAB01]).writeD 0 .l 1)
    let u := after (((at1000 [0x0668, 0x0005, 0x0010]).writeA 0 .l 0x200).store 0x210 .w 1)
    let v := after (((at1000 [0x0690, 0x0000, 0x0001]).writeA 0 .l 0x100).store 0x100 .l 0x7FFFFFFF)
    t.dreg 0 = 2 ∧ t.pc = 0x1004 ∧ u.load 0x210 .w = 6 ∧ u.pc = 0x1006 ∧ v.load 0x100 .l = 0x80000000 ∧
      v.sr = 0x270A := by decide

/-- ADDQ-2, ADDQ-6, ADDQ-1 and ADDQ-5. -/
theorem test_addq :
    let t := after ((at1000 [0x5000]).writeD 0 .l 0xF8)
    let u := after (((at1000 [0x5458]).writeA 0 .l 0x100).store 0x100 .w 0xFFFE)
    let v := after ((at1000 [0x5280]).writeD 0 .l 0xFFFFFFFF)
    let w := after (({ at1000 [0x5248] with sr := 0x271F } : State).writeA 0 .l 0xFFFF)
    t.dreg 0 = 0 ∧ t.sr = 0x2715 ∧ u.load 0x100 .w = 0 ∧ u.areg 0 = 0x102 ∧ v.dreg 0 = 0 ∧ v.sr = 0x2715 ∧
      w.areg 0 = 0x10000 ∧ w.sr = 0x271F := by decide

/-- CMP-1, CMP-3 and CMP-5. -/
theorem test_cmp :
    let t := after (((at1000 [0xB001]).writeD 0 .l 5).writeD 1 .l 7)
    let u := after (((at1000 [0xB041]).writeD 0 .l 0x8000).writeD 1 .l 1)
    let v := after (((at1000 [0xB081]).writeD 0 .l 0x7FFFFFFF).writeD 1 .l 0x80000000)
    t.sr = 0x2709 ∧ t.dreg 0 = 5 ∧ u.sr = 0x2702 ∧ v.sr = 0x270B := by decide

/-- CMPA-2 and CMPA-5. -/
theorem test_cmpa :
    let t := after (((at1000 [0xB0C1]).writeA 0 .l 0xFFFFFFFF).writeD 1 .l 0xFFFF)
    let u := after ((({ at1000 [0xB1C1] with sr := 0x2710 } : State).writeA 0 .l 3).writeD 1 .l 3)
    t.sr = 0x2704 ∧ u.sr = 0x2714 := by decide

/-- CLR-6, CLR-2 and CLR-5. -/
theorem test_clr :
    let t := after ((({ at1000 [0x4211] with sr := 0x2711 } : State).writeA 1 .l 0x101).store 0x100 .w 0xFFFF)
    let u := after ((at1000 [0x4240]).writeD 0 .l 0xFFFFFFFF)
    let v := after (((at1000 [0x42A0]).writeA 0 .l 0x104).store 0x100 .l 0xFFFFFFFF)
    t.load 0x100 .w = 0xFF00 ∧ t.sr = 0x2714 ∧ u.dreg 0 = 0xFFFF0000 ∧ v.load 0x100 .l = 0 ∧ v.areg 0 = 0x100 := by decide

/-- MOVE-2, MOVE-7, MOVE-8 and MOVE-6. -/
theorem test_move :
    let t := after (((at1000 [0x1200]).writeD 0 .l 0x80).writeD 1 .l 0x12345678)
    let u := after (((at1000 [0x30D8]).writeA 0 .l 0x100).store 0x100 .w 0xBEEF)
    let v := after (((at1000 [0x3118]).writeA 0 .l 0x100).store 0x100 .w 0xBEEF)
    let w := after ((((at1000 [0x2368, 4, 8]).writeA 0 .l 0x200).writeA 1 .l 0x300).store 0x204 .l 0xDEADBEEF)
    t.dreg 1 = 0x12345680 ∧ t.sr = 0x2708 ∧ u.load 0x102 .w = 0xBEEF ∧ u.areg 0 = 0x104 ∧ v.load 0x100 .w = 0xBEEF ∧
      v.areg 0 = 0x100 ∧ w.load 0x308 .l = 0xDEADBEEF ∧ w.pc = 0x1006 := by decide

/-- MOVE-16: the source read is the fault reported, and A1 is not stepped. -/
theorem test_move_fault :
    let t := after (((at1000 [0x22D0]).writeA 0 .l 0xFFFE).writeA 1 .l 0xFFFE)
    t.run = .faulted ⟨.outOfBounds 0xFFFE .l, 0x1000, some 0x22D0⟩ ∧ t.pc = 0x1000 ∧ t.areg 1 = 0xFFFE := by decide

/-- MOVEA-2 and MOVEA-5. -/
theorem test_movea :
    let t := after { at1000 [0x307C, 0x8000] with sr := 0x271F }
    let u := after (((at1000 [0x2058]).writeA 0 .l 0x100).store 0x100 .l 0x10)
    t.areg 0 = 0xFFFF8000 ∧ t.sr = 0x271F ∧ u.areg 0 = 0x10 := by decide

/-- JMP-3 and JMP-5. -/
theorem test_jmp : (after (at1000 [0x4EF8, 0x8000])).pc = 0xFFFF8000 ∧ (after (at1000 [0x4EFA, 0x0010])).pc = 0x1012 := by
  decide

/-- BRA-3 and BRA-5. -/
theorem test_bra : (after (at1000 [0x6000, 0xFFFE])).pc = 0x1000 ∧ (after (at1000 [0x6080])).pc = 0xF82 := by decide

/-- The columns `-----` and `-N-V-` of V-BCC: the end PC of each condition. -/
theorem test_bcc :
    let taken (sr : Word) (c : BitVec 8) : Bool := (after { at1000 [(0x60 + c) ++ 0x02#8] with sr := sr }).pc == 0x1004
    [2, 3, 4, 5, 6, 7, 8, 9, 10, 11, 12, 13, 14, 15].map (taken 0x2700) =
      [true, false, true, false, true, false, true, false, true, false, true, false, true, false] ∧
    [2, 3, 4, 5, 6, 7, 8, 9, 10, 11, 12, 13, 14, 15].map (taken 0x270A) =
      [true, false, true, false, true, false, false, true, false, true, true, false, true, false] := by decide

/-- The columns `---V-` and `--Z-C` of V-BCC. -/
theorem test_bcc_corners :
    let taken (sr : Word) (c : BitVec 8) : Bool := (after { at1000 [(0x60 + c) ++ 0x02#8] with sr := sr }).pc == 0x1004
    [2, 3, 4, 5, 6, 7, 8, 9, 10, 11, 12, 13, 14, 15].map (taken 0x2702) =
      [true, false, true, false, true, false, false, true, true, false, false, true, false, true] ∧
    [2, 3, 4, 5, 6, 7, 8, 9, 10, 11, 12, 13, 14, 15].map (taken 0x2705) =
      [false, true, false, true, false, true, true, false, true, false, true, false, false, true] := by decide

/-- BCC-1: a branch not taken skips its extension word. -/
theorem test_bcc_not_taken_word : (after (at1000 [0x6700, 0x0010])).pc = 0x1004 := by decide

/-- BSR-2. -/
theorem test_bsr : let t := after ((at1000 [0x6108]).writeA 7 .l 0x8000)
    t.pc = 0x100A ∧ t.areg 7 = 0x7FFE ∧ t.load 0x7FFE .w = 0x1000 := by decide

/-- The source's scenario 3 (45_control_flow.md R340, example). -/
theorem test_rts : let t := after (((at1000 [0x4E75]).writeA 7 .l 0x7FFE).store 0x7FFE .w 0x200E)
    t.pc = 0x2010 ∧ t.areg 7 = 0x8000 := by decide

/-- STOP-3 and STOP-7. -/
theorem test_stop :
    let t := after { at1000 [0x4E72, 0xFFFF] with sr := 0x2000 }
    let u := after { at1000 [0x4E72, 0x2000] with sr := 0x8700 }
    t.sr = 0xA71F ∧ t.run = .halted .stop ∧ t.pc = 0x1004 ∧ u.sr = 0x8700 ∧
      u.run = .faulted ⟨.privilegeViolation, 0x1000, some 0x4E72⟩ := by decide

/-- Task 3 with the two values of R352's example, Dec(0xFFFFFFFB) and Dec(0). -/
theorem test_trap_decimal : decimalText 0xFFFFFFFB = [0x2D, 0x35] ∧ decimalText 0 = [0x30] := by decide

/-- R350's corner case, task 9 by the low byte of D0; and the string "Hi" of program P5, task 14. -/
theorem test_trap :
    let t := after ((at1000 [0x4E4F]).writeD 0 .l 0x109)
    let u := after ((((at1000 [0x4E4F]).writeD 0 .l 14).writeA 1 .l 0x1020).store 0x1020 .w 0x4869)
    t.run = .halted .termination ∧ t.pc = 0x1002 ∧ u.host.requests = [.out [0x48, 0x69]] := by decide

/-- SEQ-3: AddressError before OutOfBounds. -/
theorem test_fetch_alignment :
    (after { State.reset with params := { Params.default with alignmentFault := true }, pc := 0x10001 }).run =
      .faulted ⟨.addressError 0x10001 .w, 0x10001, none⟩ := by decide

/-- The empty text of tasks 0 and 1: R352, "empty when L = 0", with A1 above MEM_SIZE (log 24). -/
theorem test_trap_empty_text :
    let t := after ((((at1000 [0x4E4F]).writeD 0 .l 1).writeA 1 .l 0x20000).writeD 1 .l 0x10000)
    t.run = .running ∧ t.host.requests = [.out []] := by decide

/-- R50: `status()` after the fault of the source's scenario 5, 0xA000. -/
theorem test_status : let t := (after (at1000 [0xA000])).status
    t.frec = some ⟨.illegalInstruction, 0x1000, some 0xA000⟩ ∧ t.registers.pc = 0x1000 ∧ t.registers.sr = 0x2700 ∧
      (after (at1000 [0xA000])).stepReport = .faulted 1 := by decide

/-! ### Witnesses: a state and operands that meet the hypotheses of each obligation, clause by clause at the edges -/

theorem witness_DecodeOfEncode : WellFormed (.moveL (.imm 0xFFFFFFFF) (.absL 0xFFFFFFFF)) = true ∧ WellFormed .rts = true ∧
    WellFormed (.addEaDnB (.imm 0xFF) 7) = true ∧ WellFormed (.ble (.short 0xFF)) = true := by decide

theorem witness_AcceptedWordIsItsInstructions : decodeInstr 0x4E4F [] = .ok .trap15 ∧
    decodeInstr 0x6FFF [] = .ok (.ble (.short 0xFF)) := by decide

theorem witness_LengthOfEncoding : WellFormed (.addiL 0 (.absL 0)) = true ∧ WellFormed .trap15 = true := by decide

theorem witness_OnlyMoveaRowsOverlap :
    (⟨0xF1C0, 0x2040, false, .moveaL⟩ : Row) ∈ decodeTable ∧ (⟨0xF000, 0x2000, false, .moveL⟩ : Row) ∈ decodeTable ∧
    (0x2E7F : Word) &&& 0xF1C0 = 0x2040 ∧ (0x2E7F : Word) &&& 0xF000 = 0x2000 ∧ (0x3040 : Word) &&& 0xF1C0 = 0x3040 := by
  decide

theorem witness_IllegalWordsFault : let s := at1000 [0xA000]
    s.run = .running ∧ Fits s s.pc .w ∧ illegalWord (s.byteAt s.pc ++ s.byteAt (s.pc + 1)) = true := by decide

theorem witness_IllegalModesAreTheListed : firstMatch 0xD009 = some .addEaDnB ∧
    eaCode (eaMode 0xD009) (eaReg 0xD009) ∈ illegalForms .addEaDnB ∧ firstMatch 0x1040 = some .moveB ∧
    eaCode (moveDstMode 0x1040) (highReg 0x1040) ∈ illegalDstForms .moveB ∧ firstMatch 0x4EC4 = some .jmp ∧
    firstMatch 0x4EFB = some .jmp ∧ eaCode (eaMode 0x4EFB) (eaReg 0x4EFB) ∉ illegalForms .jmp := by decide

/-- The step clause: the last word of memory, with an illegal destination and no word after it. -/
theorem witness_IllegalModesAreTheListed_step :
    let s : State := { State.reset with pc := 0xFFFE, mem := placeBytes [] 0xFFFE [0x1F, 0xFC] }
    s.run = .running ∧ Fits s s.pc .w ∧ (0x1FFC : Word) = s.byteAt s.pc ++ s.byteAt (s.pc + 1) ∧
      firstMatch 0x1FFC = some .moveB ∧ eaCode (moveDstMode 0x1FFC) (highReg 0x1FFC) ∈ illegalDstForms .moveB := by decide

theorem witness_StepRunsTheDecodedInstruction : let s := at1000 [0x6700, 0x0010]
    s.run = .running ∧ Fits s s.pc .w ∧
      decodeInstr (s.byteAt s.pc ++ s.byteAt (s.pc + 1)) (extWordsAt s) = .ok (.beq (.word 0x10)) := by decide

theorem witness_StepRunsTheEncodedInstruction : let s := at1000 [0x6700, 0x0010]
    s.run = .running ∧ WellFormed (.beq (.word 0x10)) = true ∧
    (∀ k, k < (encode (.beq (.word 0x10))).length → Fits s (s.pc + BitVec.ofNat 32 (2 * k)) .w) ∧
    ∀ k (h : k < (bytesOfWords (encode (.beq (.word 0x10)))).length),
      s.byteAt (s.pc + BitVec.ofNat 32 k) = (bytesOfWords (encode (.beq (.word 0x10))))[k] := by decide

theorem witness_OpcodeFetchFaults :
    let s : State := { State.reset with pc := 0xFFFF }
    let t : State := { State.reset with params := { Params.default with alignmentFault := true }, pc := 0x1001 }
    s.run = .running ∧ ¬ Fits s s.pc .w ∧ t.run = .running ∧ ¬ Fits t t.pc .w := by decide

theorem witness_StepWhenNotRunningChangesNothing :
    ({ State.reset with run := .halted .stop } : State).run ≠ .running ∧ (after (at1000 [0xA000])).run ≠ .running := by decide

/-- A memory of n bytes without a NUL, with a word at 0x1000. -/
theorem noNul_memory (n : Nat) : ∃ m : Memory, m.read 0x1000 = 0x4E ∧ m.read 0x1001 = 0x4F ∧ ∀ x, x < n → m.read x ≠ 0 := by
  have hw := Memory.fill_wf n 1
  have hw1 := Memory.write_wf hw 0x1000 0x4E
  refine ⟨((Memory.fill n 1).write 0x1000 0x4E).write 0x1001 0x4F, ?_, ?_, fun x hx => ?_⟩
  · rw [Memory.read_write hw1, if_neg (by decide), Memory.read_write hw, if_pos rfl]
  · rw [Memory.read_write hw1, if_pos rfl]
  · rw [Memory.read_write hw1, Memory.read_write hw, Memory.read_fill, if_pos hx]
    split
    · decide
    · split <;> decide

/-- A text that never ends (log 17). The input tasks block exactly where a free value of log 10 is none. -/
theorem witness_OnlyTrapInputBlocks : ∃ s, step s = .fault .stringNeverEnds := by
  obtain ⟨n, hn⟩ : ∃ n, n = 2 ^ 32 := ⟨_, rfl⟩
  obtain ⟨m, h0, h1, hm⟩ := noNul_memory n
  obtain ⟨s, hs⟩ : ∃ s : State, s = ({ State.reset with params := { Params.default with memSize := n }, mem := m } : State).writeD
    0 .l 13 := ⟨_, rfl⟩
  have hsize : s.params.memSize = n := by rw [hs]; rfl
  have hf : ∀ a : Long, Fits s a .b := fun a => ⟨by simp, by have := a.isLt; rw [hsize, hn, Size.bytes]; omega⟩
  have hb : ∀ a : Long, s.byteAt a = m.read a.toNat := fun a => by rw [hs]; rfl
  have hz : ∀ a : Long, s.byteAt a ≠ 0 := fun a => by rw [hb]; exact hm _ (by have := a.isLt; omega)
  have hpc : s.pc = 0x1000 := by rw [hs]; rfl
  have hfetch : fetchOpcode s = .ok 0x4E4F := by
    refine fetchOpcode_ok.2 ⟨⟨by rw [hs]; simp [State.reset, State.launch, Params.default],
      by rw [hsize, hn, hpc]; decide⟩, ?_⟩
    rw [hpc, hb, hb, show ((0x1000 : Long) + 1).toNat = 0x1001 from rfl, show (0x1000 : Long).toNat = 0x1000 from rfl, h0, h1]
    rfl
  have hdec : ∀ ext, decodeInstr 0x4E4F ext = .ok .trap15 := fun _ => rfl
  have htrap : trap15 s = .error (.stuck .stringNeverEnds) := by
    have htask : s.params.trap15Tasks.lookup ((s.dreg 0).extractLsb' 0 8) = some (.outTerminated true) := by rw [hs]; rfl
    simp only [trap15, htask, service, serviceOutTerminated]
    rw [readTerminated_never hf hz]
    rfl
  refine ⟨s, ?_⟩
  have hrun : s.run = .running := by rw [hs]; rfl
  simp only [step, hrun, cycle, hfetch, hdec]
  exact endCycle_fault.2 htrap

theorem witness_FaultsArePrecise : let s : State := { State.reset with pc := 0xFFFF }
    (∃ t f, step s = .next t ∧ t.run = .faulted f) ∧
    ∃ t f, step (at1000 [0xA000]) = .next t ∧ t.run = .faulted f := ⟨⟨_, _, rfl, rfl⟩, ⟨_, _, rfl, rfl⟩⟩

theorem witness_OnlyStopAndTerminationHalt :
    (∃ t, step (at1000 [0x4E72, 0x2000]) = .next t ∧ t.run = .halted .stop) ∧
    ∃ t, step ((at1000 [0x4E4F]).writeD 0 .l 9) = .next t ∧ t.run = .halted .termination := ⟨⟨_, rfl, rfl⟩, ⟨_, rfl, rfl⟩⟩

theorem witness_SystemByteChangesOnlyByStop : ∃ t, step (at1000 [0x5280]) = .next t ∧ t.run ≠ .halted .stop :=
  ⟨_, rfl, by decide⟩

theorem witness_FlagsKeptByInstruction : writesNoFlag (.addaW (.dn 0) 0) = true ∧ keepsX (.clrB (.dn 0)) = true ∧
    (∃ t, exec (.addaW (.dn 0) 0) State.reset = .next t) ∧ ∃ t, exec (.clrB (.dn 0)) State.reset = .next t :=
  ⟨rfl, rfl, ⟨_, rfl⟩, ⟨_, rfl⟩⟩

theorem witness_PcMovesPastTheInstruction : let i : Instr := .addiL 1 (.absL 0x300)
    WellFormed i = true ∧ transfers i = false ∧ ∃ t, exec i State.reset = .next t ∧ t.run = .running :=
  ⟨rfl, rfl, ⟨_, rfl, rfl⟩⟩

/-- The end of memory for BRA, BHI, JMP and BSR, an odd target under ALIGNMENT_FAULT, and the word 0xFFFE popped by RTS,
whose target is MEM_SIZE. -/
theorem witness_TransferOutOfMemoryFaultsAtTheTarget :
    let s := (State.reset.writeA 7 .l 0x8000).store 0x8000 .w 0xFFFE
    let t : State := { State.reset with params := { Params.default with alignmentFault := true } }
    (s.run = .running ∧ condHolds s .t = true ∧ condHolds s .hi = true ∧ ExtFits s (Disp.word 0x8000).words ∧
      ¬ Fits s (s.pc + 2 + (Disp.word 0x8000).value) .w) ∧
    (t.run = .running ∧ ExtFits t (Disp.short 0xFF).words ∧ ¬ Fits t (t.pc + 2 + (Disp.short 0xFF).value) .w) ∧
    (WellFormed (.jmp (.absL 0x10000)) = true ∧ ExtFits s ((EA.absL 0x10000).words .l) ∧
      eaAddr s .l .jump (.absL 0x10000) = some 0x10000 ∧ ¬ Fits s 0x10000 .w) ∧
    Fits s (s.areg 7 - 2) .w ∧ Fits s (s.areg 7) .w ∧ ¬ Fits s (s.load (s.areg 7) .w + 2) .w :=
  ⟨by decide, by decide, by decide, by decide⟩

theorem witness_InvariantAtLaunch : Params.default.Wf ∧ Memory.wf [(0xFFFF, 1)] ∧
    ∀ c ∈ ([(0xFFFF, 1)] : Memory), c.1 < Params.default.memSize := by decide

theorem witness_StepKeepsInvariant : Inv (at1000 [0xA000]) ∧ ∃ t f, step (at1000 [0xA000]) = .next t ∧ t.run = .faulted f :=
  ⟨⟨by decide, by decide, by decide, by decide, fun f h => by simp [at1000, State.reset, State.launch] at h⟩, _, _, rfl, rfl⟩

theorem witness_LoaderFillsMemory : State.reset.mem.wf ∧
    (∃ c ∈ [((0x10000 : Nat), (1 : Byte))], State.reset.params.memSize ≤ c.1) ∧
    ∀ c ∈ [((0xFFFF : Nat), (1 : Byte)), (0xFFFF, 2)], c.1 < State.reset.params.memSize := by decide

theorem witness_AccessChecks :
    let s := State.reset
    let t : State := { State.reset with params := { Params.default with alignmentFault := true } }
    (t.params.alignmentFault = true ∧ Size.w ≠ .b ∧ (0x10001 : Long).toNat % 2 = 1) ∧
    (¬(s.params.alignmentFault = true ∧ Size.l ≠ .b ∧ (0xFFFD : Long).toNat % 2 = 1) ∧
      s.params.memSize < (0xFFFD : Long).toNat + Size.l.bytes) ∧ Fits s 0xFFFC .l ∧ Fits t 0xFFFF .b := by decide

theorem witness_ReadAfterWrite : State.reset.mem.wf ∧ ∃ t, memWrite State.reset 0xFFFC .l 0xCA87BEEF = .ok t :=
  ⟨by decide, _, rfl⟩

theorem witness_ConditionsAfterCompare :
    CmpFlagsAre State.reset (State.reset.setFlags (cmpOp .b 7 5)) .b 7 5 ∧
    CmpFlagsAre State.reset (State.reset.setFlags (cmpOp .l 0x80000000 0x7FFFFFFF)) .l 0x80000000 0x7FFFFFFF := by
  unfold CmpFlagsAre FlagsAre; decide

theorem eaFits_some {s : State} {sz : Size} {ea : EA} {a : Long} (h : eaAddr s sz .data ea = some a) (hf : Fits s a sz) :
    EaFits s sz ea := fun b hb => by rw [h] at hb; cases hb; exact hf

theorem eaFits_none {s : State} {sz : Size} {ea : EA} (h : eaAddr s sz .data ea = none) : EaFits s sz ea :=
  fun b hb => by rw [h] at hb; cases hb

/-- The last byte of memory, an address register, and a PC-relative form. -/
theorem witness_AddToDataRegister :
    let s := State.reset.writeA 7 .l 0x10000
    (WellFormed (addEaDnOf .b (.predec 7) 0) = true ∧ ExtFits s ((EA.predec 7).words .b) ∧ EaFits s .b (.predec 7)) ∧
    (WellFormed (addEaDnOf .w (.an 7) 0) = true ∧ ExtFits s ((EA.an 7).words .w) ∧ EaFits s .w (.an 7)) ∧
    WellFormed (addEaDnOf .l (.pcIndex ⟨true, 0, true, 0x80⟩) 0) = true ∧
    ExtFits s ((EA.pcIndex ⟨true, 0, true, 0x80⟩).words .l) ∧ EaFits s .l (.pcIndex ⟨true, 0, true, 0x80⟩) :=
  ⟨⟨rfl, by decide, eaFits_some rfl (by decide)⟩, ⟨rfl, by decide, eaFits_none rfl⟩, rfl, by decide,
    eaFits_some rfl (by decide)⟩

theorem witness_AddToMemory : let s := State.reset
    s.mem.wf ∧ (WellFormed (addDnEaOf .b 0 (.absW 0xFFFF)) = true ∧ ExtFits s ((EA.absW 0xFFFF).words .b) ∧
      EaFits s .b (.absW 0xFFFF)) ∧ WellFormed (addDnEaOf .l 0 (.ind 0)) = true ∧ ExtFits s ((EA.ind 0).words .l) ∧
      EaFits s .l (.ind 0) :=
  ⟨by decide, ⟨rfl, by decide, eaFits_some rfl (by decide)⟩, rfl, by decide, eaFits_some rfl (by decide)⟩

theorem witness_AddToAddressRegister : let s := State.reset
    (WellFormed (addaOf false (.imm 0x8000) 0) = true ∧ ExtFits s ((EA.imm 0x8000).words (addrSize false)) ∧
      EaFits s (addrSize false) (.imm 0x8000)) ∧
    WellFormed (addaOf true (.postinc 0) 0) = true ∧ ExtFits s ((EA.postinc 0).words (addrSize true)) ∧
      EaFits s (addrSize true) (.postinc 0) :=
  ⟨⟨rfl, by decide, eaFits_none rfl⟩, rfl, by decide, eaFits_some rfl (by decide)⟩

theorem witness_AddImmediate : let s := State.reset
    s.mem.wf ∧ (WellFormed (addiOf .l 0xFFFFFFFF (.absL 0xFFFC)) = true ∧
      ExtFits s ((if Size.l = .l then 2 else 1) + (EA.absL 0xFFFC).words .l) ∧ EaFits s .l (.absL 0xFFFC)) ∧
    WellFormed (addiOf .b 0xFF (.dn 7)) = true ∧ ExtFits s ((if Size.b = .l then 2 else 1) + (EA.dn 7).words .b) ∧
      EaFits s .b (.dn 7) :=
  ⟨by decide, ⟨rfl, by decide, eaFits_some rfl (by decide)⟩, rfl, by decide, eaFits_none rfl⟩

theorem witness_AddQuick : let s := State.reset
    WellFormed (addqOf .w 0 (.postinc 0)) = true ∧ (∀ r, EA.postinc 0 ≠ .an r) ∧ s.mem.wf ∧
      ExtFits s ((EA.postinc 0).words .w) ∧ EaFits s .w (.postinc 0) :=
  ⟨rfl, fun r => by simp, by decide, by decide, eaFits_some rfl (by decide)⟩

theorem witness_CompareSetsFlagsOnly : let s := State.reset
    WellFormed (cmpOf .b (.imm 0xFF) 0) = true ∧ ExtFits s ((EA.imm 0xFF).words .b) ∧ EaFits s .b (.imm 0xFF) :=
  ⟨rfl, by decide, eaFits_none rfl⟩

theorem witness_CompareAddressSetsFlagsOnly : let s := State.reset
    WellFormed (cmpaOf false (.absW 0xFFFE) 0) = true ∧ ExtFits s ((EA.absW 0xFFFE).words (addrSize false)) ∧
      EaFits s (addrSize false) (.absW 0xFFFE) := ⟨rfl, by decide, eaFits_some rfl (by decide)⟩

theorem witness_ClearWritesZero : let s := State.reset.writeA 0 .l 0x10000
    WellFormed (clrOf .l (.predec 0)) = true ∧ s.mem.wf ∧ ExtFits s ((EA.predec 0).words .l) ∧ EaFits s .l (.predec 0) :=
  ⟨rfl, by decide, by decide, eaFits_some rfl (by decide)⟩

/-- A destination that the source's step moves to the last word of memory, and the longest MOVE. -/
theorem witness_MoveCopiesTheSource : let s := State.reset.writeA 0 .l 0xFFFC
    (WellFormed (moveOf .w (.postinc 0) (.ind 0)) = true ∧ s.mem.wf ∧
      ExtFits s ((EA.postinc 0).words .w + (EA.ind 0).words .w) ∧ EaFits s .w (.postinc 0) ∧
      EaFits (stepEA s .w (.postinc 0)) .w (.ind 0)) ∧
    WellFormed (moveOf .l (.imm 5) (.absL 0xFFFC)) = true ∧ ExtFits s ((EA.imm 5).words .l + (EA.absL 0xFFFC).words .l) ∧
      EaFits s .l (.imm 5) ∧ EaFits (stepEA s .l (.imm 5)) .l (.absL 0xFFFC) :=
  ⟨⟨rfl, by decide, by decide, eaFits_some rfl (by decide), eaFits_some rfl (by decide)⟩, rfl, by decide, eaFits_none rfl,
    eaFits_some rfl (by decide)⟩

theorem witness_MoveToAddressRegister : let s := State.reset
    WellFormed (moveaOf true (.absL 0xFFFC) 7) = true ∧ ExtFits s ((EA.absL 0xFFFC).words (addrSize true)) ∧
      EaFits s (addrSize true) (.absL 0xFFFC) := ⟨rfl, by decide, eaFits_some rfl (by decide)⟩

theorem witness_JumpSetsPc : WellFormed (.jmp (.absW 0x8000)) = true ∧ ExtFits State.reset ((EA.absW 0x8000).words .l) := by
  decide

theorem witness_BranchesSetPc : ExtFits State.reset (Disp.word 0).words ∧ Cond.hi ≠ .t ∧ Cond.hi ≠ .f := by decide

theorem witness_BranchToSubroutine : let s := State.reset.writeA 7 .l 0x10000
    s.mem.wf ∧ ExtFits s (Disp.word 0).words ∧ Fits s (s.areg 7 - 2) .w := by decide

theorem witness_ReturnFromSubroutine : let s := State.reset.writeA 7 .l 0xFFFE
    Fits s (s.areg 7) .w := by decide

theorem witness_StopInSupervisorModeHalts : let s : State := { State.reset with pc := 0xFFFC }
    s.sr.getLsbD 13 = true ∧ Fits s (s.pc + 2) .w := by decide

theorem witness_StopInUserModeFaults : ({ State.reset with sr := 0x871F } : State).sr.getLsbD 13 = false := by decide

theorem witness_UnknownTaskSendsNotice : let s := State.reset.writeD 0 .l 0x102
    s.params.trap15Tasks.lookup ((s.dreg 0).extractLsb' 0 8) = none := by decide

theorem witness_TerminationTaskHalts : let s := State.reset.writeD 0 .l 0xFFFFFF09
    s.params.Wf ∧ (s.dreg 0).extractLsb' 0 8 = (9 : Byte) := by decide

theorem witness_TasksThatOnlySend : State.reset.params.trap15Tasks = Params.defaultTasks ∧
    (∀ t ∈ [(3 : Byte), 6, 11, 12], ((State.reset.writeD 0 .b (zextByte t)).dreg 0).extractLsb' 0 8 = t) ∧
    ((State.reset.writeD 1 .l 0xFF00).dreg 1).extractLsb' 0 16 = 0xFF00#16 ∧
    ((State.reset.writeD 1 .l 0xFF01).dreg 1).extractLsb' 0 16 ≠ 0xFF00#16 := by decide

/-- Texts that end at the last byte of memory, and the empty text. -/
theorem witness_CountedTextIsSent :
    let s := (State.reset.writeA 1 .l 0xFFFE).writeD 1 .l 2
    let t := (State.reset.writeA 1 .l 0xFFFFFFFF).writeD 1 .l 0x10000
    s.params.trap15Tasks = Params.defaultTasks ∧
    (∀ k, k < ((s.dreg 1).extractLsb' 0 16).toNat → Fits s (s.areg 1 + BitVec.ofNat 32 k) .b) ∧
    ∀ k, k < ((t.dreg 1).extractLsb' 0 16).toNat → Fits t (t.areg 1 + BitVec.ofNat 32 k) .b := by decide

theorem witness_TerminatedTextIsSent : let s := (State.reset.writeA 1 .l 0xFFFD).store 0xFFFD .w 0x4869
    (∀ k, k ≤ 2 → Fits s (s.areg 1 + BitVec.ofNat 32 k) .b) ∧
    (∀ k, k < 2 → s.byteAt (s.areg 1 + BitVec.ofNat 32 k) ≠ 0) ∧ s.byteAt (s.areg 1 + BitVec.ofNat 32 2) = 0 := by decide

theorem witness_TextOutsideMemoryFaults : let s := ((State.reset.writeA 1 .l 0xFFFF).writeD 1 .l 2).store 0xFFFF .b 1
    (∀ k, k < 1 → Fits s (s.areg 1 + BitVec.ofNat 32 k) .b) ∧ ¬ Fits s (s.areg 1 + BitVec.ofNat 32 1) .b ∧
    1 < ((s.dreg 1).extractLsb' 0 16).toNat ∧ ∀ k, k < 1 → s.byteAt (s.areg 1 + BitVec.ofNat 32 k) ≠ 0 := by decide

theorem witness_InputTasksWriteD1 :
    let s : State := { State.reset with host := { HostPort.fresh with numbers := [7], chars := [0x41], pendings := [true] } }
    s.host.numbers.head? = some 7 ∧ s.host.chars.head? = some 0x41 ∧ s.host.pendings.head? = some true := by decide

theorem witness_MoveReportsTheSourceFirst :
    let s := (State.reset.writeA 0 .l 0xFFFE).writeA 1 .l 0xFFFC
    (WellFormed (moveOf .l (.ind 0) (.ind 1)) = true ∧ ExtFits s ((EA.ind 0).words .l) ∧
      eaAddr s .l .data (.ind 0) = some 0xFFFE ∧ ¬ Fits s 0xFFFE .l) ∧
    WellFormed (moveOf .l (.ind 1) (.ind 0)) = true ∧ EaFits s .l (.ind 1) ∧
      ExtFits s ((EA.ind 1).words .l + (EA.ind 0).words .l) ∧ eaAddr (stepEA s .l (.ind 1)) .l .data (.ind 0) = some 0xFFFE :=
  ⟨⟨rfl, by decide, rfl, by decide⟩, rfl, eaFits_some rfl (by decide), by decide, rfl⟩

/-- A failing operand, stack slot and extension word, a destination's word after a good source, and no failing access. -/
theorem witness_FirstFailingAccessIsTheFault :
    let s := (State.reset.writeA 0 .l 0xFFFD).writeA 7 .l 0x10000
    let t : State := { s with pc := 0xFFFC }
    (s.run = .running ∧ WellFormed (.addEaDnL (.ind 0) 1) = true ∧ WellFormed (.moveW (.imm 1) (.absW 0x100)) = true ∧
      WellFormed (.addiL 1 (.absL 0x100)) = true ∧ s.supervisor = true) ∧
    firstFailing s (accesses s (.addEaDnL (.ind 0) 1)) = some (0xFFFD, .l) ∧
    firstFailing s (accesses s .rts) = some (0x10000, .w) ∧ firstFailing s (accesses s (.bsr (.short 2))) = none ∧
    firstFailing t (accesses t (.moveW (.imm 1) (.absW 0x100))) = some (0x10000, .w) ∧
    firstFailing t (accesses t (.addiL 1 (.absL 0x100))) = some (0x10000, .w) ∧
    firstFailing t (accesses t (.stop 0)) = none := by decide

/-- The source's scenario 3: BSR.W at 0x200C with RTS at its target. -/
theorem witness_BsrThenRtsReturns :
    let s := (({ State.reset with pc := 0x200C, mem := placeBytes [] 0x2018 [0x4E, 0x75] } : State)).writeA 7 .l 0x8000
    (s.run = .running ∧ s.mem.wf ∧ ExtFits s (Disp.word 0x000A).words ∧ Fits s (s.areg 7 - 2) .w ∧
      (s.pc + BitVec.ofNat 32 (2 * (Disp.word 0x000A).words)).toNat < 0x10000) ∧
    ∃ t, exec (.bsr (.word 0x000A)) s = .next t ∧ Fits t t.pc .w ∧ t.byteAt t.pc ++ t.byteAt (t.pc + 1) = 0x4E75#16 :=
  ⟨by decide, _, rfl, by decide, by decide⟩

theorem witness_FrameMemoryOfOtherForms : storesNothing (.addiB 1 (.dn 0)) = true ∧
    ∃ t, exec (.addiB 1 (.dn 0)) State.reset = .next t := ⟨rfl, _, rfl⟩

theorem witness_FrameMemoryOfStores : let s := State.reset.writeA 7 .l 0x8000
    (WellFormed (moveOf .l (.dn 0) (.predec 7)) = true ∧
      eaAddr (stepEA s .l (.dn 0)) .l .data (.predec 7) = some 0x7FFC ∧
      ∃ t, exec (moveOf .l (.dn 0) (.predec 7)) s = .next t) ∧
    (WellFormed (addiOf .w 1 (.ind 7)) = true ∧ eaAddr s .w .data (.ind 7) = some 0x8000 ∧
      ∃ t, exec (addiOf .w 1 (.ind 7)) s = .next t) ∧
    (WellFormed (addqOf .b 1 (.postinc 7)) = true ∧ eaAddr s .b .data (.postinc 7) = some 0x8000 ∧
      ∃ t, exec (addqOf .b 1 (.postinc 7)) s = .next t) ∧
    (WellFormed (clrOf .b (.absW 0xFFFF)) = true ∧ eaAddr s .b .data (.absW 0xFFFF) = some 0xFFFF ∧
      ∃ t, exec (clrOf .b (.absW 0xFFFF)) s = .next t) ∧
    (WellFormed (addDnEaOf .w 0 (.disp 7 0xFFFE)) = true ∧ eaAddr s .w .data (.disp 7 0xFFFE) = some 0x7FFE ∧
      ∃ t, exec (addDnEaOf .w 0 (.disp 7 0xFFFE)) s = .next t) ∧
    ∃ t, exec (.bsr (.short 2)) s = .next t :=
  ⟨⟨rfl, rfl, _, rfl⟩, ⟨rfl, rfl, _, rfl⟩, ⟨rfl, rfl, _, rfl⟩, ⟨rfl, rfl, _, rfl⟩, ⟨rfl, rfl, _, rfl⟩, _, rfl⟩

theorem witness_FrameDataRegisters : WellFormed (.addEaDnB (.dn 0) 1) = true ∧ destD (.addEaDnB (.dn 0) 1) ≠ some 0 ∧
    ∃ t, exec (.addEaDnB (.dn 0) 1) State.reset = .next t := ⟨rfl, by decide, _, rfl⟩

theorem witness_FrameAddressRegisters : let i : Instr := .moveaL (.postinc 1) 2
    WellFormed i = true ∧ destA i ≠ some 0 ∧ (∀ ea ∈ operandsOf i, ea.stepped ≠ some 0) ∧ ∃ t, exec i State.reset = .next t :=
  ⟨rfl, by decide, by decide, _, rfl⟩

theorem witness_FrameHostPortAndRun : (∃ t, exec .trap15 (State.reset.writeD 0 .l 12) = .next t) ∧
    ∃ t, exec .rts State.reset = .next t := ⟨⟨_, rfl⟩, ⟨_, rfl⟩⟩

end Sys2Proof.Tests
end

section
/-! PROOFS of the family 10_state.md: the launch state, R52, and the write port of the data registers, R32. -/

namespace Sys2Proof.Machine

/-! ### The mask of the implemented SR bits, 10_state.md R40 -/

@[simp] theorem and_srMask_unimplemented (x : Word) : x &&& srMask &&& ~~~srMask = 0 := by
  rw [BitVec.and_assoc, show srMask &&& ~~~srMask = 0#16 by decide]
  exact BitVec.and_zero

@[simp] theorem and_srMask_implemented (x : Word) : x &&& srMask &&& srMask = x &&& srMask := by
  rw [BitVec.and_assoc, BitVec.and_self]

/-- Settles O19: SR is masked at launch, so that its unimplemented bits are 0; every other field is the parameter. -/
theorem launchState : Obligations.LaunchState :=
  fun _ _ _ _ srInit _ _ =>
    ⟨rfl, rfl, rfl, rfl, rfl, rfl, and_srMask_unimplemented srInit, and_srMask_implemented srInit⟩

/-! ### Data register writes bit by bit, 10_state.md R32 -/

theorem writeD_dreg_getLsbD_low (s : State) (r : Reg) (sz : Size) (v : Long) {j : Nat} (hj : j < sz.bits) :
    ((s.writeD r sz v).dreg r).getLsbD j = v.getLsbD j := by
  obtain ⟨low, -, -⟩ := writeD_written s r sz v
  have bit := congrArg (·.getLsbD j) low
  simpa [-writeD_dreg_self, BitVec.getLsbD_setWidth, hj] using bit

theorem writeD_dreg_getLsbD_high (s : State) (r : Reg) (sz : Size) (v : Long) {j : Nat} (hj : sz.bits ≤ j) :
    ((s.writeD r sz v).dreg r).getLsbD j = (s.dreg r).getLsbD j := by
  rw [writeD_dreg_self, mergeAt_high sz _ v hj]

/-- Settles O25: below the width the bits are the value's, above it the register's own; L covers all 32. -/
theorem partialWidthDataWrite : Obligations.PartialWidthDataWrite := by
  intro s r v
  refine ⟨?byteLow, ?byteHigh, ?wordLow, ?wordHigh, ?long, ?others⟩
  case byteLow => exact fun _ hj => writeD_dreg_getLsbD_low s r .b v hj
  case byteHigh => exact fun _ hj => writeD_dreg_getLsbD_high s r .b v hj
  case wordLow => exact fun _ hj => writeD_dreg_getLsbD_low s r .w v hj
  case wordHigh => exact fun _ hj => writeD_dreg_getLsbD_high s r .w v hj
  case long => rw [writeD_dreg_self, mergeAt_long]
  case others => exact fun sz _ hq => writeD_dreg_ne s hq sz v

end Sys2Proof.Machine
end

section
/-! PROOFS of the family 30_encoding.md: the overlapping rows of the decode table, R117, and the words that no row
matches, R115, R120. -/

namespace Sys2Proof
open Sys2Proof.Machine

/-! ### Overlapping rows, 30_encoding.md R117 -/

/-- A word of two rows makes their patterns agree where both masks look; this no longer mentions the word. -/
theorem patterns_agree_of_overlap {ir : Word} {p q : Row} (hp : ir &&& p.mask = p.pattern)
    (hq : ir &&& q.mask = q.pattern) : p.pattern &&& q.mask = q.pattern &&& p.mask := by
  rw [← hp, ← hq, BitVec.and_assoc, BitVec.and_assoc, BitVec.and_comm p.mask]

theorem movea_move_of_patterns_agree : ∀ p ∈ decodeTable, ∀ q ∈ decodeTable, p ≠ q →
    p.pattern &&& q.mask = q.pattern &&& p.mask →
    (p.op, q.op) ∈ [(Op.moveaL, Op.moveL), (.moveL, .moveaL), (.moveaW, .moveW), (.moveW, .moveaW)] := by
  decide +kernel

/-- The mask of a MOVE row is part of the mask of a MOVEA row. -/
theorem and_moveMask_of_and_moveaMask {ir pat : Word} (h : ir &&& 0xF1C0 = pat) : ir &&& 0xF000 = pat &&& 0xF000 := by
  rw [← h, BitVec.and_assoc]; rfl

theorem firstMatch_moveaL {ir : Word} (h : ir &&& 0xF1C0 = 0x2040) : firstMatch ir = some .moveaL := by
  have row : (⟨0xF1C0, 0x2040, false, .moveaL⟩ : Row).admits ir = true := by simp only [Row.admits, h]; rfl
  simp only [firstMatch, decodeTable, rowsLow, List.cons_append, List.find?_cons, row, Option.map_some]

theorem firstMatch_moveaW {ir : Word} (h : ir &&& 0xF1C0 = 0x3040) : firstMatch ir = some .moveaW := by
  have before : (⟨0xF1C0, 0x2040, false, .moveaL⟩ : Row).admits ir = false := by simp only [Row.admits, h]; rfl
  have row : (⟨0xF1C0, 0x3040, false, .moveaW⟩ : Row).admits ir = true := by simp only [Row.admits, h]; rfl
  simp only [firstMatch, decodeTable, rowsLow, List.cons_append, List.find?_cons, before, row, Option.map_some]

/-- Settles O5: the patterns of two overlapping rows agree under both masks, which leaves the MOVEA and MOVE pairs of the
table; the MOVEA rows are its first two. -/
theorem onlyMoveaRowsOverlap : Obligations.OnlyMoveaRowsOverlap := by
  refine ⟨?pairs, ?long, ?word⟩
  case pairs =>
    intro ir p hp q hq hne hpir hqir
    exact movea_move_of_patterns_agree p hp q hq hne (patterns_agree_of_overlap hpir hqir)
  case long => exact fun ir h => ⟨and_moveMask_of_and_moveaMask h, firstMatch_moveaL h⟩
  case word => exact fun ir h => ⟨and_moveMask_of_and_moveaMask h, firstMatch_moveaW h⟩

/-! ### An opcode word by its five fields, 30_encoding.md R102 -/

/-- `[15:12]`, the line of the opcode map, R115. -/
def lineOf (ir : Word) : BitVec 4 := ir.extractLsb' 12 4

theorem line_cases (l : BitVec 4) : l = 0 ∨ l = 1 ∨ l = 2 ∨ l = 3 ∨ l = 4 ∨ l = 5 ∨ l = 6 ∨ l = 7 ∨ l = 8 ∨ l = 9 ∨
    l = 10 ∨ l = 11 ∨ l = 12 ∨ l = 13 ∨ l = 14 ∨ l = 15 := by revert l; decide

theorem append_high_fields (ir : Word) : lineOf ir ++ highReg ir ++ moveDstMode ir = ir.extractLsb' 6 10 := by
  rw [lineOf, highReg, BitVec.extractLsb'_append_extractLsb'_eq_extractLsb' (by rfl), moveDstMode,
    BitVec.extractLsb'_append_extractLsb'_eq_extractLsb' (by rfl)]

theorem append_fields (ir : Word) : lineOf ir ++ highReg ir ++ moveDstMode ir ++ eaMode ir ++ eaReg ir = ir := by
  rw [append_high_fields, eaMode, BitVec.extractLsb'_append_extractLsb'_eq_extractLsb' (by rfl), eaReg,
    BitVec.extractLsb'_append_extractLsb'_eq_extractLsb' (by rfl), BitVec.extractLsb'_eq_self]

theorem word_eq_iff_fields {v w : Word} : v = w ↔ lineOf v = lineOf w ∧ highReg v = highReg w ∧
    moveDstMode v = moveDstMode w ∧ eaMode v = eaMode w ∧ eaReg v = eaReg w := by
  constructor
  · rintro rfl; exact ⟨rfl, rfl, rfl, rfl, rfl⟩
  · rintro ⟨line, high, dst, mode, reg⟩
    rw [← append_fields v, line, high, dst, mode, reg, append_fields]

/-- The opcode map, the column "admitted" of R115: line `l`, bits [11:9] `r`, bits [8:6] `o`, EA mode `m` and register
`x`. -/
def OnOpcodeMap (l : BitVec 4) (r o m x : BitVec 3) : Prop :=
  match l.toNat with
  | 0x0 => r = 3 ∧ o ∈ [0, 1, 2]
  | 0x1 | 0x2 | 0x3 | 0x6 => True
  | 0x4 => (r = 1 ∧ o ∈ [0, 1, 2]) ∨ (r = 7 ∧ o = 1 ∧ (m, x) ∈ [(1, 7), (6, 2), (6, 5)]) ∨ (r = 7 ∧ o = 3)
  | 0x5 => o ∈ [0, 1, 2]
  | 0xB => o ∈ [0, 1, 2, 3, 7]
  | 0xD => o ∈ [0, 1, 2, 3, 7] ∨ (o ∈ [4, 5, 6] ∧ 2 ≤ m.toNat)
  | _ => False

/-! ### The decode table is the opcode map, 30_encoding.md R115-R117 -/

/-- `Row.admits` field by field. -/
def Row.AdmitsFields (row : Row) (l : BitVec 4) (r o m x : BitVec 3) : Prop :=
  (l &&& lineOf row.mask = lineOf row.pattern ∧ r &&& highReg row.mask = highReg row.pattern ∧
    o &&& moveDstMode row.mask = moveDstMode row.pattern ∧ m &&& eaMode row.mask = eaMode row.pattern ∧
    x &&& eaReg row.mask = eaReg row.pattern) ∧ (row.memGuard = true → 2 ≤ m.toNat)

theorem admits_iff_admitsFields {row : Row} {ir : Word} : row.admits ir = true ↔
    row.AdmitsFields (lineOf ir) (highReg ir) (moveDstMode ir) (eaMode ir) (eaReg ir) := by
  rw [Row.admits, Bool.and_eq_true, beq_iff_eq, word_eq_iff_fields, Bool.or_eq_true, decide_eq_true_iff]
  simp only [Row.AdmitsFields, lineOf, highReg, moveDstMode, eaMode, eaReg, BitVec.extractLsb'_and]
  cases row.memGuard <;> simp

theorem and_lineMask (l : BitVec 4) : l &&& 0xF#4 = l := BitVec.and_allOnes
theorem and_fieldMask (f : BitVec 3) : f &&& 7#3 = f := BitVec.and_allOnes

/-- The rows of the table, line by line. -/
theorem exists_admitsFields_iff (l : BitVec 4) (r o m x : BitVec 3) :
    (∃ row ∈ decodeTable, row.AdmitsFields l r o m x) ↔ OnOpcodeMap l r o m x := by
  simp only [decodeTable, rowsLow, rowsMid, rowsHigh, List.cons_append, List.nil_append, List.exists_mem_cons_iff,
    List.not_mem_nil, Row.AdmitsFields, lineOf, highReg, moveDstMode, eaMode, eaReg, BitVec.ofNat_eq_ofNat,
    BitVec.reduceExtractLsb', and_lineMask, and_fieldMask, BitVec.and_zero]
  rcases line_cases l with rfl | rfl | rfl | rfl | rfl | rfl | rfl | rfl | rfl | rfl | rfl | rfl | rfl | rfl | rfl | rfl
    <;> simp [OnOpcodeMap]
  · -- line 0x0
    simp only [and_or_left]
  · -- line 0x4
    simp only [and_or_left, or_assoc, or_comm, or_left_comm]
  · -- line 0x6
    revert r o; decide
  · -- line 0xD
    simp only [or_and_right, or_assoc]
    tauto

theorem firstMatch_eq_none_iff (ir : Word) : firstMatch ir = none ↔
    ¬ OnOpcodeMap (lineOf ir) (highReg ir) (moveDstMode ir) (eaMode ir) (eaReg ir) := by
  rw [← exists_admitsFields_iff, firstMatch, Option.map_eq_none_iff, List.find?_eq_none]
  simp only [admits_iff_admitsFields, not_exists, not_and]

/-! ### The illegal space is the rest of the opcode map, 30_encoding.md R120 -/

theorem getLsbD_eight (ir : Word) : ir.getLsbD 8 = (moveDstMode ir).getLsbD 2 := by
  rw [moveDstMode, BitVec.getLsbD_extractLsb']; rfl

theorem extractLsb'_extractLsb'_of_add_le {w j k m n : Nat} (x : BitVec w) (h : k + n ≤ m) :
    (x.extractLsb' j m).extractLsb' k n = x.extractLsb' (j + k) n := by
  ext i hi
  simp only [BitVec.getElem_extractLsb', BitVec.getLsbD_extractLsb', show k + i < m by omega, decide_true, Bool.true_and,
    Nat.add_assoc]

theorem extractLsb'_size (ir : Word) : ir.extractLsb' 6 2 = (moveDstMode ir).extractLsb' 0 2 :=
  (extractLsb'_extractLsb'_of_add_le ir (show 0 + 2 ≤ 3 by decide)).symm

theorem extractLsb'_nibble (ir : Word) : ir.extractLsb' 8 4 = highReg ir ++ (moveDstMode ir).extractLsb' 2 1 := by
  rw [moveDstMode, extractLsb'_extractLsb'_of_add_le ir (show 2 + 1 ≤ 3 by decide), highReg,
    BitVec.extractLsb'_append_extractLsb'_eq_extractLsb' (by rfl)]

/-- The words of ADDI (`k` = 3) and of CLR (`k` = 1) on their lines: bits [11:8] are `k` and 0, and `ss` is not 3. -/
theorem sized_eq_fields (ir : Word) (k : BitVec 3) : (ir.extractLsb' 8 4 == k ++ 0#1 && ir.extractLsb' 6 2 != 3#2) =
    decide (highReg ir = k ∧ moveDstMode ir ∈ [0, 1, 2]) := by
  rw [extractLsb'_nibble, extractLsb'_size]
  generalize highReg ir = r, moveDstMode ir = o
  revert k r o; decide

theorem jmp_high_iff (r o : BitVec 3) : (4#4 ++ r ++ o : BitVec 10) = 0b0100111011#10 ↔ r = 7#3 ∧ o = 3#3 := by
  revert r o; decide

theorem illegalWord_iff (ir : Word) : illegalWord ir = true ↔
    ¬ OnOpcodeMap (lineOf ir) (highReg ir) (moveDstMode ir) (eaMode ir) (eaReg ir) := by
  have addi : (ir.extractLsb' 8 4 == 6#4 && _) = _ := sized_eq_fields ir 3
  have clr : (ir.extractLsb' 8 4 == 2#4 && _) = _ := sized_eq_fields ir 1
  simp only [illegalWord, addi, clr]
  simp only [show ir.extractLsb' 12 4 = lineOf ir from rfl,
    show ir.extractLsb' 6 3 = moveDstMode ir from rfl, extractLsb'_size, getLsbD_eight,
    ← append_high_fields, bne, Bool.beq_eq_decide_eq, word_eq_iff_fields (v := ir), OnOpcodeMap]
  generalize lineOf ir = l, highReg ir = r, moveDstMode ir = o, eaMode ir = m, eaReg ir = x
  rcases line_cases l with rfl | rfl | rfl | rfl | rfl | rfl | rfl | rfl | rfl | rfl | rfl | rfl | rfl | rfl | rfl | rfl
    <;> simp [-Bool.decide_and, lineOf, highReg, moveDstMode, eaMode, eaReg]
  · -- line 0x4
    simp only [jmp_high_iff, not_and, imp_and, and_assoc]
  · -- line 0x5
    revert o; decide
  · -- line 0xB
    revert o; decide
  · -- line 0xD
    revert o m; decide

/-! ### The fault of a rejected word, 30_encoding.md R116, R120 -/

theorem decodeInstr_of_firstMatch_eq_none {ir : Word} (h : firstMatch ir = none) (ext : List Word) :
    decodeInstr ir ext = .error .illegalInstruction := by
  rw [decodeInstr, h]

/-- A step that fetches a rejected word takes the fault of the rejection, with the word recorded, R116. -/
theorem step_of_decodeInstr_error {s : State} {e : OpcodeError} (hrun : s.run = .running) (hfit : Fits s s.pc .w)
    (hdec : decodeInstr (s.byteAt s.pc ++ s.byteAt (s.pc + 1)) (extWordsAt s) = .error e) :
    step s = .next (takeFault s (opcodeFault e) (some (s.byteAt s.pc ++ s.byteAt (s.pc + 1)))) := by
  simp only [step, hrun, cycle, fetchOpcode_ok.2 ⟨hfit, rfl⟩, hdec]

/-- Settles O6: the table and the illegal space are each other's complement in the opcode map; the decoder rejects a word
that no row matches before any operand. -/
theorem illegalWordsFault : Obligations.IllegalWordsFault := by
  have unmatched (ir : Word) : firstMatch ir = none ↔ illegalWord ir = true := by
    rw [firstMatch_eq_none_iff, illegalWord_iff]
  refine ⟨unmatched, fun s hrun hfit hill => ?_⟩
  have rejected := decodeInstr_of_firstMatch_eq_none ((unmatched _).2 hill) (extWordsAt s)
  exact step_of_decodeInstr_error hrun hfit rejected

end Sys2Proof
end

section
/-! PROOFS of the family 40_sequencer.md: a step outside Running, R150. -/

namespace Sys2Proof.Machine

/-! ### `step` when RUN is not Running, 40_sequencer.md R150 -/

theorem step_of_halted {s : State} {c : HaltCause} (h : s.run = .halted c) : step s = .next s := by
  rw [step, h]

theorem step_of_faulted {s : State} {f : FaultRecord} (h : s.run = .faulted f) : step s = .next s := by
  rw [step, h]

/-- Settles O11, by the value of RUN: Halted and Faulted are the two values other than Running. -/
theorem stepWhenNotRunningChangesNothing : Obligations.StepWhenNotRunningChangesNothing := by
  intro s notRunning
  cases hrun : s.run with
  | running => exact absurd hrun notRunning
  | halted c => exact step_of_halted hrun
  | faulted f => exact step_of_faulted hrun

end Sys2Proof.Machine
end

section
/-! PROOFS of the family 45_control_flow.md: BSR and RTS, R335, R340, and the return from a subroutine, R341. -/

namespace Sys2Proof.Machine

/-! ### The words of memory and the cycle they start, 20_memory.md R72, R73, 40_sequencer.md R151-R154 -/

/-- A load of the word a store left gives the low word of its value, zero-extended. -/
theorem load_word_of_stored {s t : State} {a v : Long} (h : Stored s t a .w v) :
    t.load a .w = zextWord (v.extractLsb' 0 16) := by
  obtain ⟨bytes, -⟩ := h
  have high : t.byteAt a = v.extractLsb' 8 8 := addr_zero a ▸ bytes 0 (by decide)
  have low : t.byteAt (a + 1) = v.extractLsb' 0 8 := bytes 1 (by decide)
  rw [State.load, high, low, BitVec.extractLsb'_append_extractLsb'_eq_extractLsb' (by rfl)]

theorem zextWord_extractLsb'_of_lt {v : Long} (h : v.toNat < 0x10000) : zextWord (v.extractLsb' 0 16) = v := by
  apply BitVec.eq_of_toNat_eq
  simp only [zextWord, BitVec.toNat_setWidth, BitVec.extractLsb'_toNat]
  omega

theorem step_of_decodeInstr_ok {s : State} {i : Instr} (hrun : s.run = .running) (hfit : Fits s s.pc .w)
    (hdec : decodeInstr (s.byteAt s.pc ++ s.byteAt (s.pc + 1)) (extWordsAt s) = .ok i) : step s = exec i s := by
  simp only [step, hrun, cycle, fetchOpcode_ok.2 ⟨hfit, rfl⟩, hdec]

theorem decodeInstr_rts (ext : List Word) : decodeInstr 0x4E75 ext = .ok .rts := by
  have row : firstMatch 0x4E75 = some .rts := Laws.DecodeRow.rts rfl
  rw [decodeInstr, row]; rfl

/-- A transfer's target is the PC of the next cycle, 40_sequencer.md R158. -/
theorem advance_setTarget (s : State) (x : Long) : (s.setTarget x).advance none = s.setPc x := by
  rw [State.advance, setTarget_pc, BitVec.sub_add_cancel]; rfl

/-! ### BSR and RTS, 45_control_flow.md R335, R340 -/

/-- The state at the target of a BSR: the low word of the return address minus 2 is pushed. -/
def subroutineEntry (s : State) (d : Disp) : State :=
  ((s.writeA spNum .l (s.areg spNum - 2)).store (s.areg spNum - 2) .w (s.pc + BitVec.ofNat 32 (2 * d.words))).setPc
    (s.pc + 2 + d.value)

/-- The state after an RTS: the word at the stack pointer is popped. -/
def subroutineExit (s : State) : State :=
  (s.writeA spNum .l (s.areg spNum + 2)).setPc (s.load (s.areg spNum) .w + 2)

theorem exec_bsr {s : State} {d : Disp} (hext : ExtFits s d.words) (hfit : Fits s (s.areg spNum - 2) .w) :
    exec (.bsr d) s = .next (subroutineEntry s d) := by
  refine (exec_plain rfl (branchSub_ok.2 ⟨hext, hfit, rfl⟩)).trans ?_
  rw [advance_setTarget]; rfl

theorem exec_rts {s : State} (hfit : Fits s (s.areg spNum) .w) : exec .rts s = .next (subroutineExit s) := by
  refine (exec_plain rfl (returnSub_ok.2 ⟨hfit, rfl⟩)).trans ?_
  rw [advance_setTarget]; rfl

section
variable (s : State) (d : Disp)

@[simp] theorem subroutineEntry_params : (subroutineEntry s d).params = s.params := by simp [subroutineEntry]
@[simp] theorem subroutineEntry_d : (subroutineEntry s d).d = s.d := by simp [subroutineEntry]
@[simp] theorem subroutineEntry_sr : (subroutineEntry s d).sr = s.sr := by simp [subroutineEntry]
@[simp] theorem subroutineEntry_run : (subroutineEntry s d).run = s.run := by simp [subroutineEntry]

theorem subroutineEntry_written : AWritten s (subroutineEntry s d) spNum (s.areg spNum - 2) := by
  simpa [AWritten, subroutineEntry] using writeA_written s spNum (s.areg spNum - 2)

theorem subroutineEntry_stored (hm : s.mem.wf) :
    Stored s (subroutineEntry s d) (s.areg spNum - 2) .w (s.pc + BitVec.ofNat 32 (2 * d.words)) :=
  store_stored (s := s.writeA spNum .l (s.areg spNum - 2)) hm _ _ _

end

/-! ### The return, 45_control_flow.md R341 -/

/-- RTS steps the stack pointer back over what BSR pushed, so that the address registers are those before the BSR. -/
theorem subroutineExit_subroutineEntry_a (s : State) (d : Disp) : (subroutineExit (subroutineEntry s d)).a = s.a := by
  obtain ⟨sp, others⟩ := subroutineEntry_written s d
  refine areg_ext fun r => ?_
  by_cases hr : r = spNum
  · rw [hr, subroutineExit, setPc_areg, writeA_areg_self, mergeAt_long, sp, BitVec.sub_add_cancel]
  · rw [subroutineExit, setPc_areg, writeA_areg_ne _ hr, others r hr]

/-- The pushed word is the whole return address minus 2 when that is below 0x10000, and RTS adds the 2 back. -/
theorem subroutineExit_subroutineEntry_pc {s : State} {d : Disp} (hm : s.mem.wf)
    (hlow : (s.pc + BitVec.ofNat 32 (2 * d.words)).toNat < 0x10000) :
    (subroutineExit (subroutineEntry s d)).pc = s.pc + BitVec.ofNat 32 (2 * (1 + d.words)) := by
  obtain ⟨sp, -⟩ := subroutineEntry_written s d
  rw [subroutineExit, setPc_pc, sp, load_word_of_stored (subroutineEntry_stored s d hm), zextWord_extractLsb'_of_lt hlow,
    pc_past]

/-- Settles O54: the step after the BSR is the RTS at its target, which pops what the BSR pushed. -/
theorem bsrThenRtsReturns : Obligations.BsrThenRtsReturns := by
  intro s t d hrun hwf hext hpush hlow hbsr hfetch hword
  obtain rfl : subroutineEntry s d = t := by simpa [exec_bsr hext hpush] using hbsr
  have hrunning : (subroutineEntry s d).run = .running := (subroutineEntry_run s d).trans hrun
  have hpop : Fits (subroutineEntry s d) ((subroutineEntry s d).areg spNum) .w := by
    rw [(subroutineEntry_written s d).1]
    exact (fits_congr (subroutineEntry_params s d) _ _).2 hpush
  have hstep : step (subroutineEntry s d) = .next (subroutineExit (subroutineEntry s d)) := by
    rw [step_of_decodeInstr_ok hrunning hfetch (by rw [hword]; exact decodeInstr_rts _), exec_rts hpop]
  exact ⟨_, hstep, subroutineExit_subroutineEntry_pc hwf hlow, subroutineExit_subroutineEntry_a s d,
    subroutineEntry_d s d, subroutineEntry_sr s d, fun _ => rfl, hrunning⟩

end Sys2Proof.Machine
end

section
/-! PROOFS of the family 46_trap_stop.md: the unknown task and the termination, R353, R354, and the texts that leave
memory, R358. -/

namespace Sys2Proof.Machine

/-! ### The task of TRAP #15, 46_trap_stop.md R350, R354 -/

theorem trap15_of_lookup_none {s : State} (h : s.params.trap15Tasks.lookup ((s.dreg 0).extractLsb' 0 8) = none) :
    trap15 s = .ok (s.request (.notice ((s.dreg 0).extractLsb' 0 8)), none) := by
  simp only [trap15, h]

theorem trap15_of_lookup_some {s : State} {svc : TrapService}
    (h : s.params.trap15Tasks.lookup ((s.dreg 0).extractLsb' 0 8) = some svc) : trap15 s = service svc s := by
  simp only [trap15, h]

/-- TRAP #15, when its task raises a fault, 40_sequencer.md R160; 0x4E4F is its opcode word. -/
theorem exec_trap15_of_raise {s : State} {c : FaultCause} (h : trap15 s = .error (.raise c)) :
    exec .trap15 s = .next (takeFault s c (some 0x4E4F)) := by
  rw [exec_eq, execute, h]; rfl

/-- Settles O46: the request is the one thing that the execute phase leaves, and the advance phase moves PC. -/
theorem unknownTaskSendsNotice : Obligations.UnknownTaskSendsNotice :=
  fun _ unknown => exec_trap (trap15_of_lookup_none unknown)

/-- Settles O47: legal parameters have the termination at code 9, and its halt is taken by the advance phase. -/
theorem terminationTaskHalts : Obligations.TerminationTaskHalts := by
  rintro s ⟨-, -, termination⟩ task
  exact exec_trap (trap15_of_lookup_some (task ▸ termination))

/-! ### The text tasks, 46_trap_stop.md R352, R355, R358 -/

theorem defaultTasks_lookup_counted {task : Byte} (h : task = 0 ∨ task = 1) :
    ∃ crlf, Params.defaultTasks.lookup task = some (.outCounted crlf) := by
  rcases h with rfl | rfl
  · exact ⟨true, rfl⟩
  · exact ⟨false, rfl⟩

theorem defaultTasks_lookup_terminated {task : Byte} (h : task = 13 ∨ task = 14) :
    ∃ crlf, Params.defaultTasks.lookup task = some (.outTerminated crlf) := by
  rcases h with rfl | rfl
  · exact ⟨true, rfl⟩
  · exact ⟨false, rfl⟩

/-- A counted text is sent only after all of it has been read, R355. -/
theorem service_outCounted_of_error {s : State} {e : Stop} (crlf : Bool)
    (h : readCounted s (s.areg 1) ((s.dreg 1).extractLsb' 0 16).toNat = .error e) :
    service (.outCounted crlf) s = .error e := by
  rw [service, serviceOutCounted, h]; rfl

/-- As `service_outCounted_of_error`, for a text up to a NUL. -/
theorem service_outTerminated_of_error {s : State} {e : Stop} (crlf : Bool)
    (h : readTerminated s (s.areg 1) 4294967296 = .error e) : service (.outTerminated crlf) s = .error e := by
  rw [service, serviceOutTerminated, h]; rfl

/-- Settles O51: either read fails at byte n, the first outside memory, before its text is sent. -/
theorem textOutsideMemoryFaults : Obligations.TextOutsideMemoryFaults := by
  intro s n table hn inside outside reached
  have raised : trap15 s = .error (.raise (.outOfBounds (s.areg 1 + BitVec.ofNat 32 n) .b)) := by
    rcases reached with ⟨task, hcount⟩ | ⟨task, noNul⟩
    · obtain ⟨crlf, hsvc⟩ := defaultTasks_lookup_counted task
      rw [trap15_of_lookup_some (table ▸ hsvc)]
      exact service_outCounted_of_error crlf (readCounted_out s n _ _ hcount inside outside)
    · obtain ⟨crlf, hsvc⟩ := defaultTasks_lookup_terminated task
      rw [trap15_of_lookup_some (table ▸ hsvc)]
      exact service_outTerminated_of_error crlf (readTerminated_out s n _ _ hn inside noNul outside)
  exact exec_trap15_of_raise raised

end Sys2Proof.Machine
end

section
/-! PROOFS of the family 60_exceptions.md: the rejected addressing forms, R384, and what a fault leaves unchanged, R387. -/

namespace Sys2Proof
open Sys2Proof.Machine

/-! ### The forms outside a legal set, 30_encoding.md R118, 60_exceptions.md R384 -/

/-- The codes of the forms outside a legal set: the complement of the first table of R118. -/
def illegalCodes : ModeSet → List Nat
  | .all => [75, 76, 77]
  | .data => [1, 75, 76, 77]
  | .alterable => [72, 73, 74, 75, 76, 77]
  | .dataAlt => [1, 72, 73, 74, 75, 76, 77]
  | .memAlt => [0, 1, 72, 73, 74, 75, 76, 77]
  | .control => [0, 1, 3, 4, 74, 75, 76, 77]

theorem modeLegal_eq_false_iff (set : ModeSet) (mode : BitVec 3) (reg : Reg) :
    modeLegal set mode reg = false ↔ eaCode mode reg ∈ illegalCodes set := by
  cases set <;> revert mode reg <;> decide

/-- The arm of `decodeEA` for a field that names no form is outside every legal set. -/
theorem decodeEA_of_modeLegal {set : ModeSet} {mode : BitVec 3} {reg : Reg} (h : modeLegal set mode reg = true)
    (sz : Size) (ext : List Word) : ∃ ea, decodeEA set sz mode reg ext = .ok ea := by
  rw [decodeEA, if_pos h]
  split
  case h_13 => simp_all [modeLegal]
  all_goals exact ⟨_, rfl⟩

theorem decodeEA_eq_error_iff {set : ModeSet} {sz : Size} {mode : BitVec 3} {reg : Reg} {ext : List Word}
    {e : OpcodeError} : decodeEA set sz mode reg ext = .error e ↔
      e = .illegalAddressingMode ∧ eaCode mode reg ∈ illegalCodes set := by
  rw [← modeLegal_eq_false_iff]
  cases legal : modeLegal set mode reg with
  | true =>
    obtain ⟨ea, decoded⟩ := decodeEA_of_modeLegal legal sz ext
    simp [decoded]
  | false => simp [decodeEA, legal, eq_comm]

theorem oneEA_eq_error_iff {set : ModeSet} {sz : Size} {ir : Word} {ext : List Word} {mk : EA → Instr}
    {e : OpcodeError} : oneEA set sz ir ext mk = .error e ↔
      e = .illegalAddressingMode ∧ eaCode (eaMode ir) (eaReg ir) ∈ illegalCodes set := by
  rw [← decodeEA_eq_error_iff (sz := sz) (ext := ext), oneEA]
  cases decodeEA set sz (eaMode ir) (eaReg ir) ext <;> simp

/-- Either field of MOVE can be the rejected one. -/
theorem twoEA_eq_error_iff {set : ModeSet} {sz : Size} {ir : Word} {ext : List Word} {mk : EA → EA → Instr}
    {e : OpcodeError} : twoEA set sz ir ext mk = .error e ↔ e = .illegalAddressingMode ∧
      (eaCode (eaMode ir) (eaReg ir) ∈ illegalCodes set ∨
        eaCode (moveDstMode ir) (highReg ir) ∈ illegalCodes .dataAlt) := by
  rw [twoEA]
  cases source : decodeEA set sz (eaMode ir) (eaReg ir) ext with
  | error e' =>
    obtain ⟨rfl, illegal⟩ := decodeEA_eq_error_iff.1 source
    simp [illegal, eq_comm]
  | ok src =>
    have legal : eaCode (eaMode ir) (eaReg ir) ∉ illegalCodes set := fun illegal => by
      simp [decodeEA_eq_error_iff.2 ⟨rfl, illegal⟩] at source
    simp only [legal, false_or]
    rw [← decodeEA_eq_error_iff (sz := sz) (ext := ext.drop (eaWords sz (eaMode ir) (eaReg ir)))]
    cases decodeEA .dataAlt sz (moveDstMode ir) (highReg ir) _ <;> simp

/-! ### The row of a matched word, 30_encoding.md R116 -/

/-- Each name of the decode table has one row. -/
theorem find?_op_of_mem : ∀ row ∈ decodeTable, decodeTable.find? (·.op == row.op) = some row := by decide

theorem admits_of_firstMatch {ir : Word} {op : Op} {row : Row} (h : firstMatch ir = some op)
    (hrow : decodeTable.find? (·.op == op) = some row) : row.admits ir = true := by
  obtain ⟨first, found, rfl⟩ := Option.map_eq_some_iff.1 h
  have named := find?_op_of_mem first (List.mem_of_find?_eq_some found)
  obtain rfl : first = row := Option.some.inj (named.symm.trans hrow)
  exact List.find?_some (p := fun r : Row => r.admits ir) found

theorem masked_of_admits {row : Row} {ir : Word} (h : row.admits ir = true) : ir &&& row.mask = row.pattern := by
  rw [Row.admits, Bool.and_eq_true, beq_iff_eq] at h
  exact h.1

theorem eaMode_of_admits {row : Row} {ir : Word} (h : row.admits ir = true) (hguard : row.memGuard = true) :
    2 ≤ (eaMode ir).toNat :=
  (admits_iff_admitsFields.1 h).2 hguard

theorem decodeInstr_of_firstMatch {ir : Word} {op : Op} (h : firstMatch ir = some op) (ext : List Word) :
    decodeInstr ir ext = decodeOperands op ir ext := by
  rw [decodeInstr, h]

/-! ### The rejected words, 60_exceptions.md R384 -/

/-- The guard of ADD Dn,<ea> leaves the modes 0 and 1 to no row, so that R384 does not list them. -/
theorem mem_illegalCodes_memAlt_iff {mode : BitVec 3} {reg : Reg} (h : 2 ≤ mode.toNat) :
    eaCode mode reg ∈ illegalCodes .memAlt ↔ eaCode mode reg ∈ [72, 73, 74, 75, 76, 77] := by
  revert mode reg; decide

/-- The table of R384 lists for each row what is outside its legal sets. -/
theorem decodeOperands_eq_error_iff {ir : Word} {op : Op} (hop : firstMatch ir = some op) (ext : List Word)
    (e : OpcodeError) : decodeOperands op ir ext = .error e ↔ e = .illegalAddressingMode ∧
      (eaCode (eaMode ir) (eaReg ir) ∈ illegalForms op ∨
        eaCode (moveDstMode ir) (highReg ir) ∈ illegalDstForms op) := by
  cases op
  case moveB | moveL | moveW => exact twoEA_eq_error_iff
  case addDnEaB | addDnEaW | addDnEaL =>
    have guarded := eaMode_of_admits (admits_of_firstMatch hop rfl) rfl
    simp only [decodeOperands, oneEA_eq_error_iff, mem_illegalCodes_memAlt_iff guarded, illegalForms,
      illegalDstForms, List.not_mem_nil, or_false]
  case rts | stop | trap15 | bra | bsr | bhi | bls | bcc | bcs | bne | beq | bvc | bvs | bpl | bmi | bge | blt | bgt |
      ble =>
    simp [decodeOperands, illegalForms, illegalDstForms]
  all_goals simp only [decodeOperands, oneEA_eq_error_iff, illegalCodes, illegalForms, illegalDstForms,
    List.not_mem_nil, or_false]

/-- Settles O7: a matched word is rejected by its operands alone, whose legal sets are the complement of R384's table; the
step then takes the fault of the rejection. -/
theorem illegalModesAreTheListed : Obligations.IllegalModesAreTheListed := by
  refine ⟨fun ir ext op hop => ?decoder, fun s ir op hrun hfit hir hop listed => ?fault⟩
  case decoder => simp [decodeInstr_of_firstMatch hop, decodeOperands_eq_error_iff hop]
  case fault =>
    subst hir
    have rejected := (decodeOperands_eq_error_iff hop (extWordsAt s) _).2 ⟨rfl, listed⟩
    exact step_of_decodeInstr_error hrun hfit ((decodeInstr_of_firstMatch hop _).trans rejected)

/-! ### The bits that a row fixes, 30_encoding.md R102, R116 -/

theorem extractLsb'_of_masked {ir mask pattern : Word} (h : ir &&& mask = pattern) (k n : Nat)
    (hmask : mask.extractLsb' k n = BitVec.allOnes n) : ir.extractLsb' k n = pattern.extractLsb' k n := by
  rw [← h, BitVec.extractLsb'_and, hmask, BitVec.and_allOnes]

/-- The mask of the OPMODE and QUICK rows leaves bits [11:9] to the instruction. -/
theorem high_of_opmode_masked {ir pattern : Word} (h : ir &&& 0xF1C0 = pattern) :
    ir.extractLsb' 6 10 = lineOf pattern ++ highReg ir ++ moveDstMode pattern := by
  have line : lineOf ir = lineOf pattern := extractLsb'_of_masked h 12 4 rfl
  have opmode : moveDstMode ir = moveDstMode pattern := extractLsb'_of_masked h 6 3 rfl
  rw [← append_high_fields, line, opmode]

theorem append_high_ea {ir : Word} {high : BitVec 10} (h : ir.extractLsb' 6 10 = high) :
    high ++ eaMode ir ++ eaReg ir = ir := by
  rw [← h, ← append_high_fields, append_fields]

/-! ### The opcode word of a decoded instruction, by format, 30_encoding.md R122 -/

/-- The formats with one EA field: the ten high bits come from the row and the register field. -/
theorem opcodeWord_of_oneEA_ok {set : ModeSet} {sz : Size} {ir : Word} {ext : List Word} {mk : EA → Instr} {i : Instr}
    {high : BitVec 10} (hmk : ∀ ea, opcodeWord (mk ea) = high ++ ea.modeField ++ ea.regField)
    (hir : ir.extractLsb' 6 10 = high) (h : oneEA set sz ir ext mk = .ok i) : opcodeWord i = ir := by
  rw [oneEA] at h
  cases operand : decodeEA set sz (eaMode ir) (eaReg ir) ext with
  | error e => simp [operand] at h
  | ok ea =>
    obtain rfl : mk ea = i := by simpa [operand] using h
    obtain ⟨mode, reg, -⟩ := decodeEA_fields operand
    rw [hmk, mode, reg, append_high_ea hir]

/-- The MOVE format: the row fixes the line, and the two operands give the rest. -/
theorem opcodeWord_of_twoEA_ok {set : ModeSet} {sz : Size} {ir : Word} {ext : List Word} {mk : EA → EA → Instr}
    {i : Instr} {line : BitVec 4}
    (hmk : ∀ src dst, opcodeWord (mk src dst) =
      line ++ dst.regField ++ dst.modeField ++ src.modeField ++ src.regField)
    (hir : lineOf ir = line) (h : twoEA set sz ir ext mk = .ok i) : opcodeWord i = ir := by
  rw [twoEA] at h
  cases source : decodeEA set sz (eaMode ir) (eaReg ir) ext with
  | error e => simp [source] at h
  | ok src =>
    simp only [source] at h
    cases destination : decodeEA .dataAlt sz (moveDstMode ir) (highReg ir)
        (ext.drop (eaWords sz (eaMode ir) (eaReg ir))) with
    | error e => simp [destination] at h
    | ok dst =>
      obtain rfl : mk src dst = i := by simpa [destination] using h
      obtain ⟨srcMode, srcReg, -⟩ := decodeEA_fields source
      obtain ⟨dstMode, dstReg, -⟩ := decodeEA_fields destination
      rw [hmk, srcMode, srcReg, dstMode, dstReg, ← hir, append_fields]

/-- The BRANCH format: the row fixes the high byte, and the low byte is the displacement field. -/
theorem fmtBranch_decodeDisp {c : Cond} {ir : Word} (h : ir &&& 0xFF00 = fmtBranch c (.word 0)) (ext : List Word) :
    fmtBranch c (decodeDisp ir ext) = ir := by
  have field : (decodeDisp ir ext).field = ir.extractLsb' 0 8 := by
    rw [decodeDisp]
    split
    · next zero => exact zero.symm
    · rfl
  have high : (0b0110#4 ++ c.code : BitVec 8) = ir.extractLsb' 8 8 := by
    rw [extractLsb'_of_masked h 8 8 rfl]; cases c <;> rfl
  rw [fmtBranch, field, high, BitVec.extractLsb'_append_extractLsb'_eq_extractLsb' (by rfl), BitVec.extractLsb'_eq_self]

theorem fmtQuick_eq (q : BitVec 3) (size : BitVec 2) (ea : EA) :
    fmtQuick q size ea = 0b0101#4 ++ q ++ (0b0#1 ++ size) ++ ea.modeField ++ ea.regField := by
  have high : 0b0101#4 ++ q ++ 0b0#1 ++ size = 0b0101#4 ++ q ++ (0b0#1 ++ size) := by revert q size; decide
  rw [fmtQuick, high]

theorem opcodeWord_of_decodeOperands_ok {ir : Word} {op : Op} {ext : List Word} {i : Instr}
    (hop : firstMatch ir = some op) (h : decodeOperands op ir ext = .ok i) : opcodeWord i = ir := by
  have masked {row : Row} (hrow : decodeTable.find? (·.op == op) = some row) : ir &&& row.mask = row.pattern :=
    masked_of_admits (admits_of_firstMatch hop hrow)
  cases op
  case rts | stop | trap15 =>
    obtain rfl := Except.ok.inj h
    exact (BitVec.and_allOnes.symm.trans (masked rfl)).symm
  case bra | bsr | bhi | bls | bcc | bcs | bne | beq | bvc | bvs | bpl | bmi | bge | blt | bgt | ble =>
    obtain rfl := Except.ok.inj h
    exact fmtBranch_decodeDisp (masked rfl) ext
  case moveB | moveL | moveW =>
    exact opcodeWord_of_twoEA_ok (fun _ _ => rfl) (extractLsb'_of_masked (masked rfl) 12 4 rfl) h
  case addiB | addiW | addiL | clrB | clrW | clrL | jmp =>
    exact opcodeWord_of_oneEA_ok (fun _ => rfl) (extractLsb'_of_masked (masked rfl) 6 10 rfl) h
  case addqB | addqW | addqL =>
    refine opcodeWord_of_oneEA_ok (fun ea => ?_) (high_of_opmode_masked (masked rfl)) h
    exact fmtQuick_eq _ _ ea
  all_goals exact opcodeWord_of_oneEA_ok (fun _ => rfl) (high_of_opmode_masked (masked rfl)) h

/-- Every bit of an accepted word is fixed by its row or a field of its instruction. -/
theorem opcodeWord_of_decodeInstr_ok {ir : Word} {ext : List Word} {i : Instr} (h : decodeInstr ir ext = .ok i) :
    opcodeWord i = ir := by
  cases hop : firstMatch ir with
  | none => simp [decodeInstr_of_firstMatch_eq_none hop] at h
  | some op => exact opcodeWord_of_decodeOperands_ok hop ((decodeInstr_of_firstMatch hop ext).symm.trans h)

end Sys2Proof

namespace Sys2Proof.Machine

/-! ### The steps that fault, 40_sequencer.md R151-R153, R160 -/

theorem step_of_not_fits {s : State} (hrun : s.run = .running) (h : ¬ Fits s s.pc .w) :
    step s = .next (takeFault s (accessFault s s.pc .w) none) := by
  have fetch := fetchOpcode_error.2 (checkAccess_of_not_fits h)
  simp only [step, hrun, cycle, fetch]

theorem advance_run_ne_faulted {u : State} (h : u.run = .running) (halt : Option HaltCause) (f : FaultRecord) :
    (u.advance halt).run ≠ .faulted f := by
  cases halt <;> simp [h]

/-- An instruction faults only by its execute phase raising a fault: no successful one writes RUN, and the advance phase
can only halt. -/
theorem takeFault_of_exec_faulted {i : Instr} {s t : State} {f : FaultRecord} (hrun : s.run = .running)
    (h : exec i s = .next t) (hf : t.run = .faulted f) : ∃ c, t = takeFault s c (some (opcodeWord i)) := by
  rw [exec_eq, endCycle_next] at h
  rcases h with ⟨u, halt, executed, rfl⟩ | ⟨c, -, rfl⟩
  · obtain ⟨-, run, -⟩ := execute_kept executed
    exact absurd hf (advance_run_ne_faulted (run.trans hrun) halt f)
  · exact ⟨c, rfl⟩

/-- A step that faults after its opcode fetch records the fetched word, whether the decoder or the execute phase fails. -/
theorem takeFault_of_step_faulted {s t : State} {f : FaultRecord} (hrun : s.run = .running) (hfit : Fits s s.pc .w)
    (h : step s = .next t) (hf : t.run = .faulted f) :
    ∃ c, t = takeFault s c (some (s.byteAt s.pc ++ s.byteAt (s.pc + 1))) := by
  cases decoded : decodeInstr (s.byteAt s.pc ++ s.byteAt (s.pc + 1)) (extWordsAt s) with
  | error e =>
    rw [step_of_decodeInstr_error hrun hfit decoded] at h
    exact ⟨_, (Host.Outcome.next.inj h).symm⟩
  | ok i =>
    rw [step_of_decodeInstr_ok hrun hfit decoded] at h
    rw [← opcodeWord_of_decodeInstr_ok decoded]
    exact takeFault_of_exec_faulted hrun h hf

/-- Settles O13: every faulting step is `takeFault` of the state at its start, with the opcode word exactly when the fetch
succeeded. -/
theorem faultsArePrecise : Obligations.FaultsArePrecise := by
  intro s t f hrun hstep hf
  by_cases hfit : Fits s s.pc .w
  · obtain ⟨c, rfl⟩ := takeFault_of_step_faulted hrun hfit hstep hf
    obtain rfl := RunState.faulted.inj hf
    exact ⟨rfl, rfl, fun _ => rfl, absurd hfit⟩
  · obtain rfl := Host.Outcome.next.inj ((step_of_not_fits hrun hfit).symm.trans hstep)
    obtain rfl := RunState.faulted.inj hf
    exact ⟨rfl, rfl, fun fits => absurd fits hfit, fun _ => rfl⟩

end Sys2Proof.Machine
end

section
/-! PROOFS of the encoding: decoding the bytes of an instruction, the accepted words, the length of an instruction and
the step at its bytes, 30_encoding.md R100-R122, 40_sequencer.md R151-R153. -/

namespace Sys2Proof
open Sys2Proof.Machine

/-! ### Words as bytes, 20_memory.md R72, R73 -/

@[simp] theorem append_bytes (w : Word) : w.extractLsb' 8 8 ++ w.extractLsb' 0 8 = w := by
  rw [BitVec.extractLsb'_append_extractLsb'_eq_extractLsb' (by rfl), BitVec.extractLsb'_eq_self]

@[simp] theorem length_bytesOfWords (ws : List Word) : (bytesOfWords ws).length = 2 * ws.length := by
  induction ws with
  | nil => rfl
  | cons w ws ih => simp only [bytesOfWords, List.length_cons, ih]; omega

theorem wordsOfBytes_bytesOfWords_append (ws : List Word) (rest : List Byte) :
    wordsOfBytes (bytesOfWords ws ++ rest) = ws ++ wordsOfBytes rest := by
  induction ws with
  | nil => rfl
  | cons w ws ih => simp only [bytesOfWords, List.cons_append, wordsOfBytes, append_bytes, ih]

/-- Word k of a word sequence is its bytes 2k and 2k + 1. -/
theorem bytesOfWords_getElem (ws : List Word) (k : Nat) (hk : k < ws.length) :
    (bytesOfWords ws)[2 * k]'(by simp; omega) ++ (bytesOfWords ws)[2 * k + 1]'(by simp; omega) = ws[k] := by
  induction ws generalizing k with
  | nil => exact absurd hk (Nat.not_lt_zero k)
  | cons w ws ih =>
    cases k with
    | zero => exact append_bytes w
    | succ k => exact ih k (Nat.lt_of_succ_lt_succ hk)

/-! ### The fields of each format, 30_encoding.md R102 -/

theorem highReg_append (line : BitVec 4) (r o m x : BitVec 3) : highReg (line ++ r ++ o ++ m ++ x : BitVec 16) = r := by
  rw [highReg, BitVec.extractLsb'_append_eq_of_le (by decide), BitVec.extractLsb'_append_eq_of_le (by decide),
    BitVec.extractLsb'_append_eq_of_le (by decide)]
  exact BitVec.extractLsb'_append_eq_right

theorem moveDstMode_append (line : BitVec 4) (r o m x : BitVec 3) :
    moveDstMode (line ++ r ++ o ++ m ++ x : BitVec 16) = o := by
  rw [moveDstMode, BitVec.extractLsb'_append_eq_of_le (by decide), BitVec.extractLsb'_append_eq_of_le (by decide)]
  exact BitVec.extractLsb'_append_eq_right

@[simp] theorem highReg_fmtMove (size : BitVec 2) (r : Reg) (m : BitVec 3) (src : EA) :
    highReg (fmtMove size r m src) = r := highReg_append _ _ _ _ _
@[simp] theorem moveDstMode_fmtMove (size : BitVec 2) (r : Reg) (m : BitVec 3) (src : EA) :
    moveDstMode (fmtMove size r m src) = m := moveDstMode_append _ _ _ _ _
@[simp] theorem highReg_fmtOpmode (line : BitVec 4) (r : Reg) (opmode : BitVec 3) (ea : EA) :
    highReg (fmtOpmode line r opmode ea) = r := highReg_append _ _ _ _ _
@[simp] theorem highReg_fmtQuick (q : BitVec 3) (size : BitVec 2) (ea : EA) : highReg (fmtQuick q size ea) = q := by
  rw [fmtQuick_eq]; exact highReg_append _ _ _ _ _
@[simp] theorem disp8_fmtBranch (c : Cond) (d : Disp) : disp8 (fmtBranch c d) = d.field :=
  BitVec.extractLsb'_append_eq_right

/-- An opcode word with an EA field in bits [5:0] that holds the fields of `ea`, R104. -/
def HasEA (ir : Word) (ea : EA) : Prop := eaMode ir = ea.modeField ∧ eaReg ir = ea.regField

theorem hasEA_append (high : BitVec 10) (ea : EA) : HasEA (high ++ ea.modeField ++ ea.regField) ea :=
  ⟨eaMode_fields _ _ _, eaReg_fields _ _ _⟩

/-! ### Decoding the words of an instruction, 30_encoding.md R114, R116 -/

theorem oneEA_extWords {set : ModeSet} {sz : Size} {ir : Word} {ea : EA} (hir : HasEA ir ea)
    (hl : ea.legal set sz = true) (rest : List Word) (mk : EA → Instr) :
    oneEA set sz ir (ea.extWords sz ++ rest) mk = .ok (mk ea) := by
  rw [oneEA, hir.1, hir.2, (decodeEA_extWords hl rest).1]

/-- MOVE: the destination's words follow the source's. -/
theorem twoEA_extWords {set : ModeSet} {sz : Size} {ir : Word} {src dst : EA} (hsrc : HasEA ir src)
    (hmode : moveDstMode ir = dst.modeField) (hreg : highReg ir = dst.regField)
    (hl : (src.legal set sz && dst.legal .dataAlt sz) = true) (rest : List Word) (mk : EA → EA → Instr) :
    twoEA set sz ir (src.extWords sz ++ dst.extWords sz ++ rest) mk = .ok (mk src dst) := by
  obtain ⟨hs, hd⟩ := Bool.and_eq_true_iff.1 hl
  obtain ⟨source, words⟩ := decodeEA_extWords hs (dst.extWords sz ++ rest)
  rw [twoEA, hsrc.1, hsrc.2, hmode, hreg, List.append_assoc, source, words, List.drop_left,
    (decodeEA_extWords hd rest).1]

theorem decodeDisp_extWords {d : Disp} (hl : d.legal = true) (c : Cond) (rest : List Word) :
    decodeDisp (fmtBranch c d) (d.extWords ++ rest) = d := by
  rw [decodeDisp, disp8_fmtBranch]
  cases d with
  | short d8 => exact if_neg (by simpa [Disp.legal, Disp.field] using hl)
  | word d16 => exact if_pos rfl

theorem firstMatch_opcodeWord {i : Instr} (hw : WellFormed i = true) : firstMatch (opcodeWord i) = some (Laws.rowOf i) := by
  cases i with
  | moveaL src an => exact Laws.DecodeRow.moveaL src an hw
  | moveaW src an => exact Laws.DecodeRow.moveaW src an hw
  | moveB src dst => exact Laws.DecodeRow.moveB src dst hw
  | moveL src dst => exact Laws.DecodeRow.moveL src dst hw
  | moveW src dst => exact Laws.DecodeRow.moveW src dst hw
  | addiB imm dst => exact Laws.DecodeRow.addiB imm dst hw
  | addiW imm dst => exact Laws.DecodeRow.addiW imm dst hw
  | addiL imm dst => exact Laws.DecodeRow.addiL imm dst hw
  | clrB dst => exact Laws.DecodeRow.clrB dst hw
  | clrW dst => exact Laws.DecodeRow.clrW dst hw
  | clrL dst => exact Laws.DecodeRow.clrL dst hw
  | rts => exact Laws.DecodeRow.rts hw
  | stop k => exact Laws.DecodeRow.stop k hw
  | trap15 => exact Laws.DecodeRow.trap15 hw
  | jmp ea => exact Laws.DecodeRow.jmp ea hw
  | addqB q dst => exact Laws.DecodeRow.addqB q dst hw
  | addqW q dst => exact Laws.DecodeRow.addqW q dst hw
  | addqL q dst => exact Laws.DecodeRow.addqL q dst hw
  | bra d => exact Laws.DecodeRow.bra d hw
  | bsr d => exact Laws.DecodeRow.bsr d hw
  | bhi d => exact Laws.DecodeRow.bhi d hw
  | bls d => exact Laws.DecodeRow.bls d hw
  | bcc d => exact Laws.DecodeRow.bcc d hw
  | bcs d => exact Laws.DecodeRow.bcs d hw
  | bne d => exact Laws.DecodeRow.bne d hw
  | beq d => exact Laws.DecodeRow.beq d hw
  | bvc d => exact Laws.DecodeRow.bvc d hw
  | bvs d => exact Laws.DecodeRow.bvs d hw
  | bpl d => exact Laws.DecodeRow.bpl d hw
  | bmi d => exact Laws.DecodeRow.bmi d hw
  | bge d => exact Laws.DecodeRow.bge d hw
  | blt d => exact Laws.DecodeRow.blt d hw
  | bgt d => exact Laws.DecodeRow.bgt d hw
  | ble d => exact Laws.DecodeRow.ble d hw
  | cmpB src dn => exact Laws.DecodeRow.cmpB src dn hw
  | cmpW src dn => exact Laws.DecodeRow.cmpW src dn hw
  | cmpL src dn => exact Laws.DecodeRow.cmpL src dn hw
  | cmpaW src an => exact Laws.DecodeRow.cmpaW src an hw
  | cmpaL src an => exact Laws.DecodeRow.cmpaL src an hw
  | addEaDnB src dn => exact Laws.DecodeRow.addEaDnB src dn hw
  | addEaDnW src dn => exact Laws.DecodeRow.addEaDnW src dn hw
  | addEaDnL src dn => exact Laws.DecodeRow.addEaDnL src dn hw
  | addDnEaB dn dst => exact Laws.DecodeRow.addDnEaB dn dst hw
  | addDnEaW dn dst => exact Laws.DecodeRow.addDnEaW dn dst hw
  | addDnEaL dn dst => exact Laws.DecodeRow.addDnEaL dn dst hw
  | addaW src an => exact Laws.DecodeRow.addaW src an hw
  | addaL src an => exact Laws.DecodeRow.addaL src an hw

theorem decodeOperands_encode {i : Instr} (hw : WellFormed i = true) (rest : List Word) :
    decodeOperands (Laws.rowOf i) (opcodeWord i) (instrExtWords i ++ rest) = .ok i := by
  cases i with
  | rts | stop | trap15 => rfl
  | bra d | bsr d | bhi d | bls d | bcc d | bcs d | bne d | beq d | bvc d | bvs d | bpl d | bmi d | bge d | blt d | bgt d
  | ble d => simp only [Laws.rowOf, decodeOperands, opcodeWord, instrExtWords, decodeDisp_extWords hw]
  | moveB src dst | moveL src dst | moveW src dst =>
    exact twoEA_extWords (hasEA_append _ src) (moveDstMode_fmtMove _ _ _ _) (highReg_fmtMove _ _ _ _) hw rest _
  | addiB imm dst =>
    have value : (imm.setWidth 16).extractLsb' 0 8 = imm := by
      apply BitVec.eq_of_toNat_eq
      simp only [BitVec.extractLsb'_toNat, BitVec.toNat_setWidth]
      omega
    refine (oneEA_extWords (hasEA_append _ dst) hw rest _).trans ?_
    rw [instrExtWords, List.cons_append, extWord_zero, value]
  | addiW imm dst => exact oneEA_extWords (hasEA_append _ dst) hw rest _
  | addiL imm dst =>
    refine (oneEA_extWords (hasEA_append _ dst) hw rest _).trans ?_
    exact congrArg (fun v => Except.ok (Instr.addiL v dst)) (long_halves imm)
  | clrB ea | clrW ea | clrL ea | jmp ea => exact oneEA_extWords (hasEA_append _ ea) hw rest _
  | addqB q ea | addqW q ea | addqL q ea =>
    refine (oneEA_extWords (hasEA_append _ ea) hw rest _).trans ?_
    rw [opcodeWord, highReg_fmtQuick]
  | moveaL ea r | moveaW ea r =>
    refine (oneEA_extWords (hasEA_append _ ea) hw rest _).trans ?_
    rw [opcodeWord, highReg_fmtMove]
  | cmpB ea r | cmpW ea r | cmpL ea r | cmpaW ea r | cmpaL ea r | addEaDnB ea r | addEaDnW ea r | addEaDnL ea r
  | addDnEaB r ea | addDnEaW r ea | addDnEaL r ea | addaW ea r | addaL ea r =>
    refine (oneEA_extWords (hasEA_append _ ea) hw rest _).trans ?_
    rw [opcodeWord, highReg_fmtOpmode]

theorem decodeInstr_encode {i : Instr} (hw : WellFormed i = true) (rest : List Word) :
    decodeInstr (opcodeWord i) (instrExtWords i ++ rest) = .ok i :=
  (decodeInstr_of_firstMatch (firstMatch_opcodeWord hw) _).trans (decodeOperands_encode hw rest)

/-! ### The length of an instruction, 30_encoding.md R100, R113 -/

theorem length_extWords_le (ea : EA) (sz : Size) : (ea.extWords sz).length ≤ 2 := by
  cases ea with
  | imm v => rw [EA.extWords]; split <;> simp [wordsOfLong]
  | _ => simp [EA.extWords, wordsOfLong]

theorem eaWords_of_hasEA {set : ModeSet} {sz : Size} {ir : Word} {ea : EA} (hir : HasEA ir ea)
    (hl : ea.legal set sz = true) : eaWords sz (eaMode ir) (eaReg ir) = (ea.extWords sz).length := by
  rw [hir.1, hir.2, (decodeEA_extWords hl []).2]

theorem length_disp_extWords {d : Disp} (hl : d.legal = true) (c : Cond) :
    d.extWords.length = if disp8 (fmtBranch c d) = 0 then 1 else 0 := by
  rw [disp8_fmtBranch]
  cases d with
  | short d8 => exact (if_neg (by simpa [Disp.legal, Disp.field] using hl)).symm
  | word d16 => exact (if_pos rfl).symm

theorem opLength_rowOf {i : Instr} (hw : WellFormed i = true) :
    opLength (Laws.rowOf i) (opcodeWord i) = 1 + (instrExtWords i).length := by
  cases i with
  | rts | stop | trap15 => rfl
  | bra d | bsr d | bhi d | bls d | bcc d | bcs d | bne d | beq d | bvc d | bvs d | bpl d | bmi d | bge d | blt d | bgt d
  | ble d => exact congrArg (1 + ·) (length_disp_extWords hw _).symm
  | moveB src dst | moveL src dst | moveW src dst =>
    obtain ⟨hs, hd⟩ := Bool.and_eq_true_iff.1 hw
    have destination := (decodeEA_extWords hd []).2
    rw [instrExtWords, List.length_append, ← eaWords_of_hasEA (hasEA_append _ src) hs, ← destination]
    rw [Laws.rowOf, opLength, opcodeWord, moveDstMode_fmtMove, highReg_fmtMove, fmtMove]
  | addiB _ dst | addiW _ dst =>
    rw [instrExtWords, List.length_cons, Nat.add_comm _ 1]
    exact congrArg (fun n => 1 + (1 + n)) (eaWords_of_hasEA (hasEA_append _ dst) hw)
  | addiL imm dst =>
    rw [instrExtWords, List.length_append]
    exact congrArg (fun n => 1 + (2 + n)) (eaWords_of_hasEA (hasEA_append _ dst) hw)
  | clrB ea | clrW ea | clrL ea | jmp ea | addqB _ ea | addqW _ ea | addqL _ ea | moveaL ea _ | moveaW ea _ | cmpB ea _
  | cmpW ea _ | cmpL ea _ | cmpaW ea _ | cmpaL ea _ | addEaDnB ea _ | addEaDnW ea _ | addEaDnL ea _ | addDnEaB _ ea
  | addDnEaW _ ea | addDnEaL _ ea | addaW ea _ | addaL ea _ =>
    exact congrArg (1 + ·) (eaWords_of_hasEA (hasEA_append _ ea) hw)

theorem length_encode {i : Instr} (hw : WellFormed i = true) : (encode i).length = lengthWords (opcodeWord i) := by
  rw [lengthWords, firstMatch_opcodeWord hw, encode, List.length_cons, Nat.add_comm]
  exact (opLength_rowOf hw).symm

theorem length_instrExtWords_le (i : Instr) : (instrExtWords i).length ≤ 4 := by
  cases i with
  | rts | stop | trap15 => simp [instrExtWords]
  | bra d | bsr d | bhi d | bls d | bcc d | bcs d | bne d | beq d | bvc d | bvs d | bpl d | bmi d | bge d | blt d | bgt d
  | ble d => cases d <;> simp [instrExtWords, Disp.extWords]
  | moveB src dst | moveL src dst | moveW src dst =>
    rw [instrExtWords, List.length_append]
    exact Nat.add_le_add (length_extWords_le src _) (length_extWords_le dst _)
  | addiB _ ea | addiW _ ea =>
    rw [instrExtWords, List.length_cons]; exact Nat.le_succ_of_le (Nat.succ_le_succ (length_extWords_le ea _))
  | addiL _ ea =>
    rw [instrExtWords, List.length_append]; exact Nat.add_le_add (Nat.le_refl 2) (length_extWords_le ea _)
  | clrB ea | clrW ea | clrL ea | jmp ea | addqB _ ea | addqW _ ea | addqL _ ea | moveaL ea _ | moveaW ea _ | cmpB ea _
  | cmpW ea _ | cmpL ea _ | cmpaW ea _ | cmpaL ea _ | addEaDnB ea _ | addEaDnW ea _ | addEaDnL ea _ | addDnEaB _ ea
  | addDnEaW _ ea | addDnEaL _ ea | addaW ea _ | addaL ea _ =>
    exact Nat.le_trans (length_extWords_le ea _) (by decide)

/-- Settles O4: each format has the extension words that the fields of its opcode word ask for, at most two for each of
two operands. -/
theorem lengthOfEncoding : Obligations.LengthOfEncoding := by
  refine ⟨fun i hw => ⟨length_encode hw, ?_, ?_⟩, fun v a => ⟨rfl, rfl⟩⟩
  · exact Nat.succ_le_succ (Nat.zero_le _)
  · exact Nat.succ_le_succ (length_instrExtWords_le i)

/-- Settles O2: the bytes are read as the instruction's words again, which decode to it whatever words follow; the length
that the opcode word gives is that of its own bytes. -/
theorem decodeOfEncode : Obligations.DecodeOfEncode := by
  intro i rest hw
  have words : wordsOfBytes (bytesOfWords (encode i) ++ rest) = opcodeWord i :: (instrExtWords i ++ wordsOfBytes rest) :=
    wordsOfBytes_bytesOfWords_append (encode i) rest
  have bytes : 2 * lengthWords (opcodeWord i) = (bytesOfWords (encode i)).length := by
    rw [length_bytesOfWords, length_encode hw]
  simp only [decode, words, decodeInstr_encode hw, bytes, List.drop_left]
  exact if_neg (by rw [List.length_append]; omega)

/-! ### The accepted words, 30_encoding.md R118, R122 -/

theorem legal_of_oneEA_ok {set : ModeSet} {sz : Size} {ir : Word} {ext : List Word} {mk : EA → Instr} {i : Instr}
    (h : oneEA set sz ir ext mk = .ok i) : ∃ ea, ea.legal set sz = true ∧ mk ea = i := by
  rw [oneEA] at h
  cases operand : decodeEA set sz (eaMode ir) (eaReg ir) ext with
  | error e => simp [operand] at h
  | ok ea => exact ⟨ea, (decodeEA_fields operand).2.2, by simpa [operand] using h⟩

theorem legal_of_twoEA_ok {set : ModeSet} {sz : Size} {ir : Word} {ext : List Word} {mk : EA → EA → Instr} {i : Instr}
    (h : twoEA set sz ir ext mk = .ok i) :
    ∃ src dst, (src.legal set sz && dst.legal .dataAlt sz) = true ∧ mk src dst = i := by
  rw [twoEA] at h
  cases source : decodeEA set sz (eaMode ir) (eaReg ir) ext with
  | error e => simp [source] at h
  | ok src =>
    simp only [source] at h
    cases destination : decodeEA .dataAlt sz (moveDstMode ir) (highReg ir)
        (ext.drop (eaWords sz (eaMode ir) (eaReg ir))) with
    | error e => simp [destination] at h
    | ok dst =>
      obtain ⟨-, -, hs⟩ := decodeEA_fields source
      obtain ⟨-, -, hd⟩ := decodeEA_fields destination
      exact ⟨src, dst, Bool.and_eq_true_iff.2 ⟨hs, hd⟩, by simpa [destination] using h⟩

theorem legal_decodeDisp (ir : Word) (ext : List Word) : (decodeDisp ir ext).legal = true := by
  rw [decodeDisp]
  split
  · rfl
  · next nonzero => exact bne_iff_ne.2 nonzero

theorem wellFormed_of_decodeOperands_ok {ir : Word} {op : Op} {ext : List Word} {i : Instr}
    (h : decodeOperands op ir ext = .ok i) : WellFormed i = true := by
  cases op
  case rts | stop | trap15 =>
    obtain rfl := Except.ok.inj h
    rfl
  case bra | bsr | bhi | bls | bcc | bcs | bne | beq | bvc | bvs | bpl | bmi | bge | blt | bgt | ble =>
    obtain rfl := Except.ok.inj h
    exact legal_decodeDisp ir ext
  case moveB | moveL | moveW =>
    obtain ⟨src, dst, hl, rfl⟩ := legal_of_twoEA_ok h
    exact hl
  all_goals
    obtain ⟨ea, hl, rfl⟩ := legal_of_oneEA_ok h
    exact hl

/-- Settles O3: every bit of an accepted word is its row's or a field's, and the operands were checked against the legal
sets that make the instruction well formed. -/
theorem acceptedWordIsItsInstructions : Obligations.AcceptedWordIsItsInstructions := by
  intro ir ext i h
  refine ⟨opcodeWord_of_decodeInstr_ok h, ?_⟩
  cases hop : firstMatch ir with
  | none => simp [decodeInstr_of_firstMatch_eq_none hop] at h
  | some op => exact wellFormed_of_decodeOperands_ok ((decodeInstr_of_firstMatch hop ext).symm.trans h)

/-- Settles O1: the words are fixed, and the decoder computes. -/
theorem sampleWordsDecode : Obligations.SampleWordsDecode := by
  unfold Obligations.SampleWordsDecode
  decide

end Sys2Proof

namespace Sys2Proof.Machine

/-! ### The step at the words of an instruction, 40_sequencer.md R151-R153 -/

/-- Settles O8: the opcode fetch succeeds, and the cycle is the execution of what it decodes to. -/
theorem stepRunsTheDecodedInstruction : Obligations.StepRunsTheDecodedInstruction :=
  fun _ _ => step_of_decodeInstr_ok

/-- Settles O10: the failing fetch is one word access, checked as every other. -/
theorem opcodeFetchFaults : Obligations.OpcodeFetchFaults := by
  intro s hrun hfit
  rw [step_of_not_fits hrun hfit]
  simp [takeFault, accessFault]

/-- The word that a read of width W answers. -/
def State.wordAt (s : State) (a : Long) : Word := s.byteAt a ++ s.byteAt (a + 1)

/-- The word that the decoder is given for an address, 0 where memory does not give it (log 13). -/
def readWord (s : State) (a : Long) : Word :=
  match memRead s a .w with
  | .ok v => v.setWidth 16
  | .error _ => 0

theorem extWordsAt_eq (s : State) :
    extWordsAt s = [readWord s (s.pc + 2), readWord s (s.pc + 4), readWord s (s.pc + 6), readWord s (s.pc + 8)] := rfl

theorem readWord_of_fits {s : State} {a : Long} (h : Fits s a .w) : readWord s a = s.wordAt a := by
  rw [readWord, memRead_of_fits h]
  simp [State.load, zextWord, State.wordAt]

/-- The k-th word from PC on is the k-th word of a sequence whose bytes stand there. -/
theorem wordAt_of_bytes {s : State} {ws : List Word}
    (hbytes : ∀ k (h : k < (bytesOfWords ws).length), s.byteAt (s.pc + BitVec.ofNat 32 k) = (bytesOfWords ws)[k])
    (k : Nat) (hk : k < ws.length) : s.wordAt (s.pc + BitVec.ofNat 32 (2 * k)) = ws[k] := by
  have next : s.pc + BitVec.ofNat 32 (2 * k) + 1 = s.pc + BitVec.ofNat 32 (2 * k + 1) := by
    rw [BitVec.add_assoc, show (1 : Long) = BitVec.ofNat 32 1 from rfl, ← BitVec.ofNat_add]
  rw [State.wordAt, next, hbytes (2 * k) (by simp; omega), hbytes (2 * k + 1) (by simp; omega),
    bytesOfWords_getElem ws k hk]

/-- The words that the decoder is given begin with every sequence of at most four that stands after the opcode word and
can be read. -/
theorem extWordsAt_eq_append {s : State} {ws : List Word} (hlen : ws.length ≤ 4) (hfit : ExtFits s ws.length)
    (hword : ∀ k (h : k < ws.length), s.wordAt (s.pc + BitVec.ofNat 32 (2 * (k + 1))) = ws[k]) :
    ∃ rest, extWordsAt s = ws ++ rest := by
  have hread : ∀ k (h : k < ws.length), readWord s (s.pc + BitVec.ofNat 32 (2 * (k + 1))) = ws[k] :=
    fun k h => (readWord_of_fits (hfit k h)).trans (hword k h)
  refine ⟨(extWordsAt s).drop ws.length, List.ext_getElem ?_ fun k hk hk' => ?_⟩
  · rw [extWordsAt_eq, List.length_append, List.length_drop]
    exact (Nat.add_sub_of_le hlen).symm
  · by_cases inside : k < ws.length
    · rw [List.getElem_append_left inside, ← hread k inside]
      obtain rfl | rfl | rfl | rfl : k = 0 ∨ k = 1 ∨ k = 2 ∨ k = 3 := by omega
      all_goals rfl
    · rw [List.getElem_append_right (by omega), List.getElem_drop]
      congr 1; omega

/-- Settles O9: the words at PC are those of the instruction, so that the step decodes them to it. -/
theorem stepRunsTheEncodedInstruction : Obligations.StepRunsTheEncodedInstruction := by
  intro s i hrun hw hfit hbytes
  have word := wordAt_of_bytes hbytes
  have opcodeFits : Fits s s.pc .w := addr_zero s.pc ▸ hfit 0 (Nat.succ_pos _)
  have opcode : s.byteAt s.pc ++ s.byteAt (s.pc + 1) = opcodeWord i :=
    (congrArg s.wordAt (addr_zero s.pc)).symm.trans (word 0 (Nat.succ_pos _))
  obtain ⟨rest, ext⟩ := extWordsAt_eq_append (length_instrExtWords_le i)
    (fun k hk => hfit (k + 1) (Nat.succ_lt_succ hk)) (fun k hk => word (k + 1) (Nat.succ_lt_succ hk))
  exact step_of_decodeInstr_ok hrun opcodeFits (by rw [opcode, ext]; exact decodeInstr_encode hw rest)

end Sys2Proof.Machine
end

section
/-! PROOFS about every step: what a step can be, the invariant of the machine, how a run halts or blocks, and what only
STOP and TRAP #15 change, 10_state.md R37-R45, 40_sequencer.md R150-R165, 60_exceptions.md R380-R387. -/

namespace Sys2Proof.Machine

/-! ### What a step can be, 40_sequencer.md R150-R153 -/

/-- Everything `step` can be: nothing outside Running, a fault of the opcode fetch, a rejected word, or the cycle of the
instruction that the fetched word is the opcode word of. -/
theorem step_cases (s : State) :
    (s.run ≠ .running ∧ step s = .next s) ∨
    (s.run = .running ∧ ¬ Fits s s.pc .w ∧ step s = .next (takeFault s (accessFault s s.pc .w) none)) ∨
    (s.run = .running ∧ ∃ e, step s = .next (takeFault s (opcodeFault e) (some (s.wordAt s.pc)))) ∨
    (s.run = .running ∧ ∃ i, opcodeWord i = s.wordAt s.pc ∧ step s = exec i s) := by
  by_cases hrun : s.run = .running
  · by_cases hfit : Fits s s.pc .w
    · cases decoded : decodeInstr (s.byteAt s.pc ++ s.byteAt (s.pc + 1)) (extWordsAt s) with
      | error e => exact .inr (.inr (.inl ⟨hrun, e, step_of_decodeInstr_error hrun hfit decoded⟩))
      | ok i =>
        exact .inr (.inr (.inr ⟨hrun, i, opcodeWord_of_decodeInstr_ok decoded, step_of_decodeInstr_ok hrun hfit decoded⟩))
    · exact .inr (.inl ⟨hrun, hfit, step_of_not_fits hrun hfit⟩)
  · exact .inl ⟨hrun, stepWhenNotRunningChangesNothing s hrun⟩

/-- Everything an instruction with a next state can have done: its execute phase succeeded, or it raised a fault. -/
theorem exec_next {i : Instr} {s t : State} : exec i s = .next t ↔
    (∃ u h, execute s i = .ok (u, h) ∧ t = u.advance h) ∨
      ∃ c, execute s i = .error (.raise c) ∧ t = takeFault s c (some (opcodeWord i)) := by
  rw [exec_eq, endCycle_next]

/-- Everything a successful execute phase can have been: one that keeps SR[15:5] and the host port and requests no halt,
TRAP #15's, or STOP's. -/
theorem execute_cases {i : Instr} {s u : State} {h : Option HaltCause} (he : execute s i = .ok (u, h)) :
    (OperandWritten s u ∧ h = none) ∨ (i = .trap15 ∧ trap15 s = .ok (u, h)) ∨ ∃ k, i = .stop k ∧ stop k s = .ok (u, h) := by
  by_cases trap : i = .trap15
  · subst trap; exact .inr (.inl ⟨rfl, he⟩)
  · by_cases halt : ∃ k, i = .stop k
    · obtain ⟨k, rfl⟩ := halt
      exact .inr (.inr ⟨k, rfl, he⟩)
    · exact .inl (plain_written trap (fun k e => halt ⟨k, e⟩) he)

/-! ### SR[15:5], 10_state.md R37, R40, R42 -/

/-- The unimplemented bits of SR are in SR[15:5]. -/
theorem and_not_srMask_congr {x y : Word} (h : x.extractLsb' 5 11 = y.extractLsb' 5 11) :
    x &&& ~~~srMask = y &&& ~~~srMask := by
  apply BitVec.eq_of_getLsbD_eq
  intro j hj
  rw [BitVec.getLsbD_and, BitVec.getLsbD_and]
  by_cases low : j < 5
  · have implemented : (~~~srMask).getLsbD j = false := by
      revert low; revert j; decide
    rw [implemented, Bool.and_false, Bool.and_false]
  · have bit := congrArg (·.getLsbD (j - 5)) h
    simp only [BitVec.getLsbD_extractLsb', show 5 + (j - 5) = j by omega, show j - 5 < 11 by omega, decide_true,
      Bool.true_and] at bit
    rw [bit]

theorem execute_reserved {i : Instr} {s u : State} {h : Option HaltCause} (he : execute s i = .ok (u, h))
    (hs : s.sr &&& ~~~srMask = 0) : u.sr &&& ~~~srMask = 0 := by
  rcases execute_cases he with ⟨written, -⟩ | ⟨-, trap⟩ | ⟨k, -, halt⟩
  · rw [and_not_srMask_congr written.high, hs]
  · obtain ⟨-, sr, -⟩ := trap15_written trap
    rw [sr, hs]
  · obtain ⟨-, -, rfl, -⟩ := stop_ok.1 halt
    exact and_srMask_unimplemented k

/-! ### The fault record, 10_state.md R45, 60_exceptions.md R381, R382 -/

theorem not_fits_of_checkAccess_error {s : State} {a : Long} {sz : Size} {e : Stop} (h : s.checkAccess a sz = .error e) :
    ¬ Fits s a sz :=
  fun fits => by simp [checkAccess_of_fits fits] at h

theorem checkAccess_error_eq {s : State} {a : Long} {sz : Size} {e : Stop} (h : s.checkAccess a sz = .error e) :
    e = .raise (accessFault s a sz) :=
  Except.error.inj (h.symm.trans (checkAccess_of_not_fits (not_fits_of_checkAccess_error h)))

/-- The record of a failing access is true; without an opcode word it is the opcode fetch's. -/
theorem frecTrue_of_not_fits {s : State} {a : Long} {sz : Size} (h : ¬ Fits s a sz) (ir : Option Word)
    (hir : ir = none → a = s.pc ∧ sz = .w) : FrecTrue s ⟨accessFault s a sz, s.pc, ir⟩ := by
  by_cases odd : s.params.alignmentFault = true ∧ sz ≠ .b ∧ a.toNat % 2 = 1
  · rw [accessFault, if_pos odd]
    refine ⟨rfl, fun absent => ?_, by simp, ?_, by simp⟩
    · obtain ⟨rfl, rfl⟩ := hir absent
      exact .inr rfl
    · rintro _ _ ⟨⟩
      exact odd
  · rw [accessFault, if_neg odd]
    refine ⟨rfl, fun absent => ?_, ?_, by simp, by simp⟩
    · obtain ⟨rfl, rfl⟩ := hir absent
      exact .inl rfl
    · rintro _ _ ⟨⟩
      by_contra inside
      exact h ⟨odd, Nat.le_of_not_lt inside⟩

/-- The record of a cause that says nothing of an access or of the privilege is true. -/
theorem frecTrue_opcodeFault (s : State) (e : OpcodeError) (ir : Word) : FrecTrue s ⟨opcodeFault e, s.pc, some ir⟩ := by
  cases e <;> exact ⟨rfl, by simp, by simp [opcodeFault], by simp [opcodeFault], by simp [opcodeFault]⟩

/-- The record of a fault that the execute phase raises is true. -/
theorem frecTrue_of_execute_error {i : Instr} {s : State} {c : FaultCause} (he : execute s i = .error (.raise c)) :
    FrecTrue s ⟨c, s.pc, some (opcodeWord i)⟩ := by
  rcases execute_error he with ⟨a, sz, access⟩ | illegal | ⟨privilege, user, k, rfl⟩ | ⟨w, stuck, -⟩
  · obtain rfl := Stop.raise.inj (checkAccess_error_eq access)
    exact frecTrue_of_not_fits (not_fits_of_checkAccess_error access) _ (by simp)
  · obtain rfl := Stop.raise.inj illegal
    exact frecTrue_opcodeFault s .illegalAddressingMode _
  · obtain rfl := Stop.raise.inj privilege
    exact ⟨rfl, by simp, by simp, by simp, fun _ => ⟨user, rfl⟩⟩
  · cases stuck

/-! ### The invariant -/

theorem inv_takeFault {s : State} {c : FaultCause} {ir : Option Word} (hs : Inv s) (hf : FrecTrue s ⟨c, s.pc, ir⟩) :
    Inv (takeFault s c ir) := by
  obtain ⟨params, canonical, bounded, reserved, -⟩ := hs
  refine ⟨params, canonical, bounded, reserved, fun f run => ?_⟩
  obtain rfl := RunState.faulted.inj run
  exact hf

theorem inv_advance {i : Instr} {s u : State} {h : Option HaltCause} (hs : Inv s) (hrun : s.run = .running)
    (he : execute s i = .ok (u, h)) : Inv (u.advance h) := by
  obtain ⟨params, canonical, bounded, reserved, -⟩ := hs
  obtain ⟨sameParams, sameRun, keptCanonical, keptBounded⟩ := execute_kept he
  refine ⟨?_, ?_, ?_, ?_, fun f run => ?_⟩
  · rwa [advance_params, sameParams]
  · rw [advance_mem]; exact keptCanonical canonical
  · rw [advance_mem, advance_params, sameParams]; exact keptBounded bounded
  · rw [advance_sr]; exact execute_reserved he reserved
  · exact absurd run (advance_run_ne_faulted (sameRun.trans hrun) h f)

theorem exec_keeps_inv {i : Instr} {s t : State} (hs : Inv s) (hrun : s.run = .running) (h : exec i s = .next t) :
    Inv t := by
  rcases exec_next.1 h with ⟨u, halt, executed, rfl⟩ | ⟨c, raised, rfl⟩
  · exact inv_advance hs hrun executed
  · exact inv_takeFault hs (frecTrue_of_execute_error raised)

/-- Settles O21, by what a step can be: a fault leaves everything but its record, which is true of the failing access or
the rejected word; an execute phase keeps the parameters, the canonical form and its bound, and the reserved bits. -/
theorem stepKeepsInvariant : Obligations.StepKeepsInvariant := by
  intro s t hs hstep
  rcases step_cases s with ⟨-, idle⟩ | ⟨-, unfit, fetch⟩ | ⟨-, e, rejected⟩ | ⟨hrun, i, -, executed⟩
  · obtain rfl := Host.Outcome.next.inj (idle.symm.trans hstep)
    exact hs
  · obtain rfl := Host.Outcome.next.inj (fetch.symm.trans hstep)
    exact inv_takeFault hs (frecTrue_of_not_fits unfit none fun _ => ⟨rfl, rfl⟩)
  · obtain rfl := Host.Outcome.next.inj (rejected.symm.trans hstep)
    exact inv_takeFault hs (frecTrue_opcodeFault s e _)
  · exact exec_keeps_inv hs hrun (executed.symm.trans hstep)

theorem inv_launch {params : Params} {memInit : Memory} (hp : params.Wf) (hm : memInit.wf)
    (hb : ∀ c ∈ memInit, c.1 < params.memSize) (d a : Vector Long 8) (pcEntry : Long) (srInit : Word) (host : HostPort) :
    Inv (State.launch params d a pcEntry srInit memInit host) :=
  ⟨hp, hm, hb, and_srMask_unimplemented srInit, fun _ running => by cases running⟩

/-- Settles O20: a launch state is Running with SR masked; State.reset is the launch state of the default parameters and
an empty memory. -/
theorem invariantAtLaunch : Obligations.InvariantAtLaunch := by
  refine ⟨inv_launch ?_ ?_ ?_ _ _ _ _ _, fun params d a pcEntry srInit memInit host hp hm hb => inv_launch hp hm hb _ _ _ _ _⟩
  · decide
  · exact ⟨.nil, by simp⟩
  · simp

/-! ### How a run halts, 40_sequencer.md R165 -/

theorem execute_halt {i : Instr} {s u : State} {c : HaltCause} (he : execute s i = .ok (u, some c)) :
    (c = .stop ∧ (∃ k, i = .stop k) ∧ s.supervisor = true ∧ u.pc = s.pc + 2) ∨
    (c = .termination ∧ i = .trap15 ∧ s.params.trap15Tasks.lookup ((s.dreg 0).extractLsb' 0 8) = some .terminate ∧
      u.pc = s.pc) := by
  rcases execute_cases he with ⟨-, none⟩ | ⟨rfl, trap⟩ | ⟨k, rfl, halt⟩
  · cases none
  · obtain ⟨-, none | ⟨task, cause, rfl⟩⟩ := trap15_ok trap
    · cases none
    · exact .inr ⟨Option.some.inj cause, rfl, task, rfl⟩
  · obtain ⟨supervisor, -, rfl, cause⟩ := stop_ok.1 halt
    exact .inl ⟨Option.some.inj cause, ⟨k, rfl⟩, supervisor, rfl⟩

theorem halt_of_advance_run {u : State} {h : Option HaltCause} {c : HaltCause} (hrun : u.run = .running)
    (hc : (u.advance h).run = .halted c) : h = some c := by
  cases h with
  | none => rw [advance_run_none, hrun] at hc; cases hc
  | some c' => rw [advance_run_some] at hc; rw [RunState.halted.inj hc]

/-- Settles O14: only an execute phase's halt request halts, and only STOP's and the termination's make one. -/
theorem onlyStopAndTerminationHalt : Obligations.OnlyStopAndTerminationHalt := by
  intro s t c hrun hstep hc
  rcases step_cases s with ⟨notRunning, -⟩ | ⟨-, -, fetch⟩ | ⟨-, e, rejected⟩ | ⟨-, i, word, executed⟩
  · exact absurd hrun notRunning
  · obtain rfl := Host.Outcome.next.inj (fetch.symm.trans hstep)
    cases hc
  · obtain rfl := Host.Outcome.next.inj (rejected.symm.trans hstep)
    cases hc
  · rcases exec_next.1 (executed.symm.trans hstep) with ⟨u, h, ok, rfl⟩ | ⟨_, -, rfl⟩
    · obtain ⟨-, run, -⟩ := execute_kept ok
      obtain rfl := halt_of_advance_run (run.trans hrun) hc
      rw [advance_pc]
      rcases execute_halt ok with ⟨rfl, ⟨k, rfl⟩, supervisor, pc⟩ | ⟨rfl, rfl, task, pc⟩
      · exact .inl ⟨rfl, word.symm, supervisor, by rw [pc, BitVec.add_assoc]; rfl⟩
      · exact .inr ⟨rfl, word.symm, task, by rw [pc]⟩
    · cases hc

/-! ### What only STOP and TRAP #15 change, 10_state.md R42, R51 -/

theorem execute_high {i : Instr} {s u : State} {h : Option HaltCause} (he : execute s i = .ok (u, h))
    (hh : h ≠ some .stop) : u.sr.extractLsb' 5 11 = s.sr.extractLsb' 5 11 := by
  rcases execute_cases he with ⟨written, -⟩ | ⟨-, trap⟩ | ⟨k, -, halt⟩
  · exact written.high
  · obtain ⟨-, sr, -⟩ := trap15_written trap
    rw [sr]
  · obtain ⟨-, -, -, cause⟩ := stop_ok.1 halt
    exact absurd cause hh

/-- S, T and the interrupt mask are bits of SR[15:5]. -/
theorem systemByte_congr {s t : State} (h : t.sr.extractLsb' 5 11 = s.sr.extractLsb' 5 11) :
    t.supervisor = s.supervisor ∧ t.trace = s.trace ∧ t.intMask = s.intMask := by
  refine ⟨?_, ?_, ?_⟩
  · simpa [State.supervisor, BitVec.getLsbD_extractLsb'] using congrArg (·.getLsbD 8) h
  · simpa [State.trace, BitVec.getLsbD_extractLsb'] using congrArg (·.getLsbD 10) h
  · have bits := congrArg (·.extractLsb' 3 3) h
    simp only [extractLsb'_extractLsb'_of_add_le _ (show 3 + 3 ≤ 11 by decide)] at bits
    exact bits

/-- Settles O15: SR[15:5] is kept by every execute phase but STOP's, which requests the halt that the hypothesis
excludes. -/
theorem systemByteChangesOnlyByStop : Obligations.SystemByteChangesOnlyByStop := by
  intro s t hstep notStopped
  have high : t.sr.extractLsb' 5 11 = s.sr.extractLsb' 5 11 := by
    rcases step_cases s with ⟨-, idle⟩ | ⟨-, -, fetch⟩ | ⟨-, e, rejected⟩ | ⟨-, i, -, executed⟩
    · rw [Host.Outcome.next.inj (idle.symm.trans hstep)]
    · rw [← Host.Outcome.next.inj (fetch.symm.trans hstep), takeFault_sr]
    · rw [← Host.Outcome.next.inj (rejected.symm.trans hstep), takeFault_sr]
    · rcases exec_next.1 (executed.symm.trans hstep) with ⟨u, h, ok, rfl⟩ | ⟨_, -, rfl⟩
      · rw [advance_sr]
        exact execute_high ok fun stopped => notStopped (by rw [stopped, advance_run_some])
      · rw [takeFault_sr]
  exact ⟨high, systemByte_congr high⟩

theorem execute_host {i : Instr} {s u : State} {h : Option HaltCause} (he : execute s i = .ok (u, h))
    (hi : i ≠ .trap15) : u.host = s.host := by
  rcases execute_cases he with ⟨written, -⟩ | ⟨trap, -⟩ | ⟨k, -, halt⟩
  · exact written.host
  · exact absurd trap hi
  · obtain ⟨-, -, rfl, -⟩ := stop_ok.1 halt
    rfl

/-- Settles O59, by the two ends of a cycle: a fault changes RUN alone; an execute phase keeps RUN, which its halt request
may then change. -/
theorem frameHostPortAndRun : Obligations.FrameHostPortAndRun := by
  intro i s t h
  rcases exec_next.1 h with ⟨u, halt, executed, rfl⟩ | ⟨c, -, rfl⟩
  · obtain ⟨params, run, -⟩ := execute_kept executed
    refine ⟨fun hi => by rw [advance_host, execute_host executed hi], by rw [advance_params, params], ?_⟩
    cases halt with
    | none => exact .inl (by rw [advance_run_none, run])
    | some c =>
      rcases execute_halt executed with ⟨rfl, stopped, -⟩ | ⟨rfl, trap, -⟩
      · exact .inr (.inr (.inr ⟨rfl, stopped⟩))
      · exact .inr (.inr (.inl ⟨rfl, trap⟩))
  · exact ⟨fun _ => rfl, rfl, .inr (.inl ⟨_, rfl⟩)⟩

/-! ### The cycles that never end, 46_trap_stop.md R352, R356 -/

/-- The request of an input service that is never answered, or a text without an end. -/
theorem service_stuck {svc : TrapService} {s : State} {w : Fault} (h : service svc s = .error (.stuck w)) :
    (svc = .inNumber ∧ w = .hostNeverAnswers .inNumber ∧ s.host.askNumber = none) ∨
    (svc = .inChar ∧ w = .hostNeverAnswers .inChar ∧ s.host.askChar = none) ∨
    (svc = .inPending ∧ w = .hostNeverAnswers .pending ∧ s.host.askPending = none) ∨
    (∃ crlf, svc = .outTerminated crlf ∧ w = .stringNeverEnds ∧
      readTerminated s (s.areg 1) 4294967296 = .error (.stuck .stringNeverEnds)) := by
  have body {r : Except Stop State} (hr : plain r = .error (.stuck w)) : r = .error (.stuck w) := plain_error.1 hr
  have noAccess : ¬ ∃ a sz, s.checkAccess a sz = .error (.stuck w) := by
    rintro ⟨a, sz, access⟩
    cases checkAccess_error_eq access
  cases svc <;> simp only [service, reduceCtorEq] at h
  case outCounted crlf =>
    have h := body h
    simp only [serviceOutCounted, bind_eq_error, pure, Except.pure, reduceCtorEq, and_false, exists_false, or_false] at h
    exact absurd (readCounted_error _ _ h) noAccess
  case outTerminated crlf =>
    have h := body h
    simp only [serviceOutTerminated, bind_eq_error, pure, Except.pure, reduceCtorEq, and_false, exists_false,
      or_false] at h
    rcases readTerminated_error _ _ h with access | endless
    · exact absurd access noAccess
    · obtain rfl := Stop.stuck.inj endless
      exact .inr (.inr (.inr ⟨crlf, rfl, rfl, h⟩))
  case inNumber =>
    have h := body h
    cases answer : s.host.askNumber with
    | some _ => simp [serviceInNumber, answer] at h
    | none => exact .inl ⟨rfl, by simpa [serviceInNumber, answer, eq_comm] using h, rfl⟩
  case inChar =>
    have h := body h
    cases answer : s.host.askChar with
    | some _ => simp [serviceInChar, answer] at h
    | none => exact .inr (.inl ⟨rfl, by simpa [serviceInChar, answer, eq_comm] using h, rfl⟩)
  case inPending =>
    have h := body h
    cases answer : s.host.askPending with
    | some _ => simp [serviceInPending, answer] at h
    | none => exact .inr (.inr (.inl ⟨rfl, by simpa [serviceInPending, answer, eq_comm] using h, rfl⟩))

theorem trap15_stuck {s : State} {w : Fault} (h : trap15 s = .error (.stuck w)) :
    ∃ svc, s.params.trap15Tasks.lookup ((s.dreg 0).extractLsb' 0 8) = some svc ∧ service svc s = .error (.stuck w) := by
  cases task : s.params.trap15Tasks.lookup ((s.dreg 0).extractLsb' 0 8) with
  | none => simp [trap15_of_lookup_none task] at h
  | some svc => exact ⟨svc, rfl, (trap15_of_lookup_some task).symm.trans h⟩

/-- The scan that gives up has read every address. -/
theorem byteAt_ne_zero_of_readTerminated_stuck {s : State} {a : Long}
    (h : readTerminated s a 4294967296 = .error (.stuck .stringNeverEnds)) (b : Long) : s.byteAt b ≠ 0 := by
  have read := readTerminated_stuck s 4294967296 a h (b - a).toNat (b - a).isLt
  rwa [BitVec.ofNat_toNat, BitVec.setWidth_eq, add_sub_cancel] at read

/-- Settles O12: no cycle is refused; one without a next state has a stuck execute phase, which only a service of TRAP #15
can be. -/
theorem onlyTrapInputBlocks : Obligations.OnlyTrapInputBlocks := by
  refine ⟨fun s r refused => ?_, fun s w fault => ?_⟩
  · rcases step_cases s with ⟨-, next⟩ | ⟨-, -, next⟩ | ⟨-, _, next⟩ | ⟨-, i, -, executed⟩
    iterate 3 cases next.symm.trans refused
    exact endCycle_ne_refused _ _ _ r ((exec_eq i s).symm.trans (executed.symm.trans refused))
  · rcases step_cases s with ⟨-, next⟩ | ⟨-, -, next⟩ | ⟨-, _, next⟩ | ⟨-, i, word, executed⟩
    iterate 3 cases next.symm.trans fault
    have stuck := endCycle_fault.1 ((exec_eq i s).symm.trans (executed.symm.trans fault))
    rcases execute_error stuck with ⟨_, _, access⟩ | illegal | ⟨privilege, -⟩ | ⟨-, -, rfl⟩
    · cases checkAccess_error_eq access
    · cases illegal
    · cases privilege
    · obtain ⟨svc, task, service⟩ := trap15_stuck stuck
      refine ⟨word.symm, ?_⟩
      rcases service_stuck service with ⟨rfl, rfl, none⟩ | ⟨rfl, rfl, none⟩ | ⟨rfl, rfl, none⟩ | ⟨crlf, rfl, rfl, endless⟩
      · exact .inl ⟨task, rfl, askNumber_none.1 none⟩
      · exact .inr (.inl ⟨task, rfl, askChar_none.1 none⟩)
      · exact .inr (.inr (.inl ⟨task, rfl, askPending_none.1 none⟩))
      · exact .inr (.inr (.inr ⟨crlf, task, rfl, byteAt_ne_zero_of_readTerminated_stuck endless⟩))

end Sys2Proof.Machine
end

section
/-! PROOFS about memory, its port and the loader, 20_memory.md R72-R78, 70_reset_and_hazards.md R420. -/

namespace Sys2Proof.Machine

/-! ### The access checks, 20_memory.md R75, R78 -/

/-- Settles O23: reads and writes make the same check, whose three branches are the three cases. -/
theorem accessChecks : Obligations.AccessChecks := by
  intro s a v sz
  refine ⟨fun odd => ?_, fun even outside => ?_, fun fits => ⟨⟨_, memRead_of_fits fits⟩, _, memWrite_of_fits fits v⟩⟩
  · have check : s.checkAccess a sz = .error (.raise (.addressError a sz)) := by rw [State.checkAccess, if_pos odd]
    exact ⟨memRead_error.2 check, memWrite_error.2 check⟩
  · have check : s.checkAccess a sz = .error (.raise (.outOfBounds a sz)) := by
      rw [State.checkAccess, if_neg even, if_pos outside]
    exact ⟨memRead_error.2 check, memWrite_error.2 check⟩

/-! ### Reading what was written, 20_memory.md R72, R73 -/

theorem atWidth_byte (v : Long) : atWidth .b v = (v.extractLsb' 0 8).setWidth 32 := by
  apply BitVec.eq_of_toNat_eq
  have masked := Nat.and_two_pow_sub_one_eq_mod v.toNat 8
  simp only [atWidth, Size.mask, BitVec.toNat_and, BitVec.toNat_setWidth, BitVec.extractLsb'_toNat]
  refine masked.trans ?_
  omega

theorem atWidth_word (v : Long) : atWidth .w v = (v.extractLsb' 0 16).setWidth 32 := by
  apply BitVec.eq_of_toNat_eq
  have masked := Nat.and_two_pow_sub_one_eq_mod v.toNat 16
  simp only [atWidth, Size.mask, BitVec.toNat_and, BitVec.toNat_setWidth, BitVec.extractLsb'_toNat]
  refine masked.trans ?_
  omega

@[simp] theorem atWidth_long (v : Long) : atWidth .l v = v := BitVec.and_allOnes

/-- The four bytes of a stored long. -/
theorem bytes_of_stored_long {s t : State} {a v : Long} (h : Stored s t a .l v) :
    t.byteAt a = v.extractLsb' 24 8 ∧ t.byteAt (a + 1) = v.extractLsb' 16 8 ∧
      t.byteAt (a + 2) = v.extractLsb' 8 8 ∧ t.byteAt (a + 3) = v.extractLsb' 0 8 := by
  obtain ⟨bytes, -⟩ := h
  exact ⟨addr_zero a ▸ bytes 0 (by decide), bytes 1 (by decide), bytes 2 (by decide), bytes 3 (by decide)⟩

/-- A load of the bytes a store left gives its value at its width. -/
theorem load_of_stored {s t : State} {a v : Long} {sz : Size} (h : Stored s t a sz v) : t.load a sz = atWidth sz v := by
  cases sz with
  | b =>
    obtain ⟨bytes, -⟩ := h
    have byte : t.byteAt a = v.extractLsb' 0 8 := addr_zero a ▸ bytes 0 (by decide)
    rw [State.load, byte, atWidth_byte]; rfl
  | w => rw [load_word_of_stored h, atWidth_word]; rfl
  | l =>
    obtain ⟨b0, b1, b2, b3⟩ := bytes_of_stored_long h
    simp only [State.load, b0, b1, b2, b3, atWidth_long]
    rw [BitVec.extractLsb'_append_extractLsb'_eq_extractLsb' (by rfl),
      BitVec.extractLsb'_append_extractLsb'_eq_extractLsb' (by rfl),
      BitVec.extractLsb'_append_extractLsb'_eq_extractLsb' (by rfl), BitVec.extractLsb'_eq_self]

/-- Settles O24: the bytes that a store leaves are loaded again, two neighbours as one word. -/
theorem readAfterWrite : Obligations.ReadAfterWrite := by
  refine ⟨fun s t a v sz hm hwrite => ?_, fun s a v hm => ?_⟩
  · obtain ⟨fits, rfl⟩ := memWrite_ok.1 hwrite
    exact memRead_ok.2 ⟨(fits_congr (by simp) a sz).2 fits, (load_of_stored (store_stored hm a sz v)).symm⟩
  · obtain ⟨b0, b1, b2, b3⟩ := bytes_of_stored_long (store_stored hm a .l v)
    have next1 : a + 1 + 1 = a + 2 := by rw [BitVec.add_assoc]; rfl
    have next2 : a + 2 + 1 = a + 3 := by rw [BitVec.add_assoc]; rfl
    simp only [State.load, next1, next2, b0, b1, b2, b3, zextByte, zextWord, and_true]
    refine ⟨?_, ?_, ?_⟩
    all_goals rw [BitVec.extractLsb'_append_extractLsb'_eq_extractLsb' (by rfl)]

/-! ### The loader, 70_reset_and_hazards.md R420 -/

/-- Memory after the bytes of an image are written in order. -/
def Memory.writeImage (m : Memory) (image : List (Nat × Byte)) : Memory :=
  image.foldl (fun m c => m.write c.1 c.2) m

theorem hostLoad_eq_some {image : List (Nat × Byte)} (entry : Long) : ∀ s : State, (∀ c ∈ image, c.1 < s.params.memSize) →
    hostLoad s image entry = some { s with mem := s.mem.writeImage image, pc := entry } := by
  induction image with
  | nil => intro s _; rfl
  | cons c rest ih =>
    intro s h
    obtain ⟨inside, others⟩ := List.forall_mem_cons.1 h
    rw [hostLoad, if_pos inside]
    exact ih _ others

theorem hostLoad_eq_none {image : List (Nat × Byte)} (entry : Long) : ∀ s : State, (∃ c ∈ image, s.params.memSize ≤ c.1) →
    hostLoad s image entry = none := by
  induction image with
  | nil => rintro s ⟨c, hc, -⟩; cases hc
  | cons c rest ih =>
    intro s h
    rw [hostLoad]
    split
    · next inside =>
      refine ih _ ?_
      rcases (List.exists_mem_cons_iff _ _ _).1 h with outside | outside
      · exact absurd inside (Nat.not_lt_of_le outside)
      · exact outside
    · rfl

/-- The last byte that an image gives for an address stays. -/
theorem Memory.read_writeImage {image : List (Nat × Byte)} (x : Nat) : ∀ {m : Memory}, m.wf →
    (m.writeImage image).read x = (image.reverse.lookup x).getD (m.read x) := by
  induction image with
  | nil => intro m _; rfl
  | cons c rest ih =>
    intro m hm
    obtain ⟨a, v⟩ := c
    have tail : ((m.write a v).writeImage rest).read x = (rest.reverse.lookup x).getD ((m.write a v).read x) :=
      ih (Memory.write_wf hm a v)
    refine tail.trans ?_
    rw [Memory.read_write hm, List.reverse_cons, List.lookup_append]
    cases rest.reverse.lookup x with
    | some b => rfl
    | none =>
      by_cases hx : x = a
      · simp [List.lookup, hx]
      · rw [if_neg hx, List.lookup, beq_eq_false_iff_ne.2 hx]; rfl

/-- Settles O22: an image inside memory is written byte by byte; any other fails at its first byte outside. -/
theorem loaderFillsMemory : Obligations.LoaderFillsMemory := by
  intro s image entry hm
  refine ⟨hostLoad_eq_none entry s, fun inside => ⟨_, hostLoad_eq_some entry s inside, ?_⟩⟩
  exact ⟨rfl, rfl, rfl, rfl, rfl, rfl, rfl, fun x => Memory.read_writeImage x hm⟩

end Sys2Proof.Machine
end

section
/-! PROOFS about the condition codes, 42_alu.md R222-R240. -/

namespace Sys2Proof.Machine

/-! ### The carry of an addition, 42_alu.md R226, 90_conflicts.md C1 -/

theorem toNat_atWidth (sz : Size) (v : Long) : (atWidth sz v).toNat = (v.setWidth sz.bits).toNat := by
  cases sz with
  | b => rw [atWidth_byte]; simp [Size.bits, BitVec.extractLsb'_toNat]; omega
  | w => rw [atWidth_word]; simp [Size.bits, BitVec.extractLsb'_toNat]; omega
  | l => rw [atWidth_long]; simp [Size.bits]

/-- The source's carry rule against a carry out of the top bit, at any width. -/
theorem add_carry_rules {n : Nat} (hn : 0 < n) (a b : BitVec n) :
    ((b.msb && !(a + b).msb) = true → 2 ^ n ≤ a.toNat + b.toNat) ∧
      (2 ^ n ≤ a.toNat + b.toNat ∧ (b.msb && !(a + b).msb) = false ↔ a.msb = true ∧ b.msb = (a + b).msb) := by
  have ha := a.isLt
  have hb := b.isLt
  have half : 2 ^ n = 2 * 2 ^ (n - 1) := by rw [← Nat.pow_succ']; congr 1; omega
  have sum : (2 ^ n ≤ a.toNat + b.toNat ∧ (a + b).toNat = a.toNat + b.toNat - 2 ^ n) ∨
      (a.toNat + b.toNat < 2 ^ n ∧ (a + b).toNat = a.toNat + b.toNat) := by
    rw [BitVec.toNat_add]
    by_cases carry : 2 ^ n ≤ a.toNat + b.toNat
    · exact .inl ⟨carry, by rw [Nat.mod_eq_sub_mod carry, Nat.mod_eq_of_lt (by omega)]⟩
    · exact .inr ⟨by omega, Nat.mod_eq_of_lt (by omega)⟩
  simp only [BitVec.msb_eq_decide, Bool.and_eq_true, Bool.and_eq_false_iff, Bool.not_eq_true', Bool.not_eq_false',
    decide_eq_true_eq, decide_eq_false_iff_not, decide_eq_decide]
  omega

/-- Settles O26: at the width, a carry out and the three sign bits are comparisons of naturals with 2^n and 2^(n-1). -/
theorem addCarryAgainstTheTrueCarry : Obligations.AddCarryAgainstTheTrueCarry := by
  intro sz src dst
  have carry : (addOp sz src dst).2.c =
      ((dst.setWidth sz.bits).msb && !(src.setWidth sz.bits + dst.setWidth sz.bits).msb) := by
    simp only [addOp, msbAt_atWidth]
    simp only [msbAt_eq, setWidth_add]
  rw [carry, toNat_atWidth, toNat_atWidth, msbAt_eq, msbAt_eq, msbAt_eq, setWidth_add]
  exact add_carry_rules (by cases sz <;> decide) _ _

/-! ### The predicates, 42_alu.md R240 -/

/-- Settles O28: the predicates are the rows of the table over the flags, for each of their sixteen values. -/
theorem conditionTable : Obligations.ConditionTable := by
  intro s
  simp [condHolds, State.flagC, State.flagV, State.flagZ, State.flagN]

/-- The sign of a difference, corrected by signed overflow, is the signed comparison. -/
theorem sub_sign_rule {n : Nat} (hn : 0 < n) (a b : BitVec n) :
    ((b - a).msb != decide ((b - a).toInt ≠ b.toInt - a.toInt)) = decide (b.toInt < a.toInt) := by
  have half : 2 ^ n = 2 * 2 ^ (n - 1) := by rw [← Nat.pow_succ']; congr 1; omega
  have ha := a.isLt
  have hb := b.isLt
  have difference : (b.toNat < a.toNat ∧ (b - a).toNat = 2 ^ n - a.toNat + b.toNat) ∨
      (a.toNat ≤ b.toNat ∧ (b - a).toNat = b.toNat - a.toNat) := by
    rw [BitVec.toNat_sub]
    by_cases borrow : b.toNat < a.toNat
    · exact .inl ⟨borrow, Nat.mod_eq_of_lt (by omega)⟩
    · refine .inr ⟨by omega, ?_⟩
      rw [show 2 ^ n - a.toNat + b.toNat = (b.toNat - a.toNat) + 2 ^ n by omega, Nat.add_mod_right,
        Nat.mod_eq_of_lt (by omega)]
  rw [Bool.eq_iff_iff]
  simp only [BitVec.msb_eq_decide, BitVec.toInt_eq_toNat_cond, bne_iff_ne, ne_eq, decide_eq_decide, decide_eq_true_eq]
  generalize (b - a).toNat = z at *
  generalize a.toNat = x at *
  generalize b.toNat = y at *
  generalize 2 ^ (n - 1) = p at *
  generalize 2 ^ n = q at *
  split <;> split <;> split <;> omega

/-- Settles O27: C is the unsigned comparison, Z equality, and N corrected by V the signed comparison. -/
theorem conditionsAfterCompare : Obligations.ConditionsAfterCompare := by
  intro s t sz src dst flags
  obtain ⟨-, hn, hz, hv, hc⟩ := flags
  have sign := sub_sign_rule (by cases sz <;> decide) (src.setWidth sz.bits) (dst.setWidth sz.bits)
  rw [← hn, ← hv] at sign
  have noSign : (t.flagN == t.flagV) = !(t.flagN != t.flagV) := by simp [bne]
  have eqNat := BitVec.toNat_inj (x := dst.setWidth sz.bits) (y := src.setWidth sz.bits)
  have eqInt := BitVec.toInt_inj (x := dst.setWidth sz.bits) (y := src.setWidth sz.bits)
  generalize src.setWidth sz.bits = a at *
  generalize dst.setWidth sz.bits = b at *
  simp only [condHolds, noSign, sign, hc, hz, Bool.beq_eq_decide_eq, ← decide_not, ← Bool.decide_and, ← Bool.decide_or,
    decide_eq_decide, eq_comm (a := a)]
  refine ⟨?hi, ?ls, ?cc, ?cs, ?eq, ?ne, ?ge, ?lt, ?gt, ?le⟩
  case hi | ls => rw [← eqNat]; omega
  case gt | le => rw [← eqInt]; omega
  case cc => exact Nat.not_lt
  case ge => exact Int.not_lt
  case ne => exact not_congr eq_comm
  case cs | eq | lt => trivial

end Sys2Proof.Machine
end

section
/-! PROOFS of the results of the data instructions: ADD, ADDA, ADDI, ADDQ, CMP, CMPA, CLR, MOVE and MOVEA,
43_arithmetic.md R260-R295, 44_move.md R300-R305. -/

namespace Sys2Proof.Machine

/-! ### The families by width, 30_encoding.md R118 -/

section
variable (s : State) (sz : Size) (long : Bool) (src dst : EA) (r : Reg)

theorem execute_addEaDnOf : execute s (addEaDnOf sz src r) = plain (addEaDn sz src r s) := by cases sz <;> rfl
theorem execute_addDnEaOf : execute s (addDnEaOf sz r dst) = plain (addDnEa sz r dst s) := by cases sz <;> rfl
theorem execute_addqOf (q : BitVec 3) : execute s (addqOf sz q dst) = plain (addq sz q dst s) := by cases sz <;> rfl
theorem execute_cmpOf : execute s (cmpOf sz src r) = plain (cmp sz src r s) := by cases sz <;> rfl
theorem execute_clrOf : execute s (clrOf sz dst) = plain (clr sz dst s) := by cases sz <;> rfl
theorem execute_moveOf : execute s (moveOf sz src dst) = plain (move sz src dst s) := by cases sz <;> rfl
theorem execute_addaOf : execute s (addaOf long src r) = plain (adda (addrSize long) src r s) := by cases long <;> rfl
theorem execute_cmpaOf : execute s (cmpaOf long src r) = plain (cmpa (addrSize long) src r s) := by cases long <;> rfl
theorem execute_moveaOf : execute s (moveaOf long src r) = plain (movea (addrSize long) src r s) := by cases long <;> rfl

/-- ADDI of a long acts on its low bits, which the instruction holds. -/
theorem execute_addiOf (imm : Long) : ∃ v : Long, v.setWidth sz.bits = imm.setWidth sz.bits ∧
    execute s (addiOf sz imm dst) = plain (addi sz v dst s) := by
  cases sz with
  | b => exact ⟨zextByte (imm.setWidth 8), by simp [zextByte, Size.bits], rfl⟩
  | w => exact ⟨zextWord (imm.setWidth 16), by simp [zextWord, Size.bits], rfl⟩
  | l => exact ⟨imm, rfl, rfl⟩

variable {s sz long src dst r}

theorem legal_of_addEaDnOf (h : WellFormed (addEaDnOf sz src r) = true) : src.legal (srcSet sz) sz = true := by
  cases sz <;> exact h
theorem legal_of_cmpOf (h : WellFormed (cmpOf sz src r) = true) : src.legal (srcSet sz) sz = true := by
  cases sz <;> exact h
theorem legal_of_addaOf (h : WellFormed (addaOf long src r) = true) : src.legal .all (addrSize long) = true := by
  cases long <;> exact h
theorem legal_of_cmpaOf (h : WellFormed (cmpaOf long src r) = true) : src.legal .all (addrSize long) = true := by
  cases long <;> exact h
theorem legal_of_moveaOf (h : WellFormed (moveaOf long src r) = true) : src.legal .all (addrSize long) = true := by
  cases long <;> exact h

theorem dataAlt_of_addDnEaOf (h : WellFormed (addDnEaOf sz r dst) = true) : dst.isIn .dataAlt = true := by
  cases sz <;> exact memAlt_dataAlt (legal_iff.1 h).1
theorem dataAlt_of_addiOf {imm : Long} (h : WellFormed (addiOf sz imm dst) = true) : dst.isIn .dataAlt = true := by
  cases sz <;> exact (legal_iff.1 h).1
theorem dataAlt_of_clrOf (h : WellFormed (clrOf sz dst) = true) : dst.isIn .dataAlt = true := by
  cases sz <;> exact (legal_iff.1 h).1

theorem dataAlt_of_alterable (h : dst.isIn .alterable = true) (hd : ∀ q, dst ≠ .an q) : dst.isIn .dataAlt = true := by
  cases dst with
  | an q => exact absurd rfl (hd q)
  | _ => simp_all [EA.isIn]

theorem dataAlt_of_addqOf {q : BitVec 3} (h : WellFormed (addqOf sz q dst) = true) (hd : ∀ q, dst ≠ .an q) :
    dst.isIn .dataAlt = true := by
  cases sz with
  | b => exact (legal_iff.1 h).1
  | w | l => exact dataAlt_of_alterable (legal_iff.1 h).1 hd

theorem legal_of_moveOf (h : WellFormed (moveOf sz src dst) = true) :
    src.legal (srcSet sz) sz = true ∧ dst.isIn .dataAlt = true := by
  cases sz <;> exact ⟨(Bool.and_eq_true_iff.1 h).1, (legal_iff.1 (Bool.and_eq_true_iff.1 h).2).1⟩

end

/-! ### What the flags and the destination depend on: the operands at the width, 00_scope.md R12 -/

theorem AddFlagsAre.congr {t : State} {sz : Size} {a b a' b' : Long} (h : AddFlagsAre t sz a b)
    (ha : a.setWidth sz.bits = a'.setWidth sz.bits) (hb : b.setWidth sz.bits = b'.setWidth sz.bits) :
    AddFlagsAre t sz a' b' := by
  simpa only [AddFlagsAre, ha, hb] using h

theorem CmpFlagsAre.congr {s t : State} {sz : Size} {a b b' : Long} (h : CmpFlagsAre s t sz a b)
    (hb : b.setWidth sz.bits = b'.setWidth sz.bits) : CmpFlagsAre s t sz a b' := by
  simpa only [CmpFlagsAre, hb] using h

theorem DWritten.mono {s s' t : State} {r : Reg} {sz : Size} {v : Long} (h : DWritten s t r sz v)
    (hs : ∀ q, s'.dreg q = s.dreg q) : DWritten s' t r sz v := by
  simpa only [DWritten, hs] using h

theorem DestWritten.advance {s u t : State} {dst : EA} {sz : Size} {v : Long} (h : DestWritten s u t sz dst v) :
    DestWritten s u (t.advance none) sz dst v :=
  h.mono rfl (fun _ => rfl) rfl rfl fun _ => rfl

theorem flagsAre_setFlags (s : State) (f : Flags) :
    FlagsAre ((s.setFlags f).advance none) (f.x.getD s.flagX) f.n f.z f.v f.c := by
  simp [FlagsAre]

theorem OperandWritten.restSame {s u : State} (h : OperandWritten s u) : RestSame s (u.advance none) :=
  ⟨h.kept.2.1, h.kept.1, h.host⟩

/-- The source of an address-register instruction, sign-extended from a word, 10_state.md R33. -/
theorem addrSource_eaValue (s : State) (long : Bool) (src : EA) :
    addrSource (addrSize long) (eaValue s (addrSize long) src) =
      if long then eaValue s .l src else ((eaValue s .w src).setWidth 16).signExtend 32 := by
  cases long with
  | true => rfl
  | false => exact congrArg sextWord (BitVec.setWidth_eq_extractLsb' (by decide)).symm

/-! ### The instructions that read a source, 43_arithmetic.md R261, R266, R280, R290, 44_move.md R305 -/

/-- Settles O29: the source is read, and its sum with Dn is written to Dn and the flags. -/
theorem addToDataRegister : Obligations.AddToDataRegister := by
  intro sz src dn s hw he hf
  have body := (addEaDn_ok (dn := dn)).2 ⟨_, fetchOperand_legal (legal_of_addEaDnOf hw) he hf, rfl⟩
  have written := writeD_written (afterEA s sz src) dn sz (addOp sz (eaValue s sz src) (atWidth sz (s.dreg dn))).1
  have sum : ((addOp sz (eaValue s sz src) (atWidth sz (s.dreg dn))).1).setWidth sz.bits =
      (eaValue s sz src + s.dreg dn).setWidth sz.bits := by
    rw [addOp_sum, setWidth_atWidth, setWidth_add]
  refine ⟨_, exec_plain (execute_addEaDnOf s sz src dn) body, ?dn, ?flags, (add_written body).high, afterEA_a s sz src,
    afterEA_byteAt s sz src, pcPast_of rfl, (add_written body).restSame⟩
  case dn => exact (written.congr sum).mono fun q => (afterEA_dreg s sz src q).symm
  case flags => exact (addFlagsAre_of rfl).congr rfl (setWidth_atWidth sz _)

/-- Settles O31: the value is added to An as the source's step leaves it; SR is not touched. -/
theorem addToAddressRegister : Obligations.AddToAddressRegister := by
  intro long src an s hw he hf
  have body := (adda_ok (an := an)).2 ⟨_, fetchOperand_legal (legal_of_addaOf hw) he hf, rfl⟩
  refine ⟨_, exec_plain (execute_addaOf s long src an) body, ?an, afterEA_sr s _ src, afterEA_d s _ src,
    afterEA_byteAt s _ src, pcPast_of rfl, (adda_written body).restSame⟩
  rw [← addrSource_eaValue]
  exact writeA_written (afterEA s (addrSize long) src) an _

/-- Settles O39: the value replaces An after the source's step; SR is not touched. -/
theorem moveToAddressRegister : Obligations.MoveToAddressRegister := by
  intro long src an s hw he hf
  have body := (movea_ok (an := an)).2 ⟨_, fetchOperand_legal (legal_of_moveaOf hw) he hf, rfl⟩
  refine ⟨_, exec_plain (execute_moveaOf s long src an) body, ?an, afterEA_sr s _ src, afterEA_d s _ src,
    afterEA_byteAt s _ src, pcPast_of rfl, (movea_written body).restSame⟩
  rw [← addrSource_eaValue]
  exact writeA_written (afterEA s (addrSize long) src) an _

/-- Settles O35: after the source is read only the flags are written. -/
theorem compareSetsFlagsOnly : Obligations.CompareSetsFlagsOnly := by
  intro sz src dn s hw he hf
  have body := (cmp_ok (dn := dn)).2 ⟨_, fetchOperand_legal (legal_of_cmpOf hw) he hf, rfl⟩
  refine ⟨_, exec_plain (execute_cmpOf s sz src dn) body, ?flags, (cmp_written body).high, afterEA_d s sz src,
    afterEA_a s sz src, afterEA_byteAt s sz src, pcPast_of rfl, (cmp_written body).restSame⟩
  exact (cmpFlagsAre_of rfl (afterEA_flagX s sz src)).congr (setWidth_atWidth sz _)

/-- Settles O36: as CMP, at 32 bits against An after the source's step. -/
theorem compareAddressSetsFlagsOnly : Obligations.CompareAddressSetsFlagsOnly := by
  intro long src an s hw he hf
  have body := (cmpa_ok (an := an)).2 ⟨_, fetchOperand_legal (legal_of_cmpaOf hw) he hf, rfl⟩
  refine ⟨_, exec_plain (execute_cmpaOf s long src an) body, ?flags, (cmpa_written body).high, afterEA_d s _ src,
    afterEA_a s _ src, afterEA_byteAt s _ src, pcPast_of rfl, (cmpa_written body).restSame⟩
  rw [← addrSource_eaValue]
  exact cmpFlagsAre_of rfl (afterEA_flagX s _ src)

/-! ### The read-modify-write, 43_arithmetic.md R262, R270, R275 -/

theorem add_words (p : Long) (m n : Nat) :
    p + BitVec.ofNat 32 (2 * m) + BitVec.ofNat 32 (2 * n) = p + BitVec.ofNat 32 (2 * (m + n)) := by
  rw [BitVec.add_assoc, ← BitVec.ofNat_add, Nat.mul_add]

/-- The cycle of an instruction whose execute phase is the read-modify-write of a destination, once PC stands past the
`n` words before the destination's own. -/
theorem exec_addToOperand {i : Instr} {s : State} {sz : Size} {src : State → Long} {dst : EA} {v : Long} {n : Nat}
    {body : Except Stop State} (hi : execute s i = plain body)
    (hbody : ∀ u, addToOperand sz src dst (s.setPc (s.pc + BitVec.ofNat 32 (2 * n))) = .ok u → body = .ok u)
    (hv : ∀ t : State, t.d = s.d → (src t).setWidth sz.bits = v.setWidth sz.bits) (hdst : dst.isIn .dataAlt = true)
    (hm : s.mem.wf) (he : ExtFits s (n + dst.words sz)) (hf : EaFits s sz dst) :
    ∃ t, exec i s = .next t ∧ DestWritten s s t sz dst (v + eaValue s sz dst) ∧
      AddFlagsAre t sz v (eaValue s sz dst) ∧ SrHighSame s t ∧ t.a = (stepEA s sz dst).a ∧
      PcPast s t (1 + n + dst.words sz) ∧ RestSame s t := by
  obtain ⟨-, words⟩ := (extFits_add s n _).1 he
  have fits : EaFits (s.setPc (s.pc + BitVec.ofNat 32 (2 * n))) sz dst := by
    rw [EaFits, eaAddr_setPc hdst]; exact hf
  obtain ⟨u, hok, hd, flags, ha, hpc, written⟩ := addToOperand_result (src := src)
    (s := s.setPc (s.pc + BitVec.ofNat 32 (2 * n))) hdst hm words fits
  rw [eaValue_setPc hdst] at hd flags
  have low := hv (afterEA (s.setPc (s.pc + BitVec.ofNat 32 (2 * n))) sz dst) (by simp)
  refine ⟨_, exec_plain hi (hbody u hok), ?dest, flags.congr low rfl, written.high, ?a, ?pc, written.restSame⟩
  case dest =>
    have sum := hd.mono (s' := s) (u' := s) rfl (fun _ => rfl) (eaAddr_setPc hdst s sz .data _).symm rfl fun _ => rfl
    exact (sum.congr (by rw [setWidth_add, setWidth_add, low])).advance
  case a => rw [advance_a, ha, stepEA_setPc, setPc_a]
  case pc =>
    rw [Nat.add_assoc]
    refine pcPast_of (hpc.trans ?_)
    rw [setPc_pc, add_words]

theorem setPc_add_no_words (s : State) : s.setPc (s.pc + BitVec.ofNat 32 (2 * 0)) = s := setPc_zero s s rfl

/-- Settles O30: the source is Dn, which the destination's step does not change. -/
theorem addToMemory : Obligations.AddToMemory := by
  intro sz dn dst s hw hm he hf
  refine exec_addToOperand (n := 0) (src := fun t => atWidth sz (t.dreg dn)) (execute_addDnEaOf s sz dst dn) (fun u hu => ?_)
    (fun t ht => ?_) (dataAlt_of_addDnEaOf hw) hm (by rwa [Nat.zero_add]) hf
  · rwa [setPc_add_no_words] at hu
  · rw [setWidth_atWidth, State.dreg, State.dreg, ht]

/-- Settles O32: the immediate's words are consumed before the destination is resolved. -/
theorem addImmediate : Obligations.AddImmediate := by
  intro sz imm dst s hw hm he hf
  obtain ⟨v, low, hi⟩ := execute_addiOf s sz dst imm
  obtain ⟨immFits, -⟩ := (extFits_add s _ _).1 he
  exact exec_addToOperand (src := fun _ => v) hi (fun u hu => addi_ok.2 ⟨immFits, hu⟩) (fun _ _ => low)
    (dataAlt_of_addiOf hw) hm he hf

/-- Settles O33: the value of the data field is the source. -/
theorem addQuick : Obligations.AddQuick := by
  intro sz q dst s hw notAn hm he hf
  refine exec_addToOperand (n := 0) (src := fun _ => quickValue q) (execute_addqOf s sz dst q) (fun u hu => ?_)
    (fun _ _ => rfl) (dataAlt_of_addqOf hw notAn) hm (by rwa [Nat.zero_add]) hf
  rwa [addq_eq notAn, ← setPc_add_no_words s]

/-- Settles O34: An is no operand in memory, so that nothing can fail. -/
theorem addQuickToAddressRegister : Obligations.AddQuickToAddressRegister := by
  intro long q r s
  have body : addq (addrSize long) q (.an r) s = .ok (s.writeA r .l (quickValue q + s.areg r)) := rfl
  refine ⟨_, exec_plain (execute_addqOf s _ _ q) body, ?an, rfl, rfl, fun _ => rfl, rfl, rfl, rfl, rfl⟩
  rw [BitVec.add_comm]
  exact writeA_written s r _

/-! ### CLR and MOVE, 43_arithmetic.md R295, 44_move.md R300 -/

/-- Settles O37: the zero is written without a read. -/
theorem clearWritesZero : Obligations.ClearWritesZero := by
  intro sz dst s hw hm he hf
  obtain ⟨w, hwrite, hd, ha⟩ := writeOp_dest (w := afterEA s sz dst) (dataAlt_of_clrOf hw) hf (by simp)
    (by simpa using hm) 0
  have body := clr_ok.2 ⟨he, w, hwrite, rfl⟩
  have flagX : w.flagX = s.flagX := by rw [State.flagX, writeOp_sr hwrite, afterEA_sr]; rfl
  refine ⟨_, exec_plain (execute_clrOf s sz dst) body, ?dest, ?flags, (clr_written body).high, ha.trans (afterEA_a s sz dst),
    pcPast_of (writeOp_pc hwrite), (clr_written body).restSame⟩
  case dest =>
    exact (hd.mono (s' := s) (u' := s) (by simp) (fun x => by simp) rfl rfl fun _ => rfl).advance
  case flags => exact flagX ▸ flagsAre_setFlags w clearFlags

/-- Settles O38: the source is read first; the destination is resolved in the state that its step leaves. -/
theorem moveCopiesTheSource : Obligations.MoveCopiesTheSource := by
  intro sz src dst s hw hm he hsrc hdst
  obtain ⟨legal, alterable⟩ := legal_of_moveOf hw
  obtain ⟨srcWords, dstWords⟩ := (extFits_add s _ _).1 he
  have source := fetchOperand_legal legal srcWords hsrc
  obtain ⟨w, hwrite, hd, ha⟩ := writeOp_dest (w := afterEA (afterEA s sz src) sz dst) alterable hdst (by simp)
    (by simpa using hm) (eaValue s sz src)
  rw [← eaLoc_setPc alterable] at hwrite
  have body := move_ok.2 ⟨_, source, (extFits_congr (by simp) (by simp) _).2 dstWords, w, hwrite, rfl⟩
  have flagX : w.flagX = s.flagX := by rw [State.flagX, writeOp_sr hwrite, afterEA_sr, afterEA_sr]; rfl
  refine ⟨_, exec_plain (execute_moveOf s sz src dst) body, ?dest, ?flags, (move_written body).high, ?a, ?pc,
    (move_written body).restSame⟩
  case dest =>
    exact (hd.mono (s' := s) (u' := stepEA s sz src) (by simp) (fun x => by simp) rfl rfl fun _ => rfl).advance
  case flags =>
    rw [← msbAt_eq, ← atWidth_beq_zero]
    exact flagX ▸ flagsAre_setFlags w (moveTest sz (eaValue s sz src))
  case a => rw [advance_a, setFlags_a, ha, afterEA_a, afterEA, stepEA_setPc, setPc_a]
  case pc =>
    rw [Nat.add_assoc]
    refine pcPast_of ((writeOp_pc hwrite).trans ?_)
    rw [afterEA_pc, afterEA_pc, add_words]

end Sys2Proof.Machine
end

section
/-! PROOFS about control flow and STOP, 45_control_flow.md R320-R340, 46_trap_stop.md R360, and about the access that is
the fault recorded, 60_exceptions.md R386, R397. -/

namespace Sys2Proof.Machine

/-! ### The transfers, 45_control_flow.md R325-R331 -/

theorem execute_branchOf (s : State) (d : Disp) {c : Cond} (hc : c ≠ .f) :
    execute s (branchOf c d) = plain (branch c d s) := by
  cases c with
  | f => exact absurd rfl hc
  | _ => rfl

theorem exec_branchOf {s : State} {d : Disp} {c : Cond} (hc : c ≠ .f) (he : ExtFits s d.words) :
    exec (branchOf c d) s = .next (s.setPc
      (if condHolds s c = true then s.pc + 2 + d.value else s.pc + BitVec.ofNat 32 (2 * (1 + d.words)))) := by
  refine (exec_plain (execute_branchOf s d hc) (branch_ok.2 ⟨he, rfl⟩)).trans ?_
  split
  · exact congrArg _ (advance_setTarget s _)
  · rw [← pc_past]; rfl

/-- Settles O41: the displacement word is consumed before the condition is looked at; BRA is the condition that holds. -/
theorem branchesSetPc : Obligations.BranchesSetPc :=
  fun _ _ he => ⟨exec_branchOf (c := .t) (by decide) he, fun _ _ hf => exec_branchOf hf he⟩

/-- A control form has an address, and resolving it steps no register. -/
theorem control_form {s : State} {ea : EA} (hc : ea.isIn .control = true) :
    stepEA s .l ea = s ∧ ∃ a, eaAddr s .l .jump ea = some a ∧ eaLoc s .l .jump ea = .mem a := by
  cases ea with
  | dn | an | postinc | predec | imm => simp [EA.isIn] at hc
  | _ => exact ⟨rfl, _, rfl, rfl⟩

theorem exec_jmp {s : State} {ea : EA} (hw : WellFormed (.jmp ea) = true) (he : ExtFits s (ea.words .l)) :
    ∃ a, eaAddr s .l .jump ea = some a ∧ exec (.jmp ea) s = .next (s.setPc a) := by
  obtain ⟨noStep, a, addr, loc⟩ := control_form (s := s) (legal_iff.1 hw).1
  refine ⟨a, addr, (exec_plain rfl (jump_ok.2 ⟨he, a, loc, rfl⟩)).trans ?_⟩
  rw [advance_setTarget, afterEA, noStep]
  rfl

/-- Settles O40: the address of a control form is PC itself after the jump, without an access. -/
theorem jumpSetsPc : Obligations.JumpSetsPc := by
  intro ea s hw he
  obtain ⟨a, addr, executed⟩ := exec_jmp hw he
  exact ⟨_, executed, addr, rfl⟩

/-- Settles O42: the state at the subroutine's entry has the pushed word at the stepped A7, and PC at the target. -/
theorem branchToSubroutine : Obligations.BranchToSubroutine := by
  intro d s hm he hfit
  exact ⟨_, exec_bsr he hfit, rfl, subroutineEntry_written s d, subroutineEntry_stored s d hm, subroutineEntry_d s d,
    subroutineEntry_sr s d, by simp [RestSame, subroutineEntry]⟩

/-- Settles O43: the state after the return has A7 stepped back, and PC at the popped word plus 2. -/
theorem returnFromSubroutine : Obligations.ReturnFromSubroutine := by
  intro s hfit
  exact ⟨_, exec_rts hfit, rfl, writeA_written s spNum _, rfl, rfl, fun _ => rfl, rfl, rfl, rfl⟩

/-! ### A target that cannot be fetched, 45_control_flow.md R321 -/

theorem fetchFaultsAt_pc {t : State} (hrun : t.run = .running) (hfit : ¬ Fits t t.pc .w) : FetchFaultsAt t t.pc :=
  ⟨rfl, step_of_not_fits hrun hfit⟩

/-- A transfer that completes in `t`, whose PC is no word of memory. -/
theorem transfer_faults {i : Instr} {s t : State} {a : Long} (h : exec i s = .next t) (hrun : t.run = .running)
    (hp : t.params = s.params) (ha : t.pc = a) (hfit : ¬ Fits s a .w) :
    ∃ t, exec i s = .next t ∧ t.run = .running ∧ FetchFaultsAt t a := by
  subst ha
  exact ⟨t, h, hrun, fetchFaultsAt_pc hrun fun fits => hfit ((fits_congr hp _ _).1 fits)⟩

/-- Settles O18: no transfer makes an access at its target, so that it completes, and the next fetch fails. -/
theorem transferOutOfMemoryFaultsAtTheTarget : Obligations.TransferOutOfMemoryFaultsAtTheTarget := by
  intro s hrun
  refine ⟨fun c d taken he hfit => ?branch, fun ea a hw he addr hfit => ?jump, fun d he push hfit => ?bsr,
    fun pop hfit => ?rts⟩
  case branch =>
    have hc : c ≠ .f := by
      rintro rfl
      cases taken
    exact transfer_faults (exec_branchOf hc he) hrun rfl (if_pos taken) hfit
  case jump =>
    obtain ⟨b, addr', executed⟩ := exec_jmp hw he
    obtain rfl := Option.some.inj (addr.symm.trans addr')
    exact transfer_faults executed hrun rfl rfl hfit
  case bsr =>
    exact transfer_faults (exec_bsr he push) ((subroutineEntry_run s d).trans hrun) (subroutineEntry_params s d) rfl hfit
  case rts => exact transfer_faults (exec_rts pop) hrun rfl rfl hfit

/-! ### STOP, 46_trap_stop.md R360 -/

/-- Settles O44: the execute phase writes SR and requests the halt. -/
theorem stopInSupervisorModeHalts : Obligations.StopInSupervisorModeHalts := by
  intro k s supervisor hfit
  refine ((exec_next (i := .stop k)).2 (.inl ⟨_, _, stop_ok.2 ⟨supervisor, hfit, rfl, rfl⟩, rfl⟩)).trans ?_
  have pc : s.pc + 2 + 2 = s.pc + 4 := by rw [BitVec.add_assoc]; rfl
  rw [← pc]; rfl

/-- Settles O45: the privilege check comes before the extension word is consumed. -/
theorem stopInUserModeFaults : Obligations.StopInUserModeFaults := by
  intro k s user
  have privilege : execute s (.stop k) = .error (.raise .privilegeViolation) := by
    rw [execute, stop, if_neg (by rw [State.supervisor, user]; decide)]
  exact exec_next.2 (.inr ⟨_, privilege, rfl⟩)

/-! ### The first failing access, 60_exceptions.md R386, R397 -/

theorem firstFailing_eq_none {s : State} {l : List Access} (h : ∀ x ∈ l, Fits s x.1 x.2) : firstFailing s l = none :=
  List.find?_eq_none.2 fun x hx => by rw [decide_eq_true_iff]; exact not_not_intro (h x hx)

theorem firstFailing_extAccesses {s : State} {m n : Nat} (h : ExtFits s (m + n)) :
    firstFailing s (extAccesses s m n) = none := by
  refine firstFailing_eq_none fun x hx => ?_
  obtain ⟨k, hk, rfl⟩ := List.mem_map.1 hx
  exact h k (List.mem_range'_1.1 hk).2

theorem firstFailing_eaAccess {s u : State} {sz : Size} {ea : EA} (h : ∀ a ∈ eaAddr u sz .data ea, Fits s a sz) :
    firstFailing s (eaAccess u sz ea) = none := by
  refine firstFailing_eq_none fun x hx => ?_
  obtain ⟨a, ha, rfl⟩ := Option.map_eq_some_iff.1 (Option.mem_toList.1 hx)
  exact h a ha

theorem firstFailing_eaAccess_of_not_fits {s u : State} {sz : Size} {ea : EA} {a : Long}
    (ha : eaAddr u sz .data ea = some a) (h : ¬ Fits s a sz) : firstFailing s (eaAccess u sz ea) = some (a, sz) := by
  rw [eaAccess, ha]
  exact (firstFailing_one s a sz).trans (if_neg h)

/-- Settles O53: in the order of MOVE's accesses the source's words and the source come before every access of the
destination. -/
theorem moveReportsTheSourceFirst : Obligations.MoveReportsTheSourceFirst := by
  intro sz src dst s hw he
  obtain ⟨-, alterable⟩ := legal_of_moveOf hw
  have checks : Checks s (moveAccesses s sz src dst) (execute s (moveOf sz src dst)) :=
    execute_moveOf s sz src dst ▸ (move_checks s sz src alterable).plain
  have srcWords : firstFailing s (extAccesses s 0 (src.words sz)) = none :=
    firstFailing_extAccesses (by rwa [Nat.zero_add])
  refine ⟨fun a ha hfit => checks.cycle.1 a sz ?source, fun hsrc words a ha hfit => checks.cycle.1 a sz ?destination⟩
  case source =>
    rw [moveAccesses, operandAccesses, firstFailing_append, firstFailing_append, srcWords,
      firstFailing_eaAccess_of_not_fits ha hfit]
    rfl
  case destination =>
    rw [moveAccesses, operandAccesses, firstFailing_append, firstFailing_append, firstFailing_append, srcWords,
      firstFailing_eaAccess hsrc, firstFailing_extAccesses words, firstFailing_eaAccess_of_not_fits ha hfit]
    rfl

/-- The execute phase makes the accesses listed for its instruction, in their order. -/
theorem execute_checks {i : Instr} {s : State} (hw : WellFormed i = true) (hi : i ≠ .trap15)
    (hs : ∀ k, i = .stop k → s.supervisor = true) : Checks s (accesses s i) (execute s i) := by
  cases i with
  | trap15 => exact absurd rfl hi
  | stop k => exact stop_checks k (hs k rfl)
  | rts => exact (returnSub_checks s).plain
  | jmp ea => exact (jump_checks s (legal_iff.1 hw).1).plain
  | bsr d => exact (branchSub_checks s d).plain
  | bra d | bhi d | bls d | bcc d | bcs d | bne d | beq d | bvc d | bvs d | bpl d | bmi d | bge d | blt d | bgt d
  | ble d => exact (branch_checks s _ d).plain
  | moveB src dst | moveW src dst | moveL src dst =>
    exact (move_checks s _ src (legal_iff.1 (Bool.and_eq_true_iff.1 hw).2).1).plain
  | moveaW src an | moveaL src an => exact (movea_checks s _ src an).plain
  | addiB imm dst => exact (addi_checks s .b _ (legal_iff.1 hw).1).plain
  | addiW imm dst => exact (addi_checks s .w _ (legal_iff.1 hw).1).plain
  | addiL imm dst => exact (addi_checks s .l _ (legal_iff.1 hw).1).plain
  | clrB dst | clrW dst | clrL dst => exact (clr_checks s _ (legal_iff.1 hw).1).plain
  | addqB q dst =>
    have alterable : dst.isIn .alterable = true := by
      have dataAlt := (legal_iff.1 hw).1
      cases dst <;> simp_all [EA.isIn]
    exact (addq_checks s _ q alterable).plain
  | addqW q dst | addqL q dst => exact (addq_checks s _ q (legal_iff.1 hw).1).plain
  | cmpB src dn | cmpW src dn | cmpL src dn => exact (cmp_checks s _ src dn).plain
  | cmpaW src an | cmpaL src an => exact (cmpa_checks s _ src an).plain
  | addEaDnB src dn | addEaDnW src dn | addEaDnL src dn => exact (addEaDn_checks s _ src dn).plain
  | addDnEaB dn dst | addDnEaW dn dst | addDnEaL dn dst =>
    exact (addDnEa_checks s _ dn (memAlt_dataAlt (legal_iff.1 hw).1)).plain
  | addaW src an | addaL src an => exact (adda_checks s _ src an).plain

/-- Settles O60: the execute phase ends as its list of accesses does, and one that succeeds keeps RUN. -/
theorem firstFailingAccessIsTheFault : Obligations.FirstFailingAccessIsTheFault := by
  intro i s hw hrun hi hs
  obtain ⟨failing, complete⟩ := (execute_checks hw hi hs).cycle
  refine ⟨failing, fun none => ?_⟩
  obtain ⟨u, h, executed, next⟩ := complete none
  obtain ⟨-, run, -⟩ := execute_kept executed
  exact ⟨_, next, advance_run_ne_faulted (run.trans hrun) h⟩

end Sys2Proof.Machine
end

section
/-! PROOFS about the tasks of TRAP #15, 46_trap_stop.md R350-R356. -/

namespace Sys2Proof.Machine

/-! ### The tasks of the default table, 46_trap_stop.md R352 -/

theorem trap15_of_defaultTasks {s : State} {task : Byte} {svc : TrapService}
    (table : s.params.trap15Tasks = Params.defaultTasks) (htask : (s.dreg 0).extractLsb' 0 8 = task)
    (hsvc : Params.defaultTasks.lookup task = some svc) : trap15 s = service svc s :=
  trap15_of_lookup_some (by rw [table, htask, hsvc])

/-- A default task whose service ends without a halt request. -/
theorem exec_trap15_of_service {s u : State} {task : Byte} {svc : TrapService}
    (table : s.params.trap15Tasks = Params.defaultTasks) (htask : (s.dreg 0).extractLsb' 0 8 = task)
    (hsvc : Params.defaultTasks.lookup task = some svc) (h : service svc s = .ok (u, none)) :
    exec .trap15 s = .next (u.advance none) :=
  exec_trap ((trap15_of_defaultTasks table htask hsvc).trans h)

/-! ### Decimal text, 46_trap_stop.md R352 -/

/-- The bytes of a text of ASCII characters. -/
def asciiBytes (text : String) : List Byte := text.toList.map fun c => BitVec.ofNat 8 c.toNat

theorem asciiBytes_append (t u : String) : asciiBytes (t ++ u) = asciiBytes t ++ asciiBytes u := by
  rw [asciiBytes, String.toList_append, List.map_append]; rfl

theorem asciiBytes_digit {n : Nat} (h : n < 10) : asciiBytes (String.singleton n.digitChar) = [digitByte n] := by
  rw [asciiBytes, String.toList_singleton, List.map_singleton, Nat.toNat_digitChar_of_lt_ten h]; rfl

theorem decimalNat_eq_repr (fuel : Nat) : ∀ n, n < 10 ^ (fuel + 1) → decimalNat (fuel + 1) n = asciiBytes n.repr := by
  induction fuel with
  | zero =>
    intro n (hn : n < 10)
    rw [decimalNat, if_pos hn, Nat.repr_of_lt hn, asciiBytes_digit hn]
  | succ fuel ih =>
    intro n hn
    rw [decimalNat]
    split
    · next one => rw [Nat.repr_of_lt one, asciiBytes_digit one]
    · next more =>
      have tens : n / 10 < 10 ^ (fuel + 1) := Nat.div_lt_of_lt_mul (by rwa [← Nat.pow_succ'])
      rw [ih _ tens, Nat.repr_of_ge (Nat.le_of_not_lt more), asciiBytes_append, asciiBytes_digit (Nat.mod_lt _ (by decide))]

/-- The task's text of an integer is Lean's own. -/
theorem decimalText_eq_toString (v : Long) : decimalText v = asciiBytes (toString v.toInt) := by
  have lo := v.le_toInt
  have hi := v.toInt_lt
  have digits : v.toInt.natAbs < 10 ^ (9 + 1) := by omega
  rw [decimalText, decimalNat_eq_repr 9 _ digits]
  split
  · next negative =>
    obtain ⟨n, hn⟩ := Int.eq_negSucc_of_lt_zero negative
    rw [hn]
    exact (asciiBytes_append "-" _).symm
  · next positive =>
    obtain ⟨n, hn⟩ := Int.eq_ofNat_of_zero_le (Int.not_lt.1 positive)
    rw [hn]; rfl

/-- Settles O48: each service makes its one request and changes nothing else. -/
theorem tasksThatOnlySend : Obligations.TasksThatOnlySend := by
  intro s table
  refine ⟨fun task => ?decimal, fun task => ?char, fun task clear => ?clear, fun task cursor => ?cursor,
    fun task => ?echo⟩
  case decimal =>
    refine (exec_trap15_of_service table task rfl rfl).trans ?_
    rw [decimalText_eq_toString]; rfl
  case char => exact exec_trap15_of_service table task rfl rfl
  case clear => exact exec_trap15_of_service table task rfl (by rw [service, serviceCursor, if_pos clear])
  case cursor => exact exec_trap15_of_service table task rfl (by rw [service, serviceCursor, if_neg cursor])
  case echo =>
    refine (exec_trap15_of_service table task rfl rfl).trans ?_
    rw [bne, Bool.beq_eq_decide_eq, ← decide_not]; rfl

/-! ### The text tasks, 46_trap_stop.md R352, R355 -/

theorem service_outCounted_of_ok {s : State} {text : List Byte} (crlf : Bool)
    (h : readCounted s (s.areg 1) ((s.dreg 1).extractLsb' 0 16).toNat = .ok text) :
    service (.outCounted crlf) s = .ok (outText s (formatted crlf text), none) := by
  rw [service, serviceOutCounted, h]; rfl

theorem service_outTerminated_of_ok {s : State} {text : List Byte} (crlf : Bool)
    (h : readTerminated s (s.areg 1) 4294967296 = .ok text) :
    service (.outTerminated crlf) s = .ok (outText s (formatted crlf text), none) := by
  rw [service, serviceOutTerminated, h]; rfl

/-- Settles O49: all the bytes of the text are read, and then sent. -/
theorem countedTextIsSent : Obligations.CountedTextIsSent := by
  intro s table inside
  have text := readCounted_ok s _ _ inside
  exact ⟨fun task => exec_trap15_of_service table task rfl (service_outCounted_of_ok true text),
    fun task => exec_trap15_of_service table task rfl (service_outCounted_of_ok false text)⟩

/-- Settles O50: the scan stops at the first NUL, within the 2^32 addresses. -/
theorem terminatedTextIsSent : Obligations.TerminatedTextIsSent := by
  intro s n table hn inside noNul nul
  have text := readTerminated_ok s n _ 4294967296 hn inside noNul nul
  exact ⟨fun task => exec_trap15_of_service table task rfl (service_outTerminated_of_ok true text),
    fun task => exec_trap15_of_service table task rfl (service_outTerminated_of_ok false text)⟩

/-! ### The input tasks, 46_trap_stop.md R356 -/

/-- InNumber is answered by the next known answer, or by the free value when none is known (log 10). -/
theorem askNumber_some {h : HostPort} {v : Long}
    (hv : h.numbers.head? = some v ∨ (h.numbers = [] ∧ Config.hostNumber (h.requests ++ [.inNumber]) = some v)) :
    h.askNumber = some (v, { h with requests := h.requests ++ [.inNumber], numbers := h.numbers.tail }) := by
  rcases h with ⟨_, _ | _, _, _⟩ <;> simp_all [HostPort.askNumber, HostPort.send]

/-- As `askNumber_some`. -/
theorem askChar_some {h : HostPort} {v : Byte}
    (hv : h.chars.head? = some v ∨ (h.chars = [] ∧ Config.hostChar (h.requests ++ [.inChar]) = some v)) :
    h.askChar = some (v, { h with requests := h.requests ++ [.inChar], chars := h.chars.tail }) := by
  rcases h with ⟨_, _, _ | _, _⟩ <;> simp_all [HostPort.askChar, HostPort.send]

/-- As `askNumber_some`. -/
theorem askPending_some {h : HostPort} {v : Bool}
    (hv : h.pendings.head? = some v ∨ (h.pendings = [] ∧ Config.hostPending (h.requests ++ [.pending]) = some v)) :
    h.askPending = some (v, { h with requests := h.requests ++ [.pending], pendings := h.pendings.tail }) := by
  rcases h with ⟨_, _, _, _ | _⟩ <;> simp_all [HostPort.askPending, HostPort.send]

/-- A task whose service leaves an answer in D1 and the host port after its request. -/
theorem exec_trap15_of_answer {s : State} {host : HostPort} {task : Byte} {svc : TrapService} {sz : Size} {v : Long}
    (table : s.params.trap15Tasks = Params.defaultTasks) (htask : (s.dreg 0).extractLsb' 0 8 = task)
    (hsvc : Params.defaultTasks.lookup task = some svc)
    (h : service svc s = .ok (({ s with host := host } : State).writeD 1 sz v, none)) :
    ∃ t, exec .trap15 s = .next t ∧ DWritten s t 1 sz v ∧ t.host = host ∧ t.a = s.a ∧ t.sr = s.sr ∧ MemSame s t ∧
      PcPast s t 1 ∧ t.run = s.run ∧ t.params = s.params :=
  ⟨_, exec_trap15_of_service table htask hsvc h, writeD_written { s with host := host } 1 sz v, rfl, rfl, rfl,
    fun _ => rfl, rfl, rfl, rfl⟩

/-- Settles O52: with an answer, each service writes it to D1 and keeps the port that the request left. -/
theorem inputTasksWriteD1 : Obligations.InputTasksWriteD1 := by
  intro s table
  refine ⟨fun task v answer => ?number, fun task v answer => ?char, fun task v answer => ?pending⟩
  case number => exact exec_trap15_of_answer table task rfl (by rw [service, serviceInNumber, askNumber_some answer]; rfl)
  case char => exact exec_trap15_of_answer table task rfl (by rw [service, serviceInChar, askChar_some answer]; rfl)
  case pending => exact exec_trap15_of_answer table task rfl (by rw [service, serviceInPending, askPending_some answer]; rfl)

end Sys2Proof.Machine
end

section
/-! PROOFS of the frames: what an instruction leaves of memory, of each register file, of SR and of PC, 10_state.md R30,
R31, R39, 20_memory.md R80, 40_sequencer.md R157. -/

namespace Sys2Proof.Machine

/-! ### The instructions that read a source -/

theorem adda_or_movea_ok {sz : Size} {src : EA} {r : Reg} {s u : State} (h : adda sz src r s = .ok u ∨ movea sz src r s = .ok u) :
    ∃ v, u = (afterEA s sz src).writeA r .l v := by
  rcases h with h | h
  · obtain ⟨v, -, rfl⟩ := adda_ok.1 h; exact ⟨_, rfl⟩
  · obtain ⟨v, -, rfl⟩ := movea_ok.1 h; exact ⟨_, rfl⟩

theorem cmp_or_cmpa_ok {sz : Size} {src : EA} {r : Reg} {s u : State} (h : cmp sz src r s = .ok u ∨ cmpa sz src r s = .ok u) :
    ∃ f, f.x = none ∧ u = (afterEA s sz src).setFlags f := by
  rcases h with h | h
  · obtain ⟨v, -, rfl⟩ := cmp_ok.1 h; exact ⟨_, rfl, rfl⟩
  · obtain ⟨v, -, rfl⟩ := cmpa_ok.1 h; exact ⟨_, rfl, rfl⟩

/-! ### The instructions that write a destination -/

/-- `u` is the state after a destination resolved in `s` and the flags `f` are written. -/
def DestStep (s : State) (sz : Size) (dst : EA) (f : Flags) (u : State) : Prop :=
  ∃ v w, writeOp (eaLoc s sz .data dst) sz v (afterEA s sz dst) = .ok w ∧ u = w.setFlags f

theorem clr_destStep {sz : Size} {dst : EA} {s u : State} (h : clr sz dst s = .ok u) :
    DestStep s sz dst clearFlags u := by
  obtain ⟨-, w, hw, rfl⟩ := clr_ok.1 h
  exact ⟨0, w, hw, rfl⟩

theorem addToOperand_destStep {sz : Size} {src : State → Long} {dst : EA} {s u : State}
    (h : addToOperand sz src dst s = .ok u) : ∃ f, DestStep s sz dst f u := by
  obtain ⟨-, v, -, w, hw, rfl⟩ := addToOperand_ok.1 h
  exact ⟨_, _, w, hw, rfl⟩

theorem addi_destStep {sz : Size} {imm : Long} {dst : EA} {s u : State} (h : addi sz imm dst s = .ok u) :
    ∃ f, DestStep (s.setPc (s.pc + BitVec.ofNat 32 (2 * immWords sz))) sz dst f u :=
  addToOperand_destStep (addi_ok.1 h).2

/-- ADDQ of an address register writes it alone; of every other form it is the read-modify-write. -/
theorem addq_cases {sz : Size} {q : BitVec 3} {dst : EA} {s u : State} (h : addq sz q dst s = .ok u) :
    (∃ r, dst = .an r ∧ u = s.writeA r .l (quickValue q + s.areg r)) ∨
      ((∀ r, dst ≠ .an r) ∧ ∃ f, DestStep s sz dst f u) := by
  by_cases hd : ∃ r, dst = .an r
  · obtain ⟨r, rfl⟩ := hd
    exact .inl ⟨r, rfl, (Except.ok.inj h).symm⟩
  · have notAn : ∀ r, dst ≠ .an r := fun r e => hd ⟨r, e⟩
    exact .inr ⟨notAn, addToOperand_destStep ((addq_eq notAn s).symm.trans h)⟩

theorem move_destStep {sz : Size} {src dst : EA} {s u : State} (h : move sz src dst s = .ok u) :
    ∃ v, DestStep (afterEA s sz src) sz dst (moveTest sz v) u := by
  obtain ⟨v, -, -, w, hw, rfl⟩ := move_ok.1 h
  exact ⟨v, v, w, hw, rfl⟩

theorem isMem_of_eaAddr {s : State} {sz : Size} {use : Use} {ea : EA} {a : Long} (h : eaAddr s sz use ea = some a) :
    ea.isMem = true := by
  cases ea with
  | dn | an | imm => cases h
  | _ => rfl

section
variable {s u : State} {sz : Size} {dst : EA} {f : Flags}

theorem DestStep.pc (h : DestStep s sz dst f u) : u.pc = s.pc + BitVec.ofNat 32 (2 * dst.words sz) := by
  obtain ⟨v, w, hw, rfl⟩ := h
  exact (writeOp_pc hw).trans (afterEA_pc s sz dst)

theorem DestStep.flagX (h : DestStep s sz dst f u) (hf : f.x = none) : u.flagX = s.flagX := by
  obtain ⟨v, w, hw, rfl⟩ := h
  rw [setFlags_flagX, hf, Option.getD_none, State.flagX, writeOp_sr hw, afterEA_sr]
  rfl

theorem DestStep.mem (h : DestStep s sz dst f u) (hd : dst.isMem = false) : u.mem = s.mem := by
  obtain ⟨v, w, hw, rfl⟩ := h
  rcases writeOp_cases hw with ⟨r, -, rfl⟩ | ⟨r, -, rfl⟩ | ⟨a, loc, -⟩
  · exact afterEA_mem s sz dst
  · exact afterEA_mem s sz dst
  · cases dst <;> simp [eaLoc, EA.isMem] at loc hd

theorem DestStep.outside (h : DestStep s sz dst f u) {a : Long} (ha : eaAddr s sz .data dst = some a) :
    MemSameOutside s u a sz.bytes := by
  obtain ⟨v, w, hw, rfl⟩ := h
  obtain ⟨b, hb, -, rfl⟩ := (writeOp_eaLoc_mem (isMem_of_eaAddr ha) v _ w).1 hw
  obtain rfl := Option.some.inj (ha.symm.trans hb)
  exact fun x hx => (store_outside (afterEA s sz dst) a sz v x hx).trans (afterEA_byteAt s sz dst x)

theorem DestStep.dreg (h : DestStep s sz dst f u) {r : Reg} (hr : dst ≠ .dn r) : u.dreg r = s.dreg r := by
  obtain ⟨v, w, hw, rfl⟩ := h
  rcases writeOp_cases hw with ⟨q, loc, rfl⟩ | ⟨q, -, rfl⟩ | ⟨a, -, -, rfl⟩
  · have other : r ≠ q := by
      rintro rfl
      cases dst <;> cases loc
      exact hr rfl
    rw [setFlags_dreg, writeD_dreg_ne _ other, afterEA_dreg]
  · exact afterEA_dreg s sz dst r
  · rw [setFlags_dreg, store_dreg, afterEA_dreg]

theorem DestStep.areg (h : DestStep s sz dst f u) {r : Reg} (hr : dst ≠ .an r) (hs : dst.stepped ≠ some r) :
    u.areg r = s.areg r := by
  obtain ⟨v, w, hw, rfl⟩ := h
  have after : (afterEA s sz dst).areg r = s.areg r := (afterEA_areg s sz dst r).trans (stepEA_areg_ne s sz hs)
  rcases writeOp_cases hw with ⟨q, -, rfl⟩ | ⟨q, loc, rfl⟩ | ⟨a, -, -, rfl⟩
  · exact after
  · have other : r ≠ q := by
      rintro rfl
      cases dst <;> cases loc
      exact hr rfl
    rw [setFlags_areg, writeA_areg_ne _ other, after]
  · rw [setFlags_areg, store_areg, after]

end

/-! ### Memory, 20_memory.md R80 -/

theorem memSame_of_mem {s t : State} (h : t.mem = s.mem) : MemSame s t := fun x => by
  rw [State.byteAt, State.byteAt, h]

theorem isMem_eq_false {dst : EA} (h : (!dst.isMem) = true) : dst.isMem = false := by simpa using h

/-- An execute phase of a form that stores nothing leaves the memory list. -/
theorem execute_mem {i : Instr} {s u : State} {h : Option HaltCause} (he : execute s i = .ok (u, h))
    (hi : storesNothing i = true) : u.mem = s.mem := by
  cases i with
  | stop k => obtain ⟨-, -, rfl, -⟩ := stop_ok.1 he; rfl
  | trap15 => obtain ⟨-, -, mem, -⟩ := trap15_written he; exact mem
  | rts => obtain ⟨-, rfl⟩ := returnSub_ok.1 (plain_ok.1 he).1; rfl
  | jmp ea => obtain ⟨-, a, -, rfl⟩ := jump_ok.1 (plain_ok.1 he).1; exact afterEA_mem s .l ea
  | bra d | bhi d | bls d | bcc d | bcs d | bne d | beq d | bvc d | bvs d | bpl d | bmi d | bge d | blt d | bgt d | ble d =>
    obtain ⟨-, rfl⟩ := branch_ok.1 (plain_ok.1 he).1; rfl
  | bsr d => cases hi
  | moveB src dst | moveW src dst | moveL src dst =>
    obtain ⟨v, step⟩ := move_destStep (plain_ok.1 he).1
    exact (step.mem (isMem_eq_false hi)).trans (afterEA_mem s _ src)
  | addiB imm dst | addiW imm dst | addiL imm dst =>
    obtain ⟨f, step⟩ := addi_destStep (plain_ok.1 he).1
    exact step.mem (isMem_eq_false hi)
  | clrB dst | clrW dst | clrL dst => exact (clr_destStep (plain_ok.1 he).1).mem (isMem_eq_false hi)
  | addqB q dst | addqW q dst | addqL q dst =>
    rcases addq_cases (plain_ok.1 he).1 with ⟨r, -, rfl⟩ | ⟨-, f, step⟩
    · rfl
    · exact step.mem (isMem_eq_false hi)
  | addDnEaB dn dst | addDnEaW dn dst | addDnEaL dn dst => cases hi
  | addEaDnB src dn | addEaDnW src dn | addEaDnL src dn =>
    obtain ⟨v, -, rfl⟩ := addEaDn_ok.1 (plain_ok.1 he).1
    exact afterEA_mem s _ src
  | addaW src an | addaL src an =>
    obtain ⟨v, rfl⟩ := adda_or_movea_ok (.inl (plain_ok.1 he).1)
    exact afterEA_mem s _ src
  | moveaW src an | moveaL src an =>
    obtain ⟨v, rfl⟩ := adda_or_movea_ok (.inr (plain_ok.1 he).1)
    exact afterEA_mem s _ src
  | cmpB src dn | cmpW src dn | cmpL src dn =>
    obtain ⟨f, -, rfl⟩ := cmp_or_cmpa_ok (.inl (plain_ok.1 he).1)
    exact afterEA_mem s _ src
  | cmpaW src an | cmpaL src an =>
    obtain ⟨f, -, rfl⟩ := cmp_or_cmpa_ok (.inr (plain_ok.1 he).1)
    exact afterEA_mem s _ src

/-- Settles O55: neither end of the cycle of such a form touches memory. -/
theorem frameMemoryOfOtherForms : Obligations.FrameMemoryOfOtherForms := by
  intro i s t h hi
  rcases exec_next.1 h with ⟨u, halt, executed, rfl⟩ | ⟨c, -, rfl⟩
  · exact memSame_of_mem ((advance_mem u halt).trans (execute_mem executed hi))
  · exact memSame_of_mem rfl

/-- A cycle keeps the bytes that its execute phase keeps: a fault keeps all of them. -/
theorem memSameOutside_of_exec {i : Instr} {s t : State} {a : Long} {n : Nat} {body : Except Stop State}
    (hi : execute s i = plain body) (hbody : ∀ u, body = .ok u → MemSameOutside s u a n) (h : exec i s = .next t) :
    MemSameOutside s t a n := by
  rcases exec_next.1 h with ⟨u, halt, executed, rfl⟩ | ⟨c, -, rfl⟩
  · rw [hi] at executed
    exact fun x hx => (advance_byteAt u halt x).trans (hbody u (plain_ok.1 executed).1 x hx)
  · exact fun x _ => rfl

/-- Settles O56: each storing form makes its one store at the address of its destination. -/
theorem frameMemoryOfStores : Obligations.FrameMemoryOfStores := by
  intro sz s t a
  refine ⟨fun src dst hw ha h => ?move, fun imm dst hw ha h => ?addi, fun q dst hw ha h => ?addq, fun dst hw ha h => ?clr,
    fun dn dst hw ha h => ?add, fun d h => ?bsr⟩
  case move =>
    obtain ⟨-, alterable⟩ := legal_of_moveOf hw
    refine memSameOutside_of_exec (execute_moveOf s sz src dst) (fun u hu => ?_) h
    obtain ⟨v, step⟩ := move_destStep hu
    have kept := step.outside ((eaAddr_setPc alterable _ sz .data _).trans ha)
    exact fun x hx => (kept x hx).trans (afterEA_byteAt s sz src x)
  case addi =>
    obtain ⟨v, -, hi⟩ := execute_addiOf s sz dst imm
    refine memSameOutside_of_exec hi (fun u hu => ?_) h
    obtain ⟨f, step⟩ := addi_destStep hu
    exact step.outside ((eaAddr_setPc (dataAlt_of_addiOf hw) s sz .data _).trans ha)
  case addq =>
    refine memSameOutside_of_exec (execute_addqOf s sz dst q) (fun u hu => ?_) h
    rcases addq_cases hu with ⟨r, rfl, -⟩ | ⟨-, f, step⟩
    · cases ha
    · exact step.outside ha
  case clr => exact memSameOutside_of_exec (execute_clrOf s sz dst) (fun u hu => (clr_destStep hu).outside ha) h
  case add =>
    refine memSameOutside_of_exec (execute_addDnEaOf s sz dst dn) (fun u hu => ?_) h
    obtain ⟨f, step⟩ := addToOperand_destStep hu
    exact step.outside ha
  case bsr =>
    refine memSameOutside_of_exec rfl (fun u hu => ?_) h
    obtain ⟨-, -, rfl⟩ := branchSub_ok.1 hu
    exact store_outside ((s.setPc _).writeA spNum .l _) _ .w _

/-! ### What an operand steps, and what the sets of legal destinations exclude, 30_encoding.md R118 -/

theorem afterEA_areg_ne (s : State) (sz : Size) {ea : EA} {r : Reg} (h : ea.stepped ≠ some r) :
    (afterEA s sz ea).areg r = s.areg r :=
  (afterEA_areg s sz ea r).trans (stepEA_areg_ne s sz h)

theorem ne_dn_of_memAlt {dst : EA} {sz : Size} (h : dst.legal .memAlt sz = true) (r : Reg) : dst ≠ .dn r := by
  rintro rfl
  cases h

theorem ne_an_of_dataAlt {dst : EA} (h : dst.isIn .dataAlt = true) (r : Reg) : dst ≠ .an r := by
  rintro rfl
  cases h

/-! ### The data registers, 10_state.md R30 -/

/-- An execute phase leaves every data register but its destination register. -/
theorem execute_dreg {i : Instr} {s u : State} {h : Option HaltCause} {r : Reg} (hw : WellFormed i = true)
    (he : execute s i = .ok (u, h)) (hr : destD i ≠ some r) : u.dreg r = s.dreg r := by
  cases i with
  | stop k => obtain ⟨-, -, rfl, -⟩ := stop_ok.1 he; rfl
  | trap15 =>
    obtain ⟨-, -, -, -, -, kept⟩ := trap15_written he
    exact kept r fun e => hr (congrArg some e.symm)
  | rts => obtain ⟨-, rfl⟩ := returnSub_ok.1 (plain_ok.1 he).1; rfl
  | jmp ea => obtain ⟨-, a, -, rfl⟩ := jump_ok.1 (plain_ok.1 he).1; exact afterEA_dreg s .l ea r
  | bra d | bhi d | bls d | bcc d | bcs d | bne d | beq d | bvc d | bvs d | bpl d | bmi d | bge d | blt d | bgt d | ble d =>
    obtain ⟨-, rfl⟩ := branch_ok.1 (plain_ok.1 he).1; rfl
  | bsr d =>
    obtain ⟨-, -, rfl⟩ := branchSub_ok.1 (plain_ok.1 he).1
    exact store_dreg _ _ _ _ r
  | moveB src dst | moveW src dst | moveL src dst =>
    obtain ⟨v, step⟩ := move_destStep (plain_ok.1 he).1
    exact (step.dreg (by rintro rfl; exact hr rfl)).trans (afterEA_dreg s _ src r)
  | addiB imm dst | addiW imm dst | addiL imm dst =>
    obtain ⟨f, step⟩ := addi_destStep (plain_ok.1 he).1
    exact step.dreg (by rintro rfl; exact hr rfl)
  | clrB dst | clrW dst | clrL dst => exact (clr_destStep (plain_ok.1 he).1).dreg (by rintro rfl; exact hr rfl)
  | addqB q dst | addqW q dst | addqL q dst =>
    rcases addq_cases (plain_ok.1 he).1 with ⟨p, -, rfl⟩ | ⟨-, f, step⟩
    · rfl
    · exact step.dreg (by rintro rfl; exact hr rfl)
  | addDnEaB dn dst | addDnEaW dn dst | addDnEaL dn dst =>
    obtain ⟨f, step⟩ := addToOperand_destStep (plain_ok.1 he).1
    exact step.dreg (ne_dn_of_memAlt hw r)
  | addEaDnB src dn | addEaDnW src dn | addEaDnL src dn =>
    obtain ⟨v, -, rfl⟩ := addEaDn_ok.1 (plain_ok.1 he).1
    rw [setFlags_dreg, writeD_dreg_ne _ fun e => hr (congrArg some e.symm), afterEA_dreg]
  | addaW src an | addaL src an =>
    obtain ⟨v, rfl⟩ := adda_or_movea_ok (.inl (plain_ok.1 he).1)
    exact afterEA_dreg s _ src r
  | moveaW src an | moveaL src an =>
    obtain ⟨v, rfl⟩ := adda_or_movea_ok (.inr (plain_ok.1 he).1)
    exact afterEA_dreg s _ src r
  | cmpB src dn | cmpW src dn | cmpL src dn =>
    obtain ⟨f, -, rfl⟩ := cmp_or_cmpa_ok (.inl (plain_ok.1 he).1)
    exact afterEA_dreg s _ src r
  | cmpaW src an | cmpaL src an =>
    obtain ⟨f, -, rfl⟩ := cmp_or_cmpa_ok (.inr (plain_ok.1 he).1)
    exact afterEA_dreg s _ src r

/-- Settles O57: a fault leaves all of them, and the advance phase too. -/
theorem frameDataRegisters : Obligations.FrameDataRegisters := by
  intro i s t r hw h hr
  rcases exec_next.1 h with ⟨u, halt, executed, rfl⟩ | ⟨c, -, rfl⟩
  · exact (advance_dreg u halt r).trans (execute_dreg hw executed hr)
  · rfl

/-! ### The address registers, 10_state.md R30, R31 -/

/-- An execute phase leaves every address register but its destination register and those an operand steps. -/
theorem execute_areg {i : Instr} {s u : State} {h : Option HaltCause} {r : Reg} (hw : WellFormed i = true)
    (he : execute s i = .ok (u, h)) (hr : destA i ≠ some r) (hs : ∀ ea ∈ operandsOf i, ea.stepped ≠ some r) :
    u.areg r = s.areg r := by
  cases i with
  | stop k => obtain ⟨-, -, rfl, -⟩ := stop_ok.1 he; rfl
  | trap15 =>
    obtain ⟨-, -, -, kept, -⟩ := trap15_written he
    rw [State.areg, State.areg, kept]
  | rts =>
    obtain ⟨-, rfl⟩ := returnSub_ok.1 (plain_ok.1 he).1
    exact writeA_areg_ne s (fun e => hr (congrArg some e.symm)) .l _
  | jmp ea =>
    obtain ⟨-, a, -, rfl⟩ := jump_ok.1 (plain_ok.1 he).1
    exact afterEA_areg_ne s .l (hs ea (List.mem_singleton_self ea))
  | bra d | bhi d | bls d | bcc d | bcs d | bne d | beq d | bvc d | bvs d | bpl d | bmi d | bge d | blt d | bgt d | ble d =>
    obtain ⟨-, rfl⟩ := branch_ok.1 (plain_ok.1 he).1; rfl
  | bsr d =>
    obtain ⟨-, -, rfl⟩ := branchSub_ok.1 (plain_ok.1 he).1
    exact (store_areg _ _ _ _ r).trans (writeA_areg_ne (s.setPc _) (fun e => hr (congrArg some e.symm)) .l _)
  | moveB src dst | moveW src dst | moveL src dst =>
    obtain ⟨v, step⟩ := move_destStep (plain_ok.1 he).1
    have alterable := (legal_iff.1 (Bool.and_eq_true_iff.1 hw).2).1
    exact (step.areg (ne_an_of_dataAlt alterable r) (hs dst (List.mem_cons_of_mem _ (List.mem_singleton_self dst)))).trans
      (afterEA_areg_ne s _ (hs src List.mem_cons_self))
  | addiB imm dst | addiW imm dst | addiL imm dst =>
    obtain ⟨f, step⟩ := addi_destStep (plain_ok.1 he).1
    exact step.areg (ne_an_of_dataAlt (legal_iff.1 hw).1 r) (hs dst (List.mem_singleton_self dst))
  | clrB dst | clrW dst | clrL dst =>
    exact (clr_destStep (plain_ok.1 he).1).areg (ne_an_of_dataAlt (legal_iff.1 hw).1 r) (hs dst (List.mem_singleton_self dst))
  | addqB q dst =>
    rcases addq_cases (plain_ok.1 he).1 with ⟨p, rfl, -⟩ | ⟨notAn, f, step⟩
    · cases hw
    · exact step.areg (notAn r) (hs dst (List.mem_singleton_self dst))
  | addqW q dst | addqL q dst =>
    rcases addq_cases (plain_ok.1 he).1 with ⟨p, rfl, rfl⟩ | ⟨notAn, f, step⟩
    · exact writeA_areg_ne s (fun e => hr (congrArg some e.symm)) .l _
    · exact step.areg (notAn r) (hs dst (List.mem_singleton_self dst))
  | addDnEaB dn dst | addDnEaW dn dst | addDnEaL dn dst =>
    obtain ⟨f, step⟩ := addToOperand_destStep (plain_ok.1 he).1
    exact step.areg (ne_an_of_dataAlt (memAlt_dataAlt (legal_iff.1 hw).1) r) (hs dst (List.mem_singleton_self dst))
  | addEaDnB src dn | addEaDnW src dn | addEaDnL src dn =>
    obtain ⟨v, -, rfl⟩ := addEaDn_ok.1 (plain_ok.1 he).1
    exact afterEA_areg_ne s _ (hs src (List.mem_singleton_self src))
  | addaW src an | addaL src an =>
    obtain ⟨v, rfl⟩ := adda_or_movea_ok (.inl (plain_ok.1 he).1)
    exact (writeA_areg_ne _ (fun e => hr (congrArg some e.symm)) .l v).trans
      (afterEA_areg_ne s _ (hs src (List.mem_singleton_self src)))
  | moveaW src an | moveaL src an =>
    obtain ⟨v, rfl⟩ := adda_or_movea_ok (.inr (plain_ok.1 he).1)
    exact (writeA_areg_ne _ (fun e => hr (congrArg some e.symm)) .l v).trans
      (afterEA_areg_ne s _ (hs src (List.mem_singleton_self src)))
  | cmpB src dn | cmpW src dn | cmpL src dn =>
    obtain ⟨f, -, rfl⟩ := cmp_or_cmpa_ok (.inl (plain_ok.1 he).1)
    exact afterEA_areg_ne s _ (hs src (List.mem_singleton_self src))
  | cmpaW src an | cmpaL src an =>
    obtain ⟨f, -, rfl⟩ := cmp_or_cmpa_ok (.inr (plain_ok.1 he).1)
    exact afterEA_areg_ne s _ (hs src (List.mem_singleton_self src))

/-- Settles O58: a fault leaves all of them, and the advance phase too. -/
theorem frameAddressRegisters : Obligations.FrameAddressRegisters := by
  intro i s t r hw h hr hs
  rcases exec_next.1 h with ⟨u, halt, executed, rfl⟩ | ⟨c, -, rfl⟩
  · exact (advance_areg u halt r).trans (execute_areg hw executed hr hs)
  · rfl

/-! ### SR, 10_state.md R39 -/

/-- An execute phase of a row "-" of R39 leaves SR. -/
theorem execute_sr {i : Instr} {s u : State} {h : Option HaltCause} (he : execute s i = .ok (u, h))
    (hi : writesNoFlag i = true) : u.sr = s.sr := by
  cases i with
  | trap15 => obtain ⟨-, sr, -⟩ := trap15_written he; exact sr
  | rts => obtain ⟨-, rfl⟩ := returnSub_ok.1 (plain_ok.1 he).1; rfl
  | jmp ea => obtain ⟨-, a, -, rfl⟩ := jump_ok.1 (plain_ok.1 he).1; exact afterEA_sr s .l ea
  | bra d | bhi d | bls d | bcc d | bcs d | bne d | beq d | bvc d | bvs d | bpl d | bmi d | bge d | blt d | bgt d | ble d =>
    obtain ⟨-, rfl⟩ := branch_ok.1 (plain_ok.1 he).1; rfl
  | bsr d =>
    obtain ⟨-, -, rfl⟩ := branchSub_ok.1 (plain_ok.1 he).1
    exact store_sr _ _ _ _
  | addqW q dst | addqL q dst =>
    rcases addq_cases (plain_ok.1 he).1 with ⟨r, -, rfl⟩ | ⟨notAn, -⟩
    · rfl
    · cases dst with
      | an r => exact absurd rfl (notAn r)
      | _ => cases hi
  | addaW src an | addaL src an =>
    obtain ⟨v, rfl⟩ := adda_or_movea_ok (.inl (plain_ok.1 he).1)
    exact afterEA_sr s _ src
  | moveaW src an | moveaL src an =>
    obtain ⟨v, rfl⟩ := adda_or_movea_ok (.inr (plain_ok.1 he).1)
    exact afterEA_sr s _ src
  | _ => cases hi

theorem cmp_flagX {sz : Size} {src : EA} {r : Reg} {s u : State} (h : cmp sz src r s = .ok u ∨ cmpa sz src r s = .ok u) :
    u.flagX = s.flagX := by
  obtain ⟨f, keeps, rfl⟩ := cmp_or_cmpa_ok h
  rw [setFlags_flagX, keeps, Option.getD_none, afterEA_flagX]

/-- An execute phase of MOVE, CLR, CMP or CMPA leaves X. -/
theorem execute_flagX {i : Instr} {s u : State} {h : Option HaltCause} (he : execute s i = .ok (u, h))
    (hi : keepsX i = true) : u.flagX = s.flagX := by
  cases i with
  | moveB src dst | moveW src dst | moveL src dst =>
    obtain ⟨v, step⟩ := move_destStep (plain_ok.1 he).1
    exact (step.flagX rfl).trans (afterEA_flagX s _ src)
  | clrB dst | clrW dst | clrL dst => exact (clr_destStep (plain_ok.1 he).1).flagX rfl
  | cmpB src dn | cmpW src dn | cmpL src dn => exact cmp_flagX (.inl (plain_ok.1 he).1)
  | cmpaW src an | cmpaL src an => exact cmp_flagX (.inr (plain_ok.1 he).1)
  | _ => cases hi

/-- Settles O16: neither the advance phase nor a fault writes SR. -/
theorem flagsKeptByInstruction : Obligations.FlagsKeptByInstruction := by
  intro i s t h
  rcases exec_next.1 h with ⟨u, halt, executed, rfl⟩ | ⟨c, -, rfl⟩
  · exact ⟨fun hi => (advance_sr u halt).trans (execute_sr executed hi),
      fun hi => (advance_flagX u halt).trans (execute_flagX executed hi)⟩
  · exact ⟨fun _ => rfl, fun _ => rfl⟩

/-! ### PC, 40_sequencer.md R157 -/

/-- PC stands at the last extension word after an execute phase that transfers no control. -/
theorem execute_pc {i : Instr} {s u : State} {h : Option HaltCause} (he : execute s i = .ok (u, h))
    (hi : transfers i = false) : u.pc = s.pc + BitVec.ofNat 32 (2 * (instrExtWords i).length) := by
  cases i with
  | stop k => obtain ⟨-, -, rfl, -⟩ := stop_ok.1 he; rfl
  | trap15 =>
    obtain ⟨-, -, -, -, pc, -⟩ := trap15_written he
    exact pc.trans (BitVec.add_zero s.pc).symm
  | moveB src dst | moveW src dst | moveL src dst =>
    obtain ⟨v, step⟩ := move_destStep (plain_ok.1 he).1
    rw [step.pc, afterEA_pc, add_words, instrExtWords, List.length_append]
    rfl
  | addiB imm dst | addiW imm dst | addiL imm dst =>
    obtain ⟨f, step⟩ := addi_destStep (plain_ok.1 he).1
    rw [step.pc, setPc_pc, add_words, Nat.add_comm]
    rfl
  | clrB dst | clrW dst | clrL dst => exact (clr_destStep (plain_ok.1 he).1).pc
  | addqB q dst | addqW q dst | addqL q dst =>
    rcases addq_cases (plain_ok.1 he).1 with ⟨r, rfl, rfl⟩ | ⟨-, f, step⟩
    · exact (BitVec.add_zero s.pc).symm
    · exact step.pc
  | addDnEaB dn dst | addDnEaW dn dst | addDnEaL dn dst =>
    obtain ⟨f, step⟩ := addToOperand_destStep (plain_ok.1 he).1
    exact step.pc
  | addEaDnB src dn | addEaDnW src dn | addEaDnL src dn =>
    obtain ⟨v, -, rfl⟩ := addEaDn_ok.1 (plain_ok.1 he).1
    exact afterEA_pc s _ src
  | addaW src an | addaL src an =>
    obtain ⟨v, rfl⟩ := adda_or_movea_ok (.inl (plain_ok.1 he).1)
    exact afterEA_pc s _ src
  | moveaW src an | moveaL src an =>
    obtain ⟨v, rfl⟩ := adda_or_movea_ok (.inr (plain_ok.1 he).1)
    exact afterEA_pc s _ src
  | cmpB src dn | cmpW src dn | cmpL src dn =>
    obtain ⟨f, -, rfl⟩ := cmp_or_cmpa_ok (.inl (plain_ok.1 he).1)
    exact afterEA_pc s _ src
  | cmpaW src an | cmpaL src an =>
    obtain ⟨f, -, rfl⟩ := cmp_or_cmpa_ok (.inr (plain_ok.1 he).1)
    exact afterEA_pc s _ src
  | _ => cases hi

/-- Settles O17: the advance phase adds the opcode word. -/
theorem pcMovesPastTheInstruction : Obligations.PcMovesPastTheInstruction := by
  intro i s t _ hi h unfaulted
  rcases exec_next.1 h with ⟨u, halt, executed, rfl⟩ | ⟨c, -, rfl⟩
  · calc (u.advance halt).pc
        = s.pc + BitVec.ofNat 32 (2 * (instrExtWords i).length) + 2 := by rw [advance_pc, execute_pc executed hi]
      _ = s.pc + BitVec.ofNat 32 (2 * (encode i).length) := by rw [pc_past, encode, List.length_cons, Nat.add_comm]
  · exact absurd rfl (unfaulted _)

end Sys2Proof.Machine
end
